-- ==== Sys2Proof/Word.lean ====
section
/-!
DEFINITION. The word types of the machine: byte, word, doubleword, quadword (00_scope.md R11) and the two
operand and address sizes (00_scope.md R8).
-/

namespace Sys2Proof

/-- 8 bits (R11). -/
abbrev Byte := BitVec 8

/-- 16 bits (R11). -/
abbrev Word := BitVec 16

/-- 32 bits (R11). -/
abbrev Dword := BitVec 32

/-- 64 bits (R11). -/
abbrev Qword := BitVec 64

/-- The two values of `MODE`, of the operand-size attribute and of the address-size attribute (R8, R104, R105). -/
inductive Size where
  /-- 16 bits. -/
  | s16
  /-- 32 bits. -/
  | s32
  deriving DecidableEq, Repr

/-- How many bits a size has. -/
def Size.bits : Size → Nat
  | .s16 => 16
  | .s32 => 32

/-- How many bytes a size has: `O / 8` of R291. -/
def Size.bytes : Size → Nat
  | .s16 => 2
  | .s32 => 4

/-- `48 - MODE`, the size an override prefix selects (R104, R105). -/
def Size.other : Size → Size
  | .s16 => .s32
  | .s32 => .s16

end Sys2Proof
end

