-- ==== Sys2Proof/Config.lean ====
section
/-!
DEFINITION. The parameters of the model (00_scope.md R9) as plain data, the values they have after reset, and the
one free value of the spec (48_push.md R297). Log entry 1: State holds a `Config` that no step changes, so that
every statement about all states is a statement about all parameters.
-/

namespace Sys2Proof

/-- The six segment registers (10_state.md R24). -/
inductive SegReg where
  | es | cs | ss | ds | fs | gs
  deriving DecidableEq, Repr

/-- One value for each segment register: the base addresses `SegBase` (R9), or the registers themselves (R24). -/
structure SegMap (w : Nat) where
  es : BitVec w
  cs : BitVec w
  ss : BitVec w
  ds : BitVec w
  fs : BitVec w
  gs : BitVec w
  deriving DecidableEq, Repr

/-- The entry of one segment register. -/
def SegMap.get {w : Nat} (m : SegMap w) : SegReg → BitVec w
  | .es => m.es
  | .cs => m.cs
  | .ss => m.ss
  | .ds => m.ds
  | .fs => m.fs
  | .gs => m.gs

/-- The kinds of access the platform is asked about (20_memory.md R62). -/
inductive AccessKind where
  | read | write | fetch
  deriving DecidableEq, Repr

/-- One reason for the platform to refuse an access. The platform parameter `Accessible` of R9 is held as a list of
these (log entry 5): `exact` alone can spell every function of (address, size, kind), `region` is the ordinary case. -/
inductive Denial where
  /-- Refuses every access of this kind that touches one of the `size` bytes from linear address `first` on. -/
  | region (kind : AccessKind) (first : Nat) (size : Nat)
  /-- Refuses the accesses of this kind and of exactly `size` bytes at exactly this linear address. -/
  | exact (kind : AccessKind) (addr : Nat) (size : Nat)
  deriving DecidableEq, Repr

/-- The program of a run: the offset in CS of its first instruction, and `END_PC`, the offset at which the run ends
(20_memory.md R75, 70_reset_and_hazards.md R372). -/
structure ProgramRange where
  first : BitVec 32
  endPc : BitVec 32
  deriving DecidableEq, Repr

/-- `PACKUSWB_INPUT` (41_pack_unpack.md R163). -/
inductive PackInput where
  /-- The source's text, the default. -/
  | unsigned
  /-- Intel hardware. -/
  | signed
  deriving DecidableEq, Repr

/-- `PAVEB_ROUND` (43_cyrix.md R204). -/
inductive PavebRound where
  | floor
  | halfUp
  deriving DecidableEq, Repr

/-- `PMAGW_TIE` (43_cyrix.md R207). -/
inductive PmagwTie where
  | keepDest
  | takeSrc
  deriving DecidableEq, Repr

/-- `STACK_ADDR_SIZE_FROM` (48_push.md R290). -/
inductive StackSizeSource where
  | addressSizeAttribute
  | stackSegment
  deriving DecidableEq, Repr

/-- The parameters of R9 (`LaunchState` apart, which is the state itself). -/
structure Config where
  /-- `MODE`: the default operand size and address size. -/
  mode : Size
  /-- `HAS_MMX`. -/
  hasMmx : Bool
  /-- `HAS_CYRIX`. -/
  hasCyrix : Bool
  /-- `SegBase`. -/
  segBase : SegMap 32
  /-- `Accessible`: an access is admitted when no entry refuses it (log entry 5). -/
  denied : List Denial
  /-- The first instruction and `END_PC`; `none` when the host has named no program (log entry 6). -/
  program : Option ProgramRange
  /-- `PACKUSWB_INPUT`. -/
  packuswbInput : PackInput
  /-- `PAVEB_ROUND`. -/
  pavebRound : PavebRound
  /-- `PMAGW_TIE`. -/
  pmagwTie : PmagwTie
  /-- `STACK_ADDR_SIZE_FROM`. -/
  stackAddrSizeFrom : StackSizeSource
  /-- `STACK_SEG_SIZE`. -/
  stackSegSize : Size
  /-- `MMX_SETS_FTW`. -/
  mmxSetsFtw : Bool
  deriving DecidableEq, Repr

/-- The parameters after reset. `MODE` and `SegBase` are PRESUMED (log entry 2: an IA-32 processor leaves reset in
16-bit real-address mode with the CS base FFFF0000h, as R33 records); `Accessible` admits everything and there is no
program (DESIGN CHOICE, log entries 5 and 6); the rest are the defaults of R9. -/
def Config.reset : Config where
  mode := .s16
  hasMmx := true
  hasCyrix := true
  segBase := { es := 0, cs := 0xFFFF0000, ss := 0, ds := 0, fs := 0, gs := 0 }
  denied := []
  program := none
  packuswbInput := .unsigned
  pavebRound := .floor
  pmagwTie := .keepDest
  stackAddrSizeFrom := .addressSizeAttribute
  stackSegSize := .s16
  mmxSetsFtw := true

/-- `draw(16)` of 48_push.md R297: the upper two bytes of a segment register pushed with operand size 32, "of which
the upper two are undefined". The k-th draw of a run is the value at k; nothing constrains it (log entry 7). -/
opaque Config.freeUpperWord : Nat → BitVec 16

end Sys2Proof
end

