-- ==== Sys2Proof/Machine/Lanes.lean ====
section
/-!
DEFINITION. Lanes of a 64-bit value (00_scope.md R13), signed readings and saturation (R14, R15), the scalar
functions of the instruction rules, and how a scalar function acts on every lane.
-/

namespace Sys2Proof.Machine

/-! ## Lanes (R13) -/

/-- `B(v, i)`, byte lane `i` from the least significant end. -/
def laneB (v : BitVec 64) (i : Nat) : BitVec 8 := v.extractLsb' (8 * i) 8

/-- `W(v, i)`, word lane `i`. -/
def laneW (v : BitVec 64) (i : Nat) : BitVec 16 := v.extractLsb' (16 * i) 16

/-- `D(v, i)`, doubleword lane `i`. -/
def laneD (v : BitVec 64) (i : Nat) : BitVec 32 := v.extractLsb' (32 * i) 32

/-- `bytes(b7, ..., b0)`. -/
def packB (b7 b6 b5 b4 b3 b2 b1 b0 : BitVec 8) : BitVec 64 :=
  b7 ++ b6 ++ b5 ++ b4 ++ b3 ++ b2 ++ b1 ++ b0

/-- `words(w3, w2, w1, w0)`. -/
def packW (w3 w2 w1 w0 : BitVec 16) : BitVec 64 := w3 ++ w2 ++ w1 ++ w0

/-- `dwords(d1, d0)`. -/
def packD (d1 d0 : BitVec 32) : BitVec 64 := d1 ++ d0

/-- A value given lane by lane: byte lane `i` is `f i`. -/
def ofLanesB (f : Nat → BitVec 8) : BitVec 64 :=
  packB (f 7) (f 6) (f 5) (f 4) (f 3) (f 2) (f 1) (f 0)

/-- A value given lane by lane: word lane `i` is `f i`. -/
def ofLanesW (f : Nat → BitVec 16) : BitVec 64 := packW (f 3) (f 2) (f 1) (f 0)

/-- A value given lane by lane: doubleword lane `i` is `f i`. -/
def ofLanesD (f : Nat → BitVec 32) : BitVec 64 := packD (f 1) (f 0)

/-- One scalar function on each pair of byte lanes (R13, "packed"). -/
def mapB (f : BitVec 8 → BitVec 8 → BitVec 8) (d s : BitVec 64) : BitVec 64 :=
  ofLanesB fun i => f (laneB d i) (laneB s i)

/-- One scalar function on each pair of word lanes. -/
def mapW (f : BitVec 16 → BitVec 16 → BitVec 16) (d s : BitVec 64) : BitVec 64 :=
  ofLanesW fun i => f (laneW d i) (laneW s i)

/-- One scalar function on each pair of doubleword lanes. -/
def mapD (f : BitVec 32 → BitVec 32 → BitVec 32) (d s : BitVec 64) : BitVec 64 :=
  ofLanesD fun i => f (laneD d i) (laneD s i)

/-! ## Saturation (R15) -/

/-- `sat_s8`. -/
def satS8 (z : Int) : BitVec 8 := BitVec.ofInt 8 (max (-128) (min 127 z))

/-- `sat_s16`. -/
def satS16 (z : Int) : BitVec 16 := BitVec.ofInt 16 (max (-32768) (min 32767 z))

/-- `sat_u8`. -/
def satU8 (z : Int) : BitVec 8 := BitVec.ofInt 8 (max 0 (min 255 z))

/-- `sat_u16`. -/
def satU16 (z : Int) : BitVec 16 := BitVec.ofInt 16 (max 0 (min 65535 z))

/-! ## Addition and subtraction (42_add_sub.md) -/

/-- PADDSB's lane (R184). -/
def addSatS8 (a b : BitVec 8) : BitVec 8 := satS8 (a.toInt + b.toInt)

/-- PADDSW's lane (R185), and PADDSIW's (R203). -/
def addSatS16 (a b : BitVec 16) : BitVec 16 := satS16 (a.toInt + b.toInt)

/-- PADDUSB's lane (R186). -/
def addSatU8 (a b : BitVec 8) : BitVec 8 := satU8 ((a.toNat : Int) + b.toNat)

/-- PADDUSW's lane (R187). -/
def addSatU16 (a b : BitVec 16) : BitVec 16 := satU16 ((a.toNat : Int) + b.toNat)

/-- PSUBSB's lane, destination minus source (R191). -/
def subSatS8 (a b : BitVec 8) : BitVec 8 := satS8 (a.toInt - b.toInt)

/-- PSUBSW's lane (R192), and PSUBSIW's (R214). -/
def subSatS16 (a b : BitVec 16) : BitVec 16 := satS16 (a.toInt - b.toInt)

/-- PSUBUSB's lane, clipped at 0 (R193). -/
def subSatU8 (a b : BitVec 8) : BitVec 8 := satU8 ((a.toNat : Int) - b.toNat)

/-- PSUBUSW's lane, clipped at 0 (R194). -/
def subSatU16 (a b : BitVec 16) : BitVec 16 := satU16 ((a.toNat : Int) - b.toNat)

/-! ## Comparison (45_compare.md) -/

/-- All ones where the comparison holds, all zeros where it does not (R240). -/
def mask {w : Nat} (p : Bool) : BitVec w := if p then BitVec.allOnes w else 0

/-- Equality of bit patterns (R241 to R243). -/
def cmpEq {w : Nat} (a b : BitVec w) : BitVec w := mask (decide (a = b))

/-- Signed greater-than, destination against source (R244 to R246). -/
def cmpGt {w : Nat} (a b : BitVec w) : BitVec w := mask (decide (b.toInt < a.toInt))

/-! ## Multiplication (46_multiply.md, 43_cyrix.md R202) -/

/-- The exact signed product of two words, as a doubleword. -/
def mulS16 (a b : BitVec 16) : BitVec 32 := BitVec.ofInt 32 (a.toInt * b.toInt)

/-- PMULHW's lane: the top 16 bits of the product (R251). -/
def mulHigh (a b : BitVec 16) : BitVec 16 := (mulS16 a b).extractLsb' 16 16

/-- PMULLW's lane: the bottom 16 bits of the product (R252). -/
def mulLow (a b : BitVec 16) : BitVec 16 := (mulS16 a b).extractLsb' 0 16

/-- PMADDWD: the sums of the two top and of the two bottom products (R250). -/
def mulAdd (d s : BitVec 64) : BitVec 64 :=
  packD
    (BitVec.ofInt 32 ((laneW d 3).toInt * (laneW s 3).toInt + (laneW d 2).toInt * (laneW s 2).toInt))
    (BitVec.ofInt 32 ((laneW d 1).toInt * (laneW s 1).toInt + (laneW d 0).toInt * (laneW s 0).toInt))

/-- `mulhr(a, b)`: bits 30 to 15 of the product after adding 4000h (R202). -/
def mulHighRound (a b : BitVec 16) : BitVec 16 :=
  (BitVec.ofInt 32 (a.toInt * b.toInt + 0x4000)).extractLsb' 15 16

/-! ## Shifts (47_shift.md R260 to R262); the count is a number that is never masked (R263) -/

/-- Logical left shift (R260). -/
def shiftLeft {w : Nat} (x : BitVec w) (c : Nat) : BitVec w :=
  if c < w then BitVec.ofNat w (x.toNat * 2 ^ c) else 0

/-- Logical right shift (R261). -/
def shiftRight {w : Nat} (x : BitVec w) (c : Nat) : BitVec w :=
  if c < w then BitVec.ofNat w (x.toNat / 2 ^ c) else 0

/-- Arithmetic right shift (R262). -/
def shiftRightArith {w : Nat} (x : BitVec w) (c : Nat) : BitVec w :=
  BitVec.ofInt w (x.toInt / 2 ^ min c (w - 1))

/-- One shift on every word by the same count (R282). -/
def shiftW (f : BitVec 16 → Nat → BitVec 16) (d : BitVec 64) (c : Nat) : BitVec 64 :=
  ofLanesW fun i => f (laneW d i) c

/-- One shift on every doubleword by the same count (R282). -/
def shiftD (f : BitVec 32 → Nat → BitVec 32) (d : BitVec 64) (c : Nat) : BitVec 64 :=
  ofLanesD fun i => f (laneD d i) c

/-! ## Pack and unpack (41_pack_unpack.md) -/

/-- PACKSSDW: destination doublewords to the low words, source doublewords to the high words (R161). -/
def packDwords (f : BitVec 32 → BitVec 16) (d s : BitVec 64) : BitVec 64 :=
  packW (f (laneD s 1)) (f (laneD s 0)) (f (laneD d 1)) (f (laneD d 0))

/-- PACKSSWB and PACKUSWB: destination words to the low bytes, source words to the high bytes (R162, R163). -/
def packWords (f : BitVec 16 → BitVec 8) (d s : BitVec 64) : BitVec 64 :=
  packB (f (laneW s 3)) (f (laneW s 2)) (f (laneW s 1)) (f (laneW s 0))
    (f (laneW d 3)) (f (laneW d 2)) (f (laneW d 1)) (f (laneW d 0))

/-- A doubleword to a word with signed saturation (R161). -/
def narrowS16 (x : BitVec 32) : BitVec 16 := satS16 x.toInt

/-- A word to a byte with signed saturation (R162). -/
def narrowS8 (x : BitVec 16) : BitVec 8 := satS8 x.toInt

/-- A word to a byte with unsigned saturation, the word read as `PACKUSWB_INPUT` says (R163). -/
def narrowU8 (input : PackInput) (x : BitVec 16) : BitVec 8 :=
  match input with
  | .unsigned => satU8 x.toNat
  | .signed => satU8 x.toInt

/-- PUNPCKHBW (`o = 4`) and PUNPCKLBW (`o = 0`): bytes `o` to `o + 3` of both operands, alternating (R164). -/
def unpackB (o : Nat) (d s : BitVec 64) : BitVec 64 :=
  packB (laneB s (o + 3)) (laneB d (o + 3)) (laneB s (o + 2)) (laneB d (o + 2))
    (laneB s (o + 1)) (laneB d (o + 1)) (laneB s o) (laneB d o)

/-- PUNPCKHWD (`o = 2`) and PUNPCKLWD (`o = 0`) (R164). -/
def unpackW (o : Nat) (d s : BitVec 64) : BitVec 64 :=
  packW (laneW s (o + 1)) (laneW d (o + 1)) (laneW s o) (laneW d o)

/-- PUNPCKHDQ (`o = 1`) and PUNPCKLDQ (`o = 0`) (R164). -/
def unpackD (o : Nat) (d s : BitVec 64) : BitVec 64 :=
  packD (laneD s o) (laneD d o)

/-! ## The Cyrix lane functions (43_cyrix.md) -/

/-- The average of two unsigned bytes, an odd sum rounded as `PAVEB_ROUND` says (R204). -/
def average (round : PavebRound) (a b : BitVec 8) : BitVec 8 :=
  match round with
  | .floor => BitVec.ofNat 8 ((a.toNat + b.toNat) / 2)
  | .halfUp => BitVec.ofNat 8 ((a.toNat + b.toNat + 1) / 2)

/-- The word of larger magnitude; a tie as `PMAGW_TIE` says (R207). -/
def largerMagnitude (tie : PmagwTie) (a b : BitVec 16) : BitVec 16 :=
  if a.toInt.natAbs < b.toInt.natAbs then b
  else if b.toInt.natAbs < a.toInt.natAbs then a
  else match tie with
    | .keepDest => a
    | .takeSrc => b

/-- An accumulator byte plus the distance of two unsigned bytes, saturated (R205). -/
def accumulateDistance (acc a b : BitVec 8) : BitVec 8 :=
  satU8 ((acc.toNat : Int) + ((a.toNat : Int) - b.toNat).natAbs)

/-- Byte lanes of `s` where the condition byte holds, of `d` elsewhere (R210 to R213). -/
def selectB (p : BitVec 8 → Bool) (c d s : BitVec 64) : BitVec 64 :=
  ofLanesB fun i => if p (laneB c i) then laneB s i else laneB d i

end Sys2Proof.Machine
end

