-- ==== Sys2Proof/Machine/State.lean ====
section
/-!
DEFINITION. The state of the machine (10_state.md, the tuple before R20), the reasons a step can stop
(60_exceptions.md R331, R332), and the state after reset.
-/

namespace Sys2Proof.Machine

/-- The hardware would raise a synchronous exception: the run ends, no state has changed (R330, R331, R333). -/
inductive Fault where
  /-- Raised by an MMX instruction when `HAS_MMX` is false, by a Cyrix instruction when `HAS_MMX` or `HAS_CYRIX` is
  false (R119), and by the decoder for a `mem64` operand in register form (R129) and for an unlisted shift-group
  encoding (R130). Safe: the spec says the hardware does not complete. -/
  | invalidOpcode
  /-- Raised by an operand read, a store, a stack write or an instruction fetch the platform does not admit (R62):
  linear address, byte count, kind. Safe. -/
  | memoryFault (addr : BitVec 32) (size : Nat) (kind : AccessKind)
  /-- Raised by a data access whose bytes run past the end of the 16-bit or 32-bit offset space (R62): segment, offset,
  byte count. Safe: hardware faults or wraps. -/
  | offsetWrap (seg : SegReg) (off : BitVec 32) (size : Nat)
  /-- Raised by a store or stack write that hits a byte of the program (R75): the first program byte hit. Safe. -/
  | codeWrite (addr : BitVec 32)
  /-- Raised by a fetch past the top of the code offset space (R31, R100). Safe. -/
  | fetchWrap
  deriving DecidableEq, Repr

/-- The bytes at `pc` are outside what the spec describes: no statement about the hardware (R330, R332). -/
inductive Refusal where
  /-- Raised by `exec` for an instruction without a meaning. Safe. -/
  | notModelled (mnemonic : String)
  /-- Raised by the decoder for bytes that match no row of the opcode map (R131). Safe. -/
  | notInScope
  /-- Raised by the decoder for a prefix or combination of prefixes it does not accept (R103). Safe. -/
  | prefixNotInScope
  deriving DecidableEq, Repr

/-- Memory by linear address (R32): the bytes that differ from what an unlisted address reads as, addresses strictly
rising. `Memory.wf` (Machine/Memory.lean) says that this form holds. -/
abbrev Memory := List Host.Cell

/-- What an unlisted address reads as (DESIGN CHOICE, log entry 4: the spec gives memory no launch contents). -/
def Memory.unlisted : BitVec 8 := 0

/-- Everything the spec gives the machine, its parameters (log entry 1) and the counter of free values. -/
structure State where
  /-- `mm[0..7]` (R20). -/
  mm : Vector (BitVec 64) 8
  /-- `r32[0..7]` (R22). -/
  r32 : Vector (BitVec 32) 8
  /-- `sreg[ES, CS, SS, DS, FS, GS]` (R24). -/
  sreg : SegMap 16
  /-- `flags`, opaque (R25). -/
  flags : BitVec 32
  /-- `ftw`, the FPU tag word (R26). -/
  ftw : BitVec 16
  /-- `pc`, an offset in CS (R30). -/
  pc : BitVec 32
  /-- `mem` (R32). -/
  mem : Memory
  /-- The model's own field: how many free values have been drawn (R297, R385, log entry 7). -/
  draws : Nat
  /-- The parameters of R9. No step changes them. -/
  cfg : Config
  deriving DecidableEq, Repr

/-- The machine right after reset. The spec states no reset value (R33, R370); the values are those of the family
that R33 records (PRESUMED, log entry 2), 0 for EAX, EDX and the memory (DESIGN CHOICE, log entries 3, 4 and 7). -/
def State.reset : State where
  mm := Vector.replicate 8 0
  r32 := Vector.replicate 8 0
  sreg := { es := 0, cs := 0xF000, ss := 0, ds := 0, fs := 0, gs := 0 }
  flags := 0x00000002
  ftw := 0x5555
  pc := 0x0000FFF0
  mem := []
  draws := 0
  cfg := Config.reset

end Sys2Proof.Machine
end

