-- ==== Sys2Proof/Machine/Memory.lean ====
section
/-!
DEFINITION. Memory as a list in canonical form: reading and writing one byte (20_memory.md R63, R64), little-endian
values of several bytes (R65), and the predicate that says the form holds.
-/

namespace Sys2Proof.Machine

/-- The byte at a linear address. -/
def Memory.read : Memory → Nat → BitVec 8
  | [], _ => Memory.unlisted
  | (k, b) :: m, a => if k = a then b else Memory.read m a

/-- The entry for one byte, left out where it equals what an unlisted address reads as. -/
def Memory.entry (a : Nat) (v : BitVec 8) : Memory :=
  if v = Memory.unlisted then [] else [(a, v)]

/-- The list without any entry for one address. -/
def Memory.erase : Memory → Nat → Memory
  | [], _ => []
  | (k, b) :: m, a => if k = a then Memory.erase m a else (k, b) :: Memory.erase m a

/-- Stores one byte and keeps the canonical form. (It reads back on every list, canonical or not, because every older
entry for the address is dropped.) -/
def Memory.write : Memory → Nat → BitVec 8 → Memory
  | [], a, v => Memory.entry a v
  | (k, b) :: m, a, v =>
    if k < a then (k, b) :: Memory.write m a v
    else if k = a then Memory.write m a v
    else Memory.entry a v ++ (k, b) :: Memory.erase m a

/-- The canonical form from address `lo` on: addresses strictly rising and below 2^32, no entry equal to what an
unlisted address reads as. -/
def Memory.wfFrom : Nat → Memory → Bool
  | _, [] => true
  | lo, (k, b) :: m => decide (lo ≤ k) && decide (k < 2 ^ 32) && decide (b ≠ Memory.unlisted) && Memory.wfFrom (k + 1) m

/-- The canonical form. -/
def Memory.wf (m : Memory) : Bool := Memory.wfFrom 0 m

/-- `MemRead(a, n)` without its admission (R63): the byte at the lowest address is the least significant, address
arithmetic mod 2^32. -/
def Memory.readLE (m : Memory) (a : BitVec 32) : (n : Nat) → BitVec (8 * n)
  | 0 => 0
  | n + 1 => (m.read (a + BitVec.ofNat 32 n).toNat ++ Memory.readLE m a n).cast (by omega)

/-- Byte `k` of a value: `v[8k+7 : 8k]`. -/
def byteOf {w : Nat} (v : BitVec w) (k : Nat) : BitVec 8 := v.extractLsb' (8 * k) 8

/-- `MemWrite(a, n, v)` without its admission (R64): byte `k` of the value goes to address `a + k`. -/
def Memory.writeLE {w : Nat} (m : Memory) (a : BitVec 32) (v : BitVec w) : Nat → Memory
  | 0 => m
  | n + 1 => (Memory.writeLE m a v n).write (a + BitVec.ofNat 32 n).toNat (byteOf v n)

end Sys2Proof.Machine
end

