-- ==== Sys2Proof/Syntax.lean ====
section
/-!
DEFINITION. The instructions: one constructor of `Instr` for each row of spec/opcode_table.json, in the table's
order (30_encoding.md R128), with the operands as the decoder delivers them. Register numbers stay the 3-bit numbers
of the encoding (R20, R22), because the Cyrix instructions compute with them (R200). A memory operand holds what
enters its address (R113 to R117), with the segment already chosen between the prefix and the default (R116).
The address-size attribute `a` and the operand-size attribute `o` (R104, R105) stand in an instruction where its
effect depends on them.
-/

namespace Sys2Proof

/-- The number of an MMX register, MM0 to MM7 (R20). -/
abbrev MmReg := BitVec 3

/-- The number of a general register, EAX ECX EDX EBX ESP EBP ESI EDI (R22). -/
abbrev GpReg := BitVec 3

/-- The register sums of 16-bit addressing (R115); `abs` is the `mod = 0`, `rm = 6` form, a displacement alone. -/
inductive Base16 where
  | bxSi | bxDi | bpSi | bpDi | si | di | bp | bx | abs
  deriving DecidableEq, Repr

/-- The index term of a SIB byte: register and scale, the register's value times `2^scale` (R114). -/
structure SibIndex where
  reg : GpReg
  scale : BitVec 2
  deriving DecidableEq, Repr

/-- A memory operand. -/
inductive MemOp where
  /-- 16-bit addressing (R115). -/
  | addr16 (seg : SegReg) (base : Base16) (disp : BitVec 16)
  /-- 32-bit addressing (R113, R114): optional base register, optional scaled index, displacement. -/
  | addr32 (seg : SegReg) (base : Option GpReg) (index : Option SibIndex) (disp : BitVec 32)
  deriving DecidableEq, Repr

/-- An `r/m` operand: a register number, whose file the instruction decides (R112), or a memory operand (R109). -/
inductive RmOp where
  | reg (r : BitVec 3)
  | mem (m : MemOp)
  deriving DecidableEq, Repr

/-- One constructor per row of spec/opcode_table.json, in its order. For a two-operand instruction the operands
stand in the written order, destination first (R17). -/
inductive Instr where
  -- Cyrix, 0F 50 to 0F 5E
  | paveb (d : MmReg) (src : RmOp)
  | paddsiw (d : MmReg) (src : RmOp)
  | pmagw (d : MmReg) (src : RmOp)
  | pdistib (d : MmReg) (src : MemOp)
  | psubsiw (d : MmReg) (src : RmOp)
  | pmvzb (d : MmReg) (src : MemOp)
  | pmulhrw (d : MmReg) (src : RmOp)
  | pmvnzb (d : MmReg) (src : MemOp)
  | pmvlzb (d : MmReg) (src : MemOp)
  | pmvgezb (d : MmReg) (src : MemOp)
  | pmulhriw (d : MmReg) (src : RmOp)
  | pmachriw (d : MmReg) (src : MemOp)
  -- MMX, 0F 60 to 0F 7F
  | punpcklbw (d : MmReg) (src : RmOp)
  | punpcklwd (d : MmReg) (src : RmOp)
  | punpckldq (d : MmReg) (src : RmOp)
  | packsswb (d : MmReg) (src : RmOp)
  | pcmpgtb (d : MmReg) (src : RmOp)
  | pcmpgtw (d : MmReg) (src : RmOp)
  | pcmpgtd (d : MmReg) (src : RmOp)
  | packuswb (d : MmReg) (src : RmOp)
  | punpckhbw (d : MmReg) (src : RmOp)
  | punpckhwd (d : MmReg) (src : RmOp)
  | punpckhdq (d : MmReg) (src : RmOp)
  | packssdw (d : MmReg) (src : RmOp)
  | movdLoad (d : MmReg) (src : RmOp)
  | movqLoad (d : MmReg) (src : RmOp)
  | psrlwImm (d : MmReg) (count : BitVec 8)
  | psrawImm (d : MmReg) (count : BitVec 8)
  | psllwImm (d : MmReg) (count : BitVec 8)
  | psrldImm (d : MmReg) (count : BitVec 8)
  | psradImm (d : MmReg) (count : BitVec 8)
  | pslldImm (d : MmReg) (count : BitVec 8)
  | psrlqImm (d : MmReg) (count : BitVec 8)
  | psllqImm (d : MmReg) (count : BitVec 8)
  | pcmpeqb (d : MmReg) (src : RmOp)
  | pcmpeqw (d : MmReg) (src : RmOp)
  | pcmpeqd (d : MmReg) (src : RmOp)
  | emms
  | movdStore (dst : RmOp) (src : MmReg)
  | movqStore (dst : RmOp) (src : MmReg)
  | pushFs (o a : Size)
  | pushGs (o a : Size)
  -- MMX, 0F D1 to 0F FE
  | psrlw (d : MmReg) (src : RmOp)
  | psrld (d : MmReg) (src : RmOp)
  | psrlq (d : MmReg) (src : RmOp)
  | pmullw (d : MmReg) (src : RmOp)
  | psubusb (d : MmReg) (src : RmOp)
  | psubusw (d : MmReg) (src : RmOp)
  | pand (d : MmReg) (src : RmOp)
  | paddusb (d : MmReg) (src : RmOp)
  | paddusw (d : MmReg) (src : RmOp)
  | pandn (d : MmReg) (src : RmOp)
  | psraw (d : MmReg) (src : RmOp)
  | psrad (d : MmReg) (src : RmOp)
  | pmulhw (d : MmReg) (src : RmOp)
  | psubsb (d : MmReg) (src : RmOp)
  | psubsw (d : MmReg) (src : RmOp)
  | por (d : MmReg) (src : RmOp)
  | paddsb (d : MmReg) (src : RmOp)
  | paddsw (d : MmReg) (src : RmOp)
  | pxor (d : MmReg) (src : RmOp)
  | psllw (d : MmReg) (src : RmOp)
  | pslld (d : MmReg) (src : RmOp)
  | psllq (d : MmReg) (src : RmOp)
  | pmaddwd (d : MmReg) (src : RmOp)
  | psubb (d : MmReg) (src : RmOp)
  | psubw (d : MmReg) (src : RmOp)
  | psubd (d : MmReg) (src : RmOp)
  | paddb (d : MmReg) (src : RmOp)
  | paddw (d : MmReg) (src : RmOp)
  | paddd (d : MmReg) (src : RmOp)
  -- the one-byte map
  | pushEs (o a : Size)
  | pushCs (o a : Size)
  | pushSs (o a : Size)
  | pushDs (o a : Size)
  | pushReg16 (a : Size) (r : GpReg)
  | pushReg32 (a : Size) (r : GpReg)
  | pushaw (a : Size)
  | pushad (a : Size)
  /-- The second name PUSHA (R312): never the decoder's answer, its meaning follows MODE. -/
  | pusha (a : Size)
  | pushImm16 (a : Size) (imm : BitVec 16)
  | pushImm32 (a : Size) (imm : BitVec 32)
  | pushImm8 (o a : Size) (imm : BitVec 8)
  | pushfw (a : Size)
  | pushfd (a : Size)
  /-- The second name PUSHF (R317): never the decoder's answer, its meaning follows MODE. -/
  | pushf (a : Size)
  | pushRm16 (a : Size) (src : RmOp)
  | pushRm32 (a : Size) (src : RmOp)
  deriving DecidableEq, Repr

end Sys2Proof
end

