-- ==== Sys2Proof/Machine/Ops.lean ====
section
/-!
DEFINITION. The named operations over registers and memory: register accessors (10_state.md), linear addresses and
admission (20_memory.md R61, R62, R75), loads and stores, the program counter (R31), the end of a run (R372), and the
end of an MMX instruction (30_encoding.md R119). The spec describes no exception entry and no return from one
(60_exceptions.md R337, R338): a fault ends the run with no state changed (R333).
-/

namespace Sys2Proof.Machine

/-! ## Registers -/

/-- `mm[i]` (R20). -/
def State.getMm (s : State) (i : MmReg) : BitVec 64 := s.mm[i.toNat]'i.isLt

/-- `mm[i] <- v`. -/
def State.setMm (s : State) (i : MmReg) (v : BitVec 64) : State := { s with mm := s.mm.set i.toNat v i.isLt }

/-- The implied register's number, `n XOR 1` (R200). -/
def implied (i : MmReg) : MmReg := i ^^^ 1

/-- `r32[i]` (R22). -/
def State.getR32 (s : State) (i : GpReg) : BitVec 32 := s.r32[i.toNat]'i.isLt

/-- `r32[i] <- v`. -/
def State.setR32 (s : State) (i : GpReg) (v : BitVec 32) : State := { s with r32 := s.r32.set i.toNat v i.isLt }

/-- `r16[i]`, the low half of `r32[i]` (R22). -/
def State.getR16 (s : State) (i : GpReg) : BitVec 16 := (s.getR32 i).extractLsb' 0 16

/-- `r16[i] <- v`: bits 31:16 of `r32[i]` stay (R16). -/
def State.setR16 (s : State) (i : GpReg) (v : BitVec 16) : State :=
  s.setR32 i ((s.getR32 i).extractLsb' 16 16 ++ v)

/-- `sreg[X]` (R24). -/
def State.getSreg (s : State) (x : SegReg) : BitVec 16 := s.sreg.get x

/-! ## Addresses and admission -/

/-- `Lin(X, off) = (SegBase(X) + off) mod 2^32` (R61). -/
def lin (c : Config) (x : SegReg) (off : BitVec 32) : BitVec 32 := c.segBase.get x + off

/-- Whether linear address `a` is one of the `n` bytes from `first` on. -/
def inRegion (first n a : Nat) : Bool := decide (first ≤ a) && decide (a < first + n)

/-- Whether one entry of the platform's list refuses an access (R62, log entry 5). -/
def Denial.refuses (a : BitVec 32) (n : Nat) (k : AccessKind) : Denial → Bool
  | .region kind first size =>
    decide (kind = k) && (List.range n).any fun j => inRegion first size (a + BitVec.ofNat 32 j).toNat
  | .exact kind addr size => decide (kind = k) && decide (addr = a.toNat) && decide (size = n)

/-- `Accessible(a, n, k)` (R62). -/
def accessible (c : Config) (a : BitVec 32) (n : Nat) (k : AccessKind) : Bool :=
  !(c.denied.any (Denial.refuses a n k))

/-- An offset reduced to the width of the code offset space (R30). -/
def codeOffset (mode : Size) (p : BitVec 32) : Nat := p.toNat % 2 ^ mode.bits

/-- Whether linear address `a` is `Lin(CS, p)` for an offset `p` from the first instruction up to, and not including,
`END_PC`, counted on in the code offset space (R75, log entry 8). -/
def isProgramByte (c : Config) (a : BitVec 32) : Bool :=
  match c.program with
  | none => false
  | some r =>
    let p := a - c.segBase.cs
    decide (p.toNat < 2 ^ c.mode.bits) &&
      decide (codeOffset c.mode (p - r.first) < codeOffset c.mode (r.endPc - r.first))

/-- The first program byte that `n` bytes from `a` on hit (R75, R331). -/
def programHit (c : Config) (a : BitVec 32) (n : Nat) : Option (BitVec 32) :=
  ((List.range n).map fun j => a + BitVec.ofNat 32 j).find? (isProgramByte c)

/-- Admission of `n` bytes at offset `off` of segment `X`, in the offset space of size `w`: first the offset wrap,
then the platform, then, for a write, the program bytes (R62, R75, in the order of R336). The answer is the cause that
stops the access, if there is one. -/
def admission (c : Config) (x : SegReg) (w : Size) (off : BitVec 32) (n : Nat) (k : AccessKind) : Option Fault :=
  if 2 ^ w.bits < off.toNat + n then some (.offsetWrap x off n)
  else if accessible c (lin c x off) n k then
    if k = .write then (programHit c (lin c x off) n).map .codeWrite else none
  else some (.memoryFault (lin c x off) n k)

/-! ## Loads and stores -/

/-- A load of `n` bytes with its admission (R62, R63). -/
def State.load (s : State) (x : SegReg) (w : Size) (off : BitVec 32) (n : Nat) : Except Fault (BitVec (8 * n)) :=
  match admission s.cfg x w off n .read with
  | some e => .error e
  | none => .ok (s.mem.readLE (lin s.cfg x off) n)

/-- The memory after a store of `n` bytes whose admission holds (R64). -/
def State.put {w : Nat} (s : State) (x : SegReg) (off : BitVec 32) (n : Nat) (v : BitVec w) : State :=
  { s with mem := s.mem.writeLE (lin s.cfg x off) v n }

/-- A store of `n` bytes with its admission (R62, R64, R75). -/
def State.store {wv : Nat} (s : State) (x : SegReg) (w : Size) (off : BitVec 32) (n : Nat) (v : BitVec wv) :
    Except Fault State :=
  match admission s.cfg x w off n .write with
  | some e => .error e
  | none => .ok (s.put x off n v)

/-! ## The end of an instruction and of a run -/

/-- The tag word part of `MmxDone` (R27, R119). -/
def State.mmxDone (s : State) : State := if s.cfg.mmxSetsFtw then { s with ftw := 0 } else s

/-- `pc <- pc + len` in the width of the mode (R31). -/
def State.advancePc (s : State) (len : Nat) : State :=
  { s with pc := BitVec.ofNat 32 ((s.pc.toNat + len) % 2 ^ s.cfg.mode.bits) }

/-- `pc = END_PC`: the run has ended normally (R372, log entry 6). -/
def State.atEnd (s : State) : Bool :=
  match s.cfg.program with
  | some r => decide (s.pc = r.endPc)
  | none => false

/-- The step's outcome for an operation that faults or gives a next state. -/
def outcome : Except Fault State → Host.Outcome State Fault Refusal
  | .ok t => .next t
  | .error e => .fault e

/-- `RequireMMX` (R119). -/
def State.requireMmx (s : State) (r : Except Fault State) : Host.Outcome State Fault Refusal :=
  if s.cfg.hasMmx then outcome r else .fault .invalidOpcode

/-- `RequireCyrix` (R119). -/
def State.requireCyrix (s : State) (r : Except Fault State) : Host.Outcome State Fault Refusal :=
  if s.cfg.hasMmx && s.cfg.hasCyrix then outcome r else .fault .invalidOpcode

end Sys2Proof.Machine
end

