-- ==== Sys2Proof/WellFormed.lean ====
section
/-!
DEFINITION. Which instructions an encoding can spell. Three checks: a SIB byte cannot name register 4 as an index
(30_encoding.md R114); the addressing form of a PUSH operand in memory is the instruction's own address size (R105);
a 16-bit absolute operand and a 32-bit one need no check of their own, every displacement is encodable (R113, R115).
-/

namespace Sys2Proof

/-- The address size of a memory operand (R105). -/
def MemOp.size : MemOp → Size
  | .addr16 .. => .s16
  | .addr32 .. => .s32

/-- The segment of a memory operand (R116, R117). -/
def MemOp.seg : MemOp → SegReg
  | .addr16 seg _ _ => seg
  | .addr32 seg _ _ _ => seg

/-- R114: `index = 4` in a SIB byte means no index, so ESP is never scaled. -/
def MemOp.wellFormed : MemOp → Bool
  | .addr16 .. => true
  | .addr32 _ _ (some i) _ => i.reg != 4
  | .addr32 _ _ none _ => true

/-- The memory operand, if there is one, is well formed. -/
def RmOp.wellFormed : RmOp → Bool
  | .reg _ => true
  | .mem m => m.wellFormed

/-- The memory operand, if there is one, uses the addressing of this address size (R105). -/
def RmOp.fits (a : Size) : RmOp → Bool
  | .reg _ => true
  | .mem m => decide (m.size = a)

/-- What must hold of an instruction for some byte sequence to spell it. -/
def Instr.wellFormed : Instr → Bool
  | .paveb _ src => src.wellFormed
  | .paddsiw _ src => src.wellFormed
  | .pmagw _ src => src.wellFormed
  | .pdistib _ src => src.wellFormed
  | .psubsiw _ src => src.wellFormed
  | .pmvzb _ src => src.wellFormed
  | .pmulhrw _ src => src.wellFormed
  | .pmvnzb _ src => src.wellFormed
  | .pmvlzb _ src => src.wellFormed
  | .pmvgezb _ src => src.wellFormed
  | .pmulhriw _ src => src.wellFormed
  | .pmachriw _ src => src.wellFormed
  | .punpcklbw _ src => src.wellFormed
  | .punpcklwd _ src => src.wellFormed
  | .punpckldq _ src => src.wellFormed
  | .packsswb _ src => src.wellFormed
  | .pcmpgtb _ src => src.wellFormed
  | .pcmpgtw _ src => src.wellFormed
  | .pcmpgtd _ src => src.wellFormed
  | .packuswb _ src => src.wellFormed
  | .punpckhbw _ src => src.wellFormed
  | .punpckhwd _ src => src.wellFormed
  | .punpckhdq _ src => src.wellFormed
  | .packssdw _ src => src.wellFormed
  | .movdLoad _ src => src.wellFormed
  | .movqLoad _ src => src.wellFormed
  | .psrlwImm _ _ => true
  | .psrawImm _ _ => true
  | .psllwImm _ _ => true
  | .psrldImm _ _ => true
  | .psradImm _ _ => true
  | .pslldImm _ _ => true
  | .psrlqImm _ _ => true
  | .psllqImm _ _ => true
  | .pcmpeqb _ src => src.wellFormed
  | .pcmpeqw _ src => src.wellFormed
  | .pcmpeqd _ src => src.wellFormed
  | .emms => true
  | .movdStore dst _ => dst.wellFormed
  | .movqStore dst _ => dst.wellFormed
  | .pushFs _ _ => true
  | .pushGs _ _ => true
  | .psrlw _ src => src.wellFormed
  | .psrld _ src => src.wellFormed
  | .psrlq _ src => src.wellFormed
  | .pmullw _ src => src.wellFormed
  | .psubusb _ src => src.wellFormed
  | .psubusw _ src => src.wellFormed
  | .pand _ src => src.wellFormed
  | .paddusb _ src => src.wellFormed
  | .paddusw _ src => src.wellFormed
  | .pandn _ src => src.wellFormed
  | .psraw _ src => src.wellFormed
  | .psrad _ src => src.wellFormed
  | .pmulhw _ src => src.wellFormed
  | .psubsb _ src => src.wellFormed
  | .psubsw _ src => src.wellFormed
  | .por _ src => src.wellFormed
  | .paddsb _ src => src.wellFormed
  | .paddsw _ src => src.wellFormed
  | .pxor _ src => src.wellFormed
  | .psllw _ src => src.wellFormed
  | .pslld _ src => src.wellFormed
  | .psllq _ src => src.wellFormed
  | .pmaddwd _ src => src.wellFormed
  | .psubb _ src => src.wellFormed
  | .psubw _ src => src.wellFormed
  | .psubd _ src => src.wellFormed
  | .paddb _ src => src.wellFormed
  | .paddw _ src => src.wellFormed
  | .paddd _ src => src.wellFormed
  | .pushEs _ _ => true
  | .pushCs _ _ => true
  | .pushSs _ _ => true
  | .pushDs _ _ => true
  | .pushReg16 _ _ => true
  | .pushReg32 _ _ => true
  | .pushaw _ => true
  | .pushad _ => true
  | .pusha _ => true
  | .pushImm16 _ _ => true
  | .pushImm32 _ _ => true
  | .pushImm8 _ _ _ => true
  | .pushfw _ => true
  | .pushfd _ => true
  | .pushf _ => true
  | .pushRm16 a src => src.wellFormed && src.fits a
  | .pushRm32 a src => src.wellFormed && src.fits a

end Sys2Proof
end

