-- ==== Sys2Proof/Machine/Operands.lean ====
section
/-!
DEFINITION. Operands: effective addresses (30_encoding.md R113 to R117), the value accessors Src16, Src32, Src64,
Dst32, Dst64 (R118), the execution templates of the MMX and Cyrix instructions (R119, R282, 43_cyrix.md), and the
stack (48_push.md R290, R291, R297).
-/

namespace Sys2Proof.Machine

/-! ## Effective address -/

/-- The register sum of 16-bit addressing (R115): BX, BP, SI, DI are registers 3, 5, 6, 7. -/
def State.sum16 (s : State) : Base16 → BitVec 16
  | .bxSi => s.getR16 3 + s.getR16 6
  | .bxDi => s.getR16 3 + s.getR16 7
  | .bpSi => s.getR16 5 + s.getR16 6
  | .bpDi => s.getR16 5 + s.getR16 7
  | .si => s.getR16 6
  | .di => s.getR16 7
  | .bp => s.getR16 5
  | .bx => s.getR16 3
  | .abs => 0

/-- The base term of 32-bit addressing (R113, R114). -/
def State.base32 (s : State) : Option GpReg → BitVec 32
  | some b => s.getR32 b
  | none => 0

/-- The index term of 32-bit addressing, `r32[index] * 2^scale` (R114). -/
def State.index32 (s : State) : Option SibIndex → BitVec 32
  | some i => s.getR32 i.reg * BitVec.ofNat 32 (2 ^ i.scale.toNat)
  | none => 0

/-- `EA`: the offset of a memory operand, reduced to its address size (R113 to R115, R117). -/
def State.effAddr (s : State) : MemOp → BitVec 32
  | .addr16 _ base disp => (s.sum16 base + disp).setWidth 32
  | .addr32 _ base index disp => s.base32 base + s.index32 index + disp

/-- A load of `n` bytes from a memory operand. -/
def State.loadOp (s : State) (m : MemOp) (n : Nat) : Except Fault (BitVec (8 * n)) :=
  s.load m.seg m.size (s.effAddr m) n

/-! ## Value accessors (R118) -/

/-- `Src64` of a memory-only operand (R201). -/
def State.mem64 (s : State) (m : MemOp) : Except Fault (BitVec 64) := s.loadOp m 8

/-- `Src64`. -/
def State.src64 (s : State) : RmOp → Except Fault (BitVec 64)
  | .reg r => .ok (s.getMm r)
  | .mem m => s.loadOp m 8

/-- `Src32`. -/
def State.src32 (s : State) : RmOp → Except Fault (BitVec 32)
  | .reg r => .ok (s.getR32 r)
  | .mem m => s.loadOp m 4

/-- `Src16`. -/
def State.src16 (s : State) : RmOp → Except Fault (BitVec 16)
  | .reg r => .ok (s.getR16 r)
  | .mem m => s.loadOp m 2

/-- `Dst64 <- v`. -/
def State.dst64 (s : State) (v : BitVec 64) : RmOp → Except Fault State
  | .reg r => .ok (s.setMm r v)
  | .mem m => s.store m.seg m.size (s.effAddr m) 8 v

/-- `Dst32 <- v`. -/
def State.dst32 (s : State) (v : BitVec 32) : RmOp → Except Fault State
  | .reg r => .ok (s.setR32 r v)
  | .mem m => s.store m.seg m.size (s.effAddr m) 4 v

/-! ## Templates of the MMX and Cyrix instructions -/

/-- `mm[dst] <- f(v); MmxDone` once the source value is known, or the fault of its read. -/
def State.writeMm (s : State) (dst : MmReg) (f : BitVec 64 → BitVec 64) : Except Fault (BitVec 64) → Except Fault State
  | .ok v => .ok (s.setMm dst (f v)).mmxDone
  | .error e => .error e

/-- A two-operand MMX instruction with lane function `f` (R119). -/
def mmxBinary (f : BitVec 64 → BitVec 64 → BitVec 64) (d : MmReg) (src : RmOp) (s : State) :
    Host.Outcome State Fault Refusal :=
  s.requireMmx (s.writeMm d (f (s.getMm d)) (s.src64 src))

/-- A shift by an immediate count (R282, second form). -/
def mmxShiftImm (f : BitVec 64 → Nat → BitVec 64) (d : MmReg) (count : BitVec 8) (s : State) :
    Host.Outcome State Fault Refusal :=
  s.requireMmx (.ok (s.setMm d (f (s.getMm d) count.toNat)).mmxDone)

/-- A Cyrix instruction that writes its first operand (R204, R207, R208). -/
def cyrixBinary (f : BitVec 64 → BitVec 64 → BitVec 64) (d : MmReg) (src : RmOp) (s : State) :
    Host.Outcome State Fault Refusal :=
  s.requireCyrix (s.writeMm d (f (s.getMm d)) (s.src64 src))

/-- A Cyrix instruction that writes the implied register (R203, R209, R214). -/
def cyrixImplied (f : BitVec 64 → BitVec 64 → BitVec 64) (d : MmReg) (src : RmOp) (s : State) :
    Host.Outcome State Fault Refusal :=
  s.requireCyrix (s.writeMm (implied d) (f (s.getMm d)) (s.src64 src))

/-- A Cyrix instruction that accumulates into the implied register: `f` of accumulator, first operand and memory
operand (R205, R206). -/
def cyrixAccumulate (f : BitVec 64 → BitVec 64 → BitVec 64 → BitVec 64) (d : MmReg) (src : MemOp) (s : State) :
    Host.Outcome State Fault Refusal :=
  s.requireCyrix (s.writeMm (implied d) (f (s.getMm (implied d)) (s.getMm d)) (s.mem64 src))

/-- A Cyrix conditional move: bytes of the memory operand where the implied register's byte satisfies `p`
(R210 to R213). -/
def cyrixSelect (p : BitVec 8 → Bool) (d : MmReg) (src : MemOp) (s : State) : Host.Outcome State Fault Refusal :=
  s.requireCyrix (s.writeMm d (selectB p (s.getMm (implied d)) (s.getMm d)) (s.mem64 src))

/-! ## The stack -/

/-- `S`, the stack address size of an instruction whose address-size attribute is `a` (R290). -/
def stackSize (c : Config) (a : Size) : Size :=
  match c.stackAddrSizeFrom with
  | .addressSizeAttribute => a
  | .stackSegment => c.stackSegSize

/-- The stack pointer, SP or ESP, as an offset (R290). -/
def State.sp (s : State) : Size → BitVec 32
  | .s16 => (s.getR16 4).setWidth 32
  | .s32 => s.getR32 4

/-- `(old - n) mod 2^S` (R291). -/
def lower (w : Size) (old : BitVec 32) (n : Nat) : BitVec 32 :=
  match w with
  | .s16 => ((old - BitVec.ofNat 32 n).extractLsb' 0 16).setWidth 32
  | .s32 => old - BitVec.ofNat 32 n

/-- Writes the stack pointer: with 16 bits, bits 31:16 of ESP stay (R291). -/
def State.setSp (s : State) (w : Size) (v : BitVec 32) : State :=
  match w with
  | .s16 => s.setR16 4 (v.extractLsb' 0 16)
  | .s32 => s.setR32 4 v

/-- `Push(n, v)` (R291): the store at the decremented stack pointer, then the stack pointer. -/
def State.push {wv : Nat} (s : State) (a : Size) (n : Nat) (v : BitVec wv) : Except Fault State :=
  let w := stackSize s.cfg a
  let new := lower w (s.sp w) n
  match s.store .ss w new n v with
  | .ok t => .ok (t.setSp w new)
  | .error e => .error e

/-- A push of a 16-bit value that may have faulted when it was read. -/
def State.pushSrc16 (s : State) (a : Size) : Except Fault (BitVec 16) → Except Fault State
  | .ok v => s.push a 2 v
  | .error e => .error e

/-- A push of a 32-bit value that may have faulted when it was read. -/
def State.pushSrc32 (s : State) (a : Size) : Except Fault (BitVec 32) → Except Fault State
  | .ok v => s.push a 4 v
  | .error e => .error e

/-- `PushSeg(X)` (R297): two bytes, or four of which the upper two are a free value (log entry 7). -/
def State.pushSeg (s : State) (x : SegReg) (o a : Size) : Except Fault State :=
  match o with
  | .s16 => s.push a 2 (s.getSreg x)
  | .s32 => { s with draws := s.draws + 1 }.push a 4 (Config.freeUpperWord s.draws ++ s.getSreg x)

/-- The admission of the eight stores of PUSHAx, each checked by itself in the order they are made (R310, R311,
R336): the first cause that stops one of them. -/
def State.admitAll (s : State) (w : Size) (t : BitVec 32) (n : Nat) : Option Fault :=
  (List.range 8).findSome? fun k => admission s.cfg .ss w (lower w t (n * (k + 1))) n .write

/-- The eight stores of PUSHAx: value `k` at `n * (k + 1)` below the old stack pointer (R310, R311). -/
def State.putAll {wv : Nat} (s : State) (w : Size) (t : BitVec 32) (n : Nat) (v : GpReg → BitVec wv) : Nat → State
  | 0 => s
  | k + 1 => (State.putAll s w t n v k).put .ss (lower w t (n * (k + 1))) n (v (BitVec.ofNat 3 k))

/-- PUSHAx with values of `n` bytes: all admissions, then the stores in the order of the register numbers, then the
stack pointer (R310, R311). The values are read before the instruction changes anything. -/
def State.pushAll {wv : Nat} (s : State) (a : Size) (n : Nat) (v : GpReg → BitVec wv) : Except Fault State :=
  let w := stackSize s.cfg a
  let t := s.sp w
  match s.admitAll w t n with
  | some e => .error e
  | none => .ok ((s.putAll w t n v 8).setSp w (lower w t (8 * n)))

end Sys2Proof.Machine
end

