-- ==== Sys2Proof/Machine/AddSub.lean ====
section
/-!
DEFINITION. The meanings of the packed additions and subtractions (42_add_sub.md R180 to R194).
-/

namespace Sys2Proof.Machine

/-- PADDB (R181). -/
def execPaddb (d : MmReg) (src : RmOp) (s : State) : Host.Outcome State Fault Refusal :=
  mmxBinary (mapB (· + ·)) d src s

/-- PADDW (R182). -/
def execPaddw (d : MmReg) (src : RmOp) (s : State) : Host.Outcome State Fault Refusal :=
  mmxBinary (mapW (· + ·)) d src s

/-- PADDD (R183). -/
def execPaddd (d : MmReg) (src : RmOp) (s : State) : Host.Outcome State Fault Refusal :=
  mmxBinary (mapD (· + ·)) d src s

/-- PADDSB (R184). -/
def execPaddsb (d : MmReg) (src : RmOp) (s : State) : Host.Outcome State Fault Refusal :=
  mmxBinary (mapB addSatS8) d src s

/-- PADDSW (R185). -/
def execPaddsw (d : MmReg) (src : RmOp) (s : State) : Host.Outcome State Fault Refusal :=
  mmxBinary (mapW addSatS16) d src s

/-- PADDUSB (R186). -/
def execPaddusb (d : MmReg) (src : RmOp) (s : State) : Host.Outcome State Fault Refusal :=
  mmxBinary (mapB addSatU8) d src s

/-- PADDUSW (R187). -/
def execPaddusw (d : MmReg) (src : RmOp) (s : State) : Host.Outcome State Fault Refusal :=
  mmxBinary (mapW addSatU16) d src s

/-- PSUBB (R188). -/
def execPsubb (d : MmReg) (src : RmOp) (s : State) : Host.Outcome State Fault Refusal :=
  mmxBinary (mapB (· - ·)) d src s

/-- PSUBW (R189). -/
def execPsubw (d : MmReg) (src : RmOp) (s : State) : Host.Outcome State Fault Refusal :=
  mmxBinary (mapW (· - ·)) d src s

/-- PSUBD (R190). -/
def execPsubd (d : MmReg) (src : RmOp) (s : State) : Host.Outcome State Fault Refusal :=
  mmxBinary (mapD (· - ·)) d src s

/-- PSUBSB (R191). -/
def execPsubsb (d : MmReg) (src : RmOp) (s : State) : Host.Outcome State Fault Refusal :=
  mmxBinary (mapB subSatS8) d src s

/-- PSUBSW (R192). -/
def execPsubsw (d : MmReg) (src : RmOp) (s : State) : Host.Outcome State Fault Refusal :=
  mmxBinary (mapW subSatS16) d src s

/-- PSUBUSB (R193). -/
def execPsubusb (d : MmReg) (src : RmOp) (s : State) : Host.Outcome State Fault Refusal :=
  mmxBinary (mapB subSatU8) d src s

/-- PSUBUSW (R194). -/
def execPsubusw (d : MmReg) (src : RmOp) (s : State) : Host.Outcome State Fault Refusal :=
  mmxBinary (mapW subSatU16) d src s

end Sys2Proof.Machine
end

