-- ==== Sys2Proof/Machine/Compare.lean ====
section
/-!
DEFINITION. The meanings of the packed comparisons (45_compare.md R240 to R246).
-/

namespace Sys2Proof.Machine

/-- PCMPEQB (R241). -/
def execPcmpeqb (d : MmReg) (src : RmOp) (s : State) : Host.Outcome State Fault Refusal :=
  mmxBinary (mapB cmpEq) d src s

/-- PCMPEQW (R242). -/
def execPcmpeqw (d : MmReg) (src : RmOp) (s : State) : Host.Outcome State Fault Refusal :=
  mmxBinary (mapW cmpEq) d src s

/-- PCMPEQD (R243). -/
def execPcmpeqd (d : MmReg) (src : RmOp) (s : State) : Host.Outcome State Fault Refusal :=
  mmxBinary (mapD cmpEq) d src s

/-- PCMPGTB (R244). -/
def execPcmpgtb (d : MmReg) (src : RmOp) (s : State) : Host.Outcome State Fault Refusal :=
  mmxBinary (mapB cmpGt) d src s

/-- PCMPGTW (R245). -/
def execPcmpgtw (d : MmReg) (src : RmOp) (s : State) : Host.Outcome State Fault Refusal :=
  mmxBinary (mapW cmpGt) d src s

/-- PCMPGTD (R246). -/
def execPcmpgtd (d : MmReg) (src : RmOp) (s : State) : Host.Outcome State Fault Refusal :=
  mmxBinary (mapD cmpGt) d src s

end Sys2Proof.Machine
end

