-- ==== Sys2Proof/Machine/Cyrix.lean ====
section
/-!
DEFINITION. The meanings of the Cyrix extension instructions (43_cyrix.md R200 to R214).
-/

namespace Sys2Proof.Machine

/-- PADDSIW (R203): PADDSW to the implied register. -/
def execPaddsiw (d : MmReg) (src : RmOp) (s : State) : Host.Outcome State Fault Refusal :=
  cyrixImplied (mapW addSatS16) d src s

/-- PAVEB (R204). -/
def execPaveb (d : MmReg) (src : RmOp) (s : State) : Host.Outcome State Fault Refusal :=
  cyrixBinary (mapB (average s.cfg.pavebRound)) d src s

/-- PDISTIB (R205). -/
def execPdistib (d : MmReg) (src : MemOp) (s : State) : Host.Outcome State Fault Refusal :=
  cyrixAccumulate
    (fun acc a b => ofLanesB fun i => accumulateDistance (laneB acc i) (laneB a i) (laneB b i)) d src s

/-- PMACHRIW (R206). -/
def execPmachriw (d : MmReg) (src : MemOp) (s : State) : Host.Outcome State Fault Refusal :=
  cyrixAccumulate
    (fun acc a b => ofLanesW fun i => laneW acc i + mulHighRound (laneW a i) (laneW b i)) d src s

/-- PMAGW (R207). -/
def execPmagw (d : MmReg) (src : RmOp) (s : State) : Host.Outcome State Fault Refusal :=
  cyrixBinary (mapW (largerMagnitude s.cfg.pmagwTie)) d src s

/-- PMULHRW (R208). -/
def execPmulhrw (d : MmReg) (src : RmOp) (s : State) : Host.Outcome State Fault Refusal :=
  cyrixBinary (mapW mulHighRound) d src s

/-- PMULHRIW (R209): PMULHRW to the implied register. -/
def execPmulhriw (d : MmReg) (src : RmOp) (s : State) : Host.Outcome State Fault Refusal :=
  cyrixImplied (mapW mulHighRound) d src s

/-- PMVZB (R210): where the condition byte is zero. -/
def execPmvzb (d : MmReg) (src : MemOp) (s : State) : Host.Outcome State Fault Refusal :=
  cyrixSelect (fun c => decide (c = 0)) d src s

/-- PMVNZB (R211): where the condition byte is not zero. -/
def execPmvnzb (d : MmReg) (src : MemOp) (s : State) : Host.Outcome State Fault Refusal :=
  cyrixSelect (fun c => decide (c ≠ 0)) d src s

/-- PMVLZB (R212): where the condition byte, read as signed, is less than zero. -/
def execPmvlzb (d : MmReg) (src : MemOp) (s : State) : Host.Outcome State Fault Refusal :=
  cyrixSelect (fun c => decide (c.toInt < 0)) d src s

/-- PMVGEZB (R213): where the condition byte, read as signed, is not less than zero. -/
def execPmvgezb (d : MmReg) (src : MemOp) (s : State) : Host.Outcome State Fault Refusal :=
  cyrixSelect (fun c => decide (0 ≤ c.toInt)) d src s

/-- PSUBSIW (R214): PSUBSW to the implied register. -/
def execPsubsiw (d : MmReg) (src : RmOp) (s : State) : Host.Outcome State Fault Refusal :=
  cyrixImplied (mapW subSatS16) d src s

end Sys2Proof.Machine
end

