-- ==== Sys2Proof/Machine/EmmsMov.lean ====
section
/-!
DEFINITION. The meanings of EMMS, MOVD and MOVQ (40_emms_mov.md R150 to R154).
-/

namespace Sys2Proof.Machine

/-- EMMS (R150): the tag word becomes all ones, in place of the `ftw <- 0000h` of the other MMX instructions. -/
def execEmms (s : State) : Host.Outcome State Fault Refusal :=
  s.requireMmx (.ok { s with ftw := 0xFFFF })

/-- MOVD mmxreg,r/m32 (R151): the doubleword, zero-extended. -/
def execMovdLoad (d : MmReg) (src : RmOp) (s : State) : Host.Outcome State Fault Refusal :=
  s.requireMmx (s.writeMm d id ((s.src32 src).map (·.setWidth 64)))

/-- MOVD r/m32,mmxreg (R152): the bottom 32 bits of the register. -/
def execMovdStore (dst : RmOp) (src : MmReg) (s : State) : Host.Outcome State Fault Refusal :=
  s.requireMmx ((s.dst32 ((s.getMm src).extractLsb' 0 32) dst).map State.mmxDone)

/-- MOVQ mmxreg,r/m64 (R153). -/
def execMovqLoad (d : MmReg) (src : RmOp) (s : State) : Host.Outcome State Fault Refusal :=
  s.requireMmx (s.writeMm d id (s.src64 src))

/-- MOVQ r/m64,mmxreg (R154). -/
def execMovqStore (dst : RmOp) (src : MmReg) (s : State) : Host.Outcome State Fault Refusal :=
  s.requireMmx ((s.dst64 (s.getMm src) dst).map State.mmxDone)

end Sys2Proof.Machine
end

