-- ==== Sys2Proof/Machine/Logical.lean ====
section
/-!
DEFINITION. The meanings of the bitwise logical instructions (44_logical.md R230 to R233).
-/

namespace Sys2Proof.Machine

/-- PAND (R230). -/
def execPand (d : MmReg) (src : RmOp) (s : State) : Host.Outcome State Fault Refusal :=
  mmxBinary (· &&& ·) d src s

/-- PANDN (R231): the destination is complemented. -/
def execPandn (d : MmReg) (src : RmOp) (s : State) : Host.Outcome State Fault Refusal :=
  mmxBinary (fun a b => ~~~a &&& b) d src s

/-- POR (R232). -/
def execPor (d : MmReg) (src : RmOp) (s : State) : Host.Outcome State Fault Refusal :=
  mmxBinary (· ||| ·) d src s

/-- PXOR (R233). -/
def execPxor (d : MmReg) (src : RmOp) (s : State) : Host.Outcome State Fault Refusal :=
  mmxBinary (· ^^^ ·) d src s

end Sys2Proof.Machine
end

