-- ==== Sys2Proof/Machine/Multiply.lean ====
section
/-!
DEFINITION. The meanings of the packed multiplications (46_multiply.md R250 to R252).
-/

namespace Sys2Proof.Machine

/-- PMADDWD (R250). -/
def execPmaddwd (d : MmReg) (src : RmOp) (s : State) : Host.Outcome State Fault Refusal :=
  mmxBinary mulAdd d src s

/-- PMULHW (R251). -/
def execPmulhw (d : MmReg) (src : RmOp) (s : State) : Host.Outcome State Fault Refusal :=
  mmxBinary (mapW mulHigh) d src s

/-- PMULLW (R252). -/
def execPmullw (d : MmReg) (src : RmOp) (s : State) : Host.Outcome State Fault Refusal :=
  mmxBinary (mapW mulLow) d src s

end Sys2Proof.Machine
end

