-- ==== Sys2Proof/Machine/PackUnpack.lean ====
section
/-!
DEFINITION. The meanings of the pack and unpack instructions (41_pack_unpack.md R160 to R170).
-/

namespace Sys2Proof.Machine

/-- PACKSSDW (R161). -/
def execPackssdw (d : MmReg) (src : RmOp) (s : State) : Host.Outcome State Fault Refusal :=
  mmxBinary (packDwords narrowS16) d src s

/-- PACKSSWB (R162). -/
def execPacksswb (d : MmReg) (src : RmOp) (s : State) : Host.Outcome State Fault Refusal :=
  mmxBinary (packWords narrowS8) d src s

/-- PACKUSWB (R163). -/
def execPackuswb (d : MmReg) (src : RmOp) (s : State) : Host.Outcome State Fault Refusal :=
  mmxBinary (packWords (narrowU8 s.cfg.packuswbInput)) d src s

/-- PUNPCKHBW (R165). -/
def execPunpckhbw (d : MmReg) (src : RmOp) (s : State) : Host.Outcome State Fault Refusal :=
  mmxBinary (unpackB 4) d src s

/-- PUNPCKHWD (R166). -/
def execPunpckhwd (d : MmReg) (src : RmOp) (s : State) : Host.Outcome State Fault Refusal :=
  mmxBinary (unpackW 2) d src s

/-- PUNPCKHDQ (R167). -/
def execPunpckhdq (d : MmReg) (src : RmOp) (s : State) : Host.Outcome State Fault Refusal :=
  mmxBinary (unpackD 1) d src s

/-- PUNPCKLBW (R168). -/
def execPunpcklbw (d : MmReg) (src : RmOp) (s : State) : Host.Outcome State Fault Refusal :=
  mmxBinary (unpackB 0) d src s

/-- PUNPCKLWD (R169). -/
def execPunpcklwd (d : MmReg) (src : RmOp) (s : State) : Host.Outcome State Fault Refusal :=
  mmxBinary (unpackW 0) d src s

/-- PUNPCKLDQ (R170). -/
def execPunpckldq (d : MmReg) (src : RmOp) (s : State) : Host.Outcome State Fault Refusal :=
  mmxBinary (unpackD 0) d src s

end Sys2Proof.Machine
end

