-- ==== Sys2Proof/Machine/Flags.lean ====
section
/-!
DEFINITION. The flags register (10_state.md R25). No instruction in scope computes, tests or writes a flag, so the
only flag computations of the spec are the two images PUSHFx pushes (48_push.md R315, R316, R318).
-/

namespace Sys2Proof.Machine

/-- What PUSHFW pushes: `flags[15:0]` (R315). -/
def State.flagsImage16 (s : State) : BitVec 16 := s.flags.extractLsb' 0 16

/-- What PUSHFD pushes: `flags[31:0]`, the bits as they are (R316, R318). -/
def State.flagsImage32 (s : State) : BitVec 32 := s.flags

end Sys2Proof.Machine
end

