-- ==== Sys2Proof/Machine/Push.lean ====
section
/-!
DEFINITION. The meanings of the stack pushes (48_push.md R290 to R318).
-/

namespace Sys2Proof.Machine

/-- PUSH reg16 (R292); the value is the register before the push (R296). -/
def execPushReg16 (a : Size) (r : GpReg) (s : State) : Host.Outcome State Fault Refusal :=
  outcome (s.push a 2 (s.getR16 r))

/-- PUSH reg32 (R293); the value is the register before the push (R296). -/
def execPushReg32 (a : Size) (r : GpReg) (s : State) : Host.Outcome State Fault Refusal :=
  outcome (s.push a 4 (s.getR32 r))

/-- PUSH r/m16 (R294): the operand is read before the stack is written. -/
def execPushRm16 (a : Size) (src : RmOp) (s : State) : Host.Outcome State Fault Refusal :=
  outcome (s.pushSrc16 a (s.src16 src))

/-- PUSH r/m32 (R295): the operand is read before the stack is written. -/
def execPushRm32 (a : Size) (src : RmOp) (s : State) : Host.Outcome State Fault Refusal :=
  outcome (s.pushSrc32 a (s.src32 src))

/-- PUSH CS (R298). -/
def execPushCs (o a : Size) (s : State) : Host.Outcome State Fault Refusal :=
  outcome (s.pushSeg .cs o a)

/-- PUSH DS (R299). -/
def execPushDs (o a : Size) (s : State) : Host.Outcome State Fault Refusal :=
  outcome (s.pushSeg .ds o a)

/-- PUSH ES (R300). -/
def execPushEs (o a : Size) (s : State) : Host.Outcome State Fault Refusal :=
  outcome (s.pushSeg .es o a)

/-- PUSH SS (R301). -/
def execPushSs (o a : Size) (s : State) : Host.Outcome State Fault Refusal :=
  outcome (s.pushSeg .ss o a)

/-- PUSH FS (R302). -/
def execPushFs (o a : Size) (s : State) : Host.Outcome State Fault Refusal :=
  outcome (s.pushSeg .fs o a)

/-- PUSH GS (R303). -/
def execPushGs (o a : Size) (s : State) : Host.Outcome State Fault Refusal :=
  outcome (s.pushSeg .gs o a)

/-- PUSH imm8 (R304): the byte sign-extended to the operand size. -/
def execPushImm8 (o a : Size) (imm : BitVec 8) (s : State) : Host.Outcome State Fault Refusal :=
  outcome (s.push a o.bytes (imm.signExtend o.bits))

/-- PUSH imm16 (R305). -/
def execPushImm16 (a : Size) (imm : BitVec 16) (s : State) : Host.Outcome State Fault Refusal :=
  outcome (s.push a 2 imm)

/-- PUSH imm32 (R306). -/
def execPushImm32 (a : Size) (imm : BitVec 32) (s : State) : Host.Outcome State Fault Refusal :=
  outcome (s.push a 4 imm)

/-- PUSHAW (R310). -/
def execPushaw (a : Size) (s : State) : Host.Outcome State Fault Refusal :=
  outcome (s.pushAll a 2 s.getR16)

/-- PUSHAD (R311). -/
def execPushad (a : Size) (s : State) : Host.Outcome State Fault Refusal :=
  outcome (s.pushAll a 4 s.getR32)

/-- PUSHA (R312): PUSHAW or PUSHAD by the mode, `O = MODE` for the unprefixed byte (R135). -/
def execPusha (a : Size) (s : State) : Host.Outcome State Fault Refusal :=
  match s.cfg.mode with
  | .s16 => outcome (s.pushAll a 2 s.getR16)
  | .s32 => outcome (s.pushAll a 4 s.getR32)

/-- PUSHFW (R315). -/
def execPushfw (a : Size) (s : State) : Host.Outcome State Fault Refusal :=
  outcome (s.push a 2 s.flagsImage16)

/-- PUSHFD (R316). -/
def execPushfd (a : Size) (s : State) : Host.Outcome State Fault Refusal :=
  outcome (s.push a 4 s.flagsImage32)

/-- PUSHF (R317): PUSHFW or PUSHFD by the mode, `O = MODE` for the unprefixed byte (R135). -/
def execPushf (a : Size) (s : State) : Host.Outcome State Fault Refusal :=
  match s.cfg.mode with
  | .s16 => outcome (s.push a 2 s.flagsImage16)
  | .s32 => outcome (s.push a 4 s.flagsImage32)

end Sys2Proof.Machine
end

