-- ==== Sys2Proof/Machine/Shift.lean ====
section
/-!
DEFINITION. The meanings of the packed and quadword shifts (47_shift.md R260 to R282).
-/

namespace Sys2Proof.Machine

/-- PSLLW mmxreg,r/m64 (R264): the count is the whole source (R263). -/
def execPsllw (d : MmReg) (src : RmOp) (s : State) : Host.Outcome State Fault Refusal :=
  mmxBinary (fun a c => shiftW shiftLeft a c.toNat) d src s

/-- PSLLW mmxreg,imm8 (R265). -/
def execPsllwImm (d : MmReg) (count : BitVec 8) (s : State) : Host.Outcome State Fault Refusal :=
  mmxShiftImm (shiftW shiftLeft) d count s

/-- PSLLD mmxreg,r/m64 (R266): the count is the whole source (R263). -/
def execPslld (d : MmReg) (src : RmOp) (s : State) : Host.Outcome State Fault Refusal :=
  mmxBinary (fun a c => shiftD shiftLeft a c.toNat) d src s

/-- PSLLD mmxreg,imm8 (R267). -/
def execPslldImm (d : MmReg) (count : BitVec 8) (s : State) : Host.Outcome State Fault Refusal :=
  mmxShiftImm (shiftD shiftLeft) d count s

/-- PSLLQ mmxreg,r/m64 (R268): the count is the whole source (R263). -/
def execPsllq (d : MmReg) (src : RmOp) (s : State) : Host.Outcome State Fault Refusal :=
  mmxBinary (fun a c => shiftLeft a c.toNat) d src s

/-- PSLLQ mmxreg,imm8 (R269). -/
def execPsllqImm (d : MmReg) (count : BitVec 8) (s : State) : Host.Outcome State Fault Refusal :=
  mmxShiftImm shiftLeft d count s

/-- PSRAW mmxreg,r/m64 (R270): the count is the whole source (R263). -/
def execPsraw (d : MmReg) (src : RmOp) (s : State) : Host.Outcome State Fault Refusal :=
  mmxBinary (fun a c => shiftW shiftRightArith a c.toNat) d src s

/-- PSRAW mmxreg,imm8 (R271). -/
def execPsrawImm (d : MmReg) (count : BitVec 8) (s : State) : Host.Outcome State Fault Refusal :=
  mmxShiftImm (shiftW shiftRightArith) d count s

/-- PSRAD mmxreg,r/m64 (R272): the count is the whole source (R263). -/
def execPsrad (d : MmReg) (src : RmOp) (s : State) : Host.Outcome State Fault Refusal :=
  mmxBinary (fun a c => shiftD shiftRightArith a c.toNat) d src s

/-- PSRAD mmxreg,imm8 (R273). -/
def execPsradImm (d : MmReg) (count : BitVec 8) (s : State) : Host.Outcome State Fault Refusal :=
  mmxShiftImm (shiftD shiftRightArith) d count s

/-- PSRLW mmxreg,r/m64 (R274): the count is the whole source (R263). -/
def execPsrlw (d : MmReg) (src : RmOp) (s : State) : Host.Outcome State Fault Refusal :=
  mmxBinary (fun a c => shiftW shiftRight a c.toNat) d src s

/-- PSRLW mmxreg,imm8 (R275). -/
def execPsrlwImm (d : MmReg) (count : BitVec 8) (s : State) : Host.Outcome State Fault Refusal :=
  mmxShiftImm (shiftW shiftRight) d count s

/-- PSRLD mmxreg,r/m64 (R276): the count is the whole source (R263). -/
def execPsrld (d : MmReg) (src : RmOp) (s : State) : Host.Outcome State Fault Refusal :=
  mmxBinary (fun a c => shiftD shiftRight a c.toNat) d src s

/-- PSRLD mmxreg,imm8 (R277). -/
def execPsrldImm (d : MmReg) (count : BitVec 8) (s : State) : Host.Outcome State Fault Refusal :=
  mmxShiftImm (shiftD shiftRight) d count s

/-- PSRLQ mmxreg,r/m64 (R278): the count is the whole source (R263). -/
def execPsrlq (d : MmReg) (src : RmOp) (s : State) : Host.Outcome State Fault Refusal :=
  mmxBinary (fun a c => shiftRight a c.toNat) d src s

/-- PSRLQ mmxreg,imm8 (R279). -/
def execPsrlqImm (d : MmReg) (count : BitVec 8) (s : State) : Host.Outcome State Fault Refusal :=
  mmxShiftImm shiftRight d count s

end Sys2Proof.Machine
end

