-- ==== Sys2Proof/Machine/Dispatch.lean ====
section
/-!
DEFINITION. One arm per instruction, in the order of spec/opcode_table.json, each one call of its meaning.
-/

namespace Sys2Proof.Machine
open Host

def exec (i : Instr) (s : State) : Host.Outcome State Fault Refusal :=
  match i with
  | .paveb d src => Sys2Proof.Machine.execPaveb d src s
  | .paddsiw d src => Sys2Proof.Machine.execPaddsiw d src s
  | .pmagw d src => Sys2Proof.Machine.execPmagw d src s
  | .pdistib d src => Sys2Proof.Machine.execPdistib d src s
  | .psubsiw d src => Sys2Proof.Machine.execPsubsiw d src s
  | .pmvzb d src => Sys2Proof.Machine.execPmvzb d src s
  | .pmulhrw d src => Sys2Proof.Machine.execPmulhrw d src s
  | .pmvnzb d src => Sys2Proof.Machine.execPmvnzb d src s
  | .pmvlzb d src => Sys2Proof.Machine.execPmvlzb d src s
  | .pmvgezb d src => Sys2Proof.Machine.execPmvgezb d src s
  | .pmulhriw d src => Sys2Proof.Machine.execPmulhriw d src s
  | .pmachriw d src => Sys2Proof.Machine.execPmachriw d src s
  | .punpcklbw d src => Sys2Proof.Machine.execPunpcklbw d src s
  | .punpcklwd d src => Sys2Proof.Machine.execPunpcklwd d src s
  | .punpckldq d src => Sys2Proof.Machine.execPunpckldq d src s
  | .packsswb d src => Sys2Proof.Machine.execPacksswb d src s
  | .pcmpgtb d src => Sys2Proof.Machine.execPcmpgtb d src s
  | .pcmpgtw d src => Sys2Proof.Machine.execPcmpgtw d src s
  | .pcmpgtd d src => Sys2Proof.Machine.execPcmpgtd d src s
  | .packuswb d src => Sys2Proof.Machine.execPackuswb d src s
  | .punpckhbw d src => Sys2Proof.Machine.execPunpckhbw d src s
  | .punpckhwd d src => Sys2Proof.Machine.execPunpckhwd d src s
  | .punpckhdq d src => Sys2Proof.Machine.execPunpckhdq d src s
  | .packssdw d src => Sys2Proof.Machine.execPackssdw d src s
  | .movdLoad d src => Sys2Proof.Machine.execMovdLoad d src s
  | .movqLoad d src => Sys2Proof.Machine.execMovqLoad d src s
  | .psrlwImm d count => Sys2Proof.Machine.execPsrlwImm d count s
  | .psrawImm d count => Sys2Proof.Machine.execPsrawImm d count s
  | .psllwImm d count => Sys2Proof.Machine.execPsllwImm d count s
  | .psrldImm d count => Sys2Proof.Machine.execPsrldImm d count s
  | .psradImm d count => Sys2Proof.Machine.execPsradImm d count s
  | .pslldImm d count => Sys2Proof.Machine.execPslldImm d count s
  | .psrlqImm d count => Sys2Proof.Machine.execPsrlqImm d count s
  | .psllqImm d count => Sys2Proof.Machine.execPsllqImm d count s
  | .pcmpeqb d src => Sys2Proof.Machine.execPcmpeqb d src s
  | .pcmpeqw d src => Sys2Proof.Machine.execPcmpeqw d src s
  | .pcmpeqd d src => Sys2Proof.Machine.execPcmpeqd d src s
  | .emms => Sys2Proof.Machine.execEmms s
  | .movdStore dst src => Sys2Proof.Machine.execMovdStore dst src s
  | .movqStore dst src => Sys2Proof.Machine.execMovqStore dst src s
  | .pushFs o a => Sys2Proof.Machine.execPushFs o a s
  | .pushGs o a => Sys2Proof.Machine.execPushGs o a s
  | .psrlw d src => Sys2Proof.Machine.execPsrlw d src s
  | .psrld d src => Sys2Proof.Machine.execPsrld d src s
  | .psrlq d src => Sys2Proof.Machine.execPsrlq d src s
  | .pmullw d src => Sys2Proof.Machine.execPmullw d src s
  | .psubusb d src => Sys2Proof.Machine.execPsubusb d src s
  | .psubusw d src => Sys2Proof.Machine.execPsubusw d src s
  | .pand d src => Sys2Proof.Machine.execPand d src s
  | .paddusb d src => Sys2Proof.Machine.execPaddusb d src s
  | .paddusw d src => Sys2Proof.Machine.execPaddusw d src s
  | .pandn d src => Sys2Proof.Machine.execPandn d src s
  | .psraw d src => Sys2Proof.Machine.execPsraw d src s
  | .psrad d src => Sys2Proof.Machine.execPsrad d src s
  | .pmulhw d src => Sys2Proof.Machine.execPmulhw d src s
  | .psubsb d src => Sys2Proof.Machine.execPsubsb d src s
  | .psubsw d src => Sys2Proof.Machine.execPsubsw d src s
  | .por d src => Sys2Proof.Machine.execPor d src s
  | .paddsb d src => Sys2Proof.Machine.execPaddsb d src s
  | .paddsw d src => Sys2Proof.Machine.execPaddsw d src s
  | .pxor d src => Sys2Proof.Machine.execPxor d src s
  | .psllw d src => Sys2Proof.Machine.execPsllw d src s
  | .pslld d src => Sys2Proof.Machine.execPslld d src s
  | .psllq d src => Sys2Proof.Machine.execPsllq d src s
  | .pmaddwd d src => Sys2Proof.Machine.execPmaddwd d src s
  | .psubb d src => Sys2Proof.Machine.execPsubb d src s
  | .psubw d src => Sys2Proof.Machine.execPsubw d src s
  | .psubd d src => Sys2Proof.Machine.execPsubd d src s
  | .paddb d src => Sys2Proof.Machine.execPaddb d src s
  | .paddw d src => Sys2Proof.Machine.execPaddw d src s
  | .paddd d src => Sys2Proof.Machine.execPaddd d src s
  | .pushEs o a => Sys2Proof.Machine.execPushEs o a s
  | .pushCs o a => Sys2Proof.Machine.execPushCs o a s
  | .pushSs o a => Sys2Proof.Machine.execPushSs o a s
  | .pushDs o a => Sys2Proof.Machine.execPushDs o a s
  | .pushReg16 a r => Sys2Proof.Machine.execPushReg16 a r s
  | .pushReg32 a r => Sys2Proof.Machine.execPushReg32 a r s
  | .pushaw a => Sys2Proof.Machine.execPushaw a s
  | .pushad a => Sys2Proof.Machine.execPushad a s
  | .pusha a => Sys2Proof.Machine.execPusha a s
  | .pushImm16 a imm => Sys2Proof.Machine.execPushImm16 a imm s
  | .pushImm32 a imm => Sys2Proof.Machine.execPushImm32 a imm s
  | .pushImm8 o a imm => Sys2Proof.Machine.execPushImm8 o a imm s
  | .pushfw a => Sys2Proof.Machine.execPushfw a s
  | .pushfd a => Sys2Proof.Machine.execPushfd a s
  | .pushf a => Sys2Proof.Machine.execPushf a s
  | .pushRm16 a src => Sys2Proof.Machine.execPushRm16 a src s
  | .pushRm32 a src => Sys2Proof.Machine.execPushRm32 a src s

end Sys2Proof.Machine
end

