-- ==== Sys2Proof/Decode.lean ====
section
/-!
DEFINITION. From bytes to an instruction (30_encoding.md R100 to R131) and back. `decode` is total on every list of
bytes: it answers an instruction with its length, or rejects by name; `truncated` says that the decision needs a byte
beyond the list (the fetch of Machine/Fetch.lean turns that into the fetch fault of that byte, R336). `encode` writes
one byte sequence for a well-formed instruction from the same tables.
-/

namespace Sys2Proof

/-- Why a byte sequence is no instruction. -/
inductive Reject where
  /-- An excluded form of a described opcode: `Fault(InvalidOpcode)` (R129, R130). -/
  | invalidOpcode
  /-- Bytes that no row of the opcode map describes: `Refused(NotInScope)` (R131). -/
  | notInScope
  /-- A prefix the decoder does not accept: `Refused(PrefixNotInScope)` (R103). -/
  | prefixNotInScope
  /-- The decision needs a byte beyond those given. -/
  | truncated
  deriving DecidableEq, Repr

/-- The decoder's answer: an instruction and how many bytes it has, prefixes included (R127), or a rejection. -/
inductive Decoded where
  | instr (i : Instr) (len : Nat)
  | rejected (r : Reject)
  deriving DecidableEq, Repr

/-! ## Byte order (R65): the first byte is the least significant -/

/-- Two bytes, in memory order. -/
def bytes16 (v : BitVec 16) : List Byte :=
  [v.extractLsb' 0 8, v.extractLsb' 8 8]

/-- Four bytes, in memory order. -/
def bytes32 (v : BitVec 32) : List Byte :=
  [v.extractLsb' 0 8, v.extractLsb' 8 8, v.extractLsb' 16 8, v.extractLsb' 24 8]

/-- The next byte. -/
def take8 : List Byte → Except Reject (Byte × List Byte)
  | b :: bs => .ok (b, bs)
  | [] => .error .truncated

/-- The next two bytes as a 16-bit value. -/
def take16 : List Byte → Except Reject (BitVec 16 × List Byte)
  | b0 :: b1 :: bs => .ok (b1 ++ b0, bs)
  | _ => .error .truncated

/-- The next four bytes as a 32-bit value. -/
def take32 : List Byte → Except Reject (BitVec 32 × List Byte)
  | b0 :: b1 :: b2 :: b3 :: bs => .ok (b3 ++ b2 ++ b1 ++ b0, bs)
  | _ => .error .truncated

/-! ## Prefixes -/

/-- What a prefix byte is (R102). -/
inductive PrefixKind where
  | opsize
  | addrsize
  | segment (x : SegReg)
  /-- LOCK, REPNE, REP. -/
  | unaccepted
  deriving DecidableEq, Repr

/-- The prefix bytes (R102). -/
def prefixTable : List (Byte × PrefixKind) :=
  [(0x66, .opsize), (0x67, .addrsize),
   (0x26, .segment .es), (0x2E, .segment .cs), (0x36, .segment .ss),
   (0x3E, .segment .ds), (0x64, .segment .fs), (0x65, .segment .gs),
   (0xF0, .unaccepted), (0xF2, .unaccepted), (0xF3, .unaccepted)]

/-- The prefix a byte is, if it is one. -/
def prefixKind (b : Byte) : Option PrefixKind :=
  prefixTable.lookup b

/-- The prefixes read so far; `refused` says that R103 does not accept them together. -/
structure Prefixes where
  opsize : Bool
  addrsize : Bool
  seg : Option SegReg
  refused : Bool
  deriving DecidableEq, Repr

/-- No prefix read yet. -/
def Prefixes.empty : Prefixes :=
  { opsize := false, addrsize := false, seg := none, refused := false }

/-- One more prefix: a byte read twice, a second segment override and the bytes F0, F2, F3 are not accepted (R103). -/
def Prefixes.add (p : Prefixes) : PrefixKind → Prefixes
  | .opsize => { p with opsize := true, refused := p.refused || p.opsize }
  | .addrsize => { p with addrsize := true, refused := p.refused || p.addrsize }
  | .segment x => { p with seg := some x, refused := p.refused || p.seg.isSome }
  | .unaccepted => { p with refused := true }

/-- Reads bytes while they are prefixes (R103); the first other byte stays in the list. -/
def scanPrefixes (p : Prefixes) : List Byte → Except Reject (Prefixes × List Byte)
  | [] => .error .truncated
  | b :: bs =>
    match prefixKind b with
    | some k => scanPrefixes (p.add k) bs
    | none => .ok (p, b :: bs)

/-- The size an attribute has: `MODE`, or the other one when its prefix was read (R104, R105). -/
def sizeAttr (mode : Size) (overridden : Bool) : Size :=
  if overridden then mode.other else mode

/-! ## ModRM, SIB and memory operands -/

/-- `mod = byte[7:6]` (R107); also `scale` of a SIB byte (R114). -/
def modField (b : Byte) : BitVec 2 := b.extractLsb' 6 2

/-- `reg = byte[5:3]` (R107); also `index` of a SIB byte (R114). -/
def regField (b : Byte) : BitVec 3 := b.extractLsb' 3 3

/-- `rm = byte[2:0]` (R107); also `base` of a SIB byte (R114). -/
def rmField (b : Byte) : BitVec 3 := b.extractLsb' 0 3

/-- A ModRM byte from its fields; a SIB byte has the same layout. -/
def modrmByte (mod : BitVec 2) (reg rm : BitVec 3) : Byte := mod ++ reg ++ rm

/-- The register sum of 16-bit addressing (R115). -/
def base16OfRm (mod : BitVec 2) (rm : BitVec 3) : Base16 :=
  if rm = 0 then .bxSi
  else if rm = 1 then .bxDi
  else if rm = 2 then .bpSi
  else if rm = 3 then .bpDi
  else if rm = 4 then .si
  else if rm = 5 then .di
  else if rm = 6 then (if mod = 0 then .abs else .bp)
  else .bx

/-- The default segment of 16-bit addressing (R115): SS where BP is in the sum. -/
def Base16.defaultSeg : Base16 → SegReg
  | .bpSi | .bpDi | .bp => .ss
  | .bxSi | .bxDi | .si | .di | .bx | .abs => .ds

/-- The default segment of 32-bit addressing (R113, R114): SS where the base register is ESP or EBP. -/
def defaultSeg32 : Option GpReg → SegReg
  | some b => if b = 4 ∨ b = 5 then .ss else .ds
  | none => .ds

/-- The displacement of 16-bit addressing (R115). -/
def takeDisp16 (mod : BitVec 2) (base : Base16) (bs : List Byte) : Except Reject (BitVec 16 × List Byte) :=
  if base = .abs ∨ mod = 2 then take16 bs
  else if mod = 1 then
    match take8 bs with
    | .ok (d, r) => .ok (d.signExtend 16, r)
    | .error e => .error e
  else .ok (0, bs)

/-- The displacement of 32-bit addressing (R113, R114): four bytes where there is no base register. -/
def takeDisp32 (mod : BitVec 2) (base : Option GpReg) (bs : List Byte) : Except Reject (BitVec 32 × List Byte) :=
  if base = none ∨ mod = 2 then take32 bs
  else if mod = 1 then
    match take8 bs with
    | .ok (d, r) => .ok (d.signExtend 32, r)
    | .error e => .error e
  else .ok (0, bs)

/-- A memory operand with 16-bit addressing (R115, R116). -/
def decodeMem16 (ovr : Option SegReg) (mod : BitVec 2) (rm : BitVec 3) (bs : List Byte) :
    Except Reject (MemOp × List Byte) :=
  let base := base16OfRm mod rm
  match takeDisp16 mod base bs with
  | .ok (disp, r) => .ok (.addr16 (ovr.getD base.defaultSeg) base disp, r)
  | .error e => .error e

/-- The base register a ModRM byte without a SIB byte names: none for the absolute form (R113). -/
def baseOfRm (mod : BitVec 2) (rm : BitVec 3) : Option GpReg :=
  if rm = 5 ∧ mod = 0 then none else some rm

/-- The index term of a SIB byte: none for `index = 4` (R114). -/
def indexOfSib (sib : Byte) : Option SibIndex :=
  if regField sib = 4 then none else some { reg := regField sib, scale := modField sib }

/-- A memory operand with 32-bit addressing from its base and index: the displacement follows (R113, R114, R116). -/
def finishMem32 (ovr : Option SegReg) (mod : BitVec 2) (base : Option GpReg) (index : Option SibIndex)
    (bs : List Byte) : Except Reject (MemOp × List Byte) :=
  match takeDisp32 mod base bs with
  | .ok (disp, r) => .ok (.addr32 (ovr.getD (defaultSeg32 base)) base index disp, r)
  | .error e => .error e

/-- A memory operand with 32-bit addressing: `rm = 4` calls for a SIB byte (R113, R114). -/
def decodeMem32 (ovr : Option SegReg) (mod : BitVec 2) (rm : BitVec 3) (bs : List Byte) :
    Except Reject (MemOp × List Byte) :=
  if rm = 4 then
    match take8 bs with
    | .ok (sib, r) => finishMem32 ovr mod (baseOfRm mod (rmField sib)) (indexOfSib sib) r
    | .error e => .error e
  else finishMem32 ovr mod (baseOfRm mod rm) none bs

/-- A memory operand by the address size (R105). -/
def decodeMem (a : Size) (ovr : Option SegReg) (mod : BitVec 2) (rm : BitVec 3) (bs : List Byte) :
    Except Reject (MemOp × List Byte) :=
  match a with
  | .s16 => decodeMem16 ovr mod rm bs
  | .s32 => decodeMem32 ovr mod rm bs

/-- The `r/m` operand of a ModRM byte that has been read, its tail still in the list (R109, R112). -/
def decodeRm (a : Size) (ovr : Option SegReg) (modrm : Byte) (bs : List Byte) :
    Except Reject (RmOp × List Byte) :=
  if modField modrm = 3 then .ok (.reg (rmField modrm), bs)
  else
    match decodeMem a ovr (modField modrm) (rmField modrm) bs with
    | .ok (m, r) => .ok (.mem m, r)
    | .error e => .error e

/-! ## The opcode map -/

/-- What follows a two-byte MMX or Cyrix opcode, and which instruction it then is. -/
inductive TwoByteRow where
  /-- Nothing: EMMS. -/
  | emms
  /-- `/r` with an `r/m` operand. -/
  | regRm (f : BitVec 3 → RmOp → Instr)
  /-- `/r` with a memory operand only (R129). -/
  | regMem (f : BitVec 3 → MemOp → Instr)
  /-- `/digit ib`, the register in the `rm` field (R130). -/
  | shiftGroup (f : BitVec 3 → Option (MmReg → BitVec 8 → Instr))

/-- The digits of `0F 71` (R128). -/
def shiftGroupW (digit : BitVec 3) : Option (MmReg → BitVec 8 → Instr) :=
  if digit = 2 then some .psrlwImm else if digit = 4 then some .psrawImm
  else if digit = 6 then some .psllwImm else none

/-- The digits of `0F 72` (R128). -/
def shiftGroupD (digit : BitVec 3) : Option (MmReg → BitVec 8 → Instr) :=
  if digit = 2 then some .psrldImm else if digit = 4 then some .psradImm
  else if digit = 6 then some .pslldImm else none

/-- The digits of `0F 73` (R128); there is no PSRAQ (47_shift.md R280). -/
def shiftGroupQ (digit : BitVec 3) : Option (MmReg → BitVec 8 → Instr) :=
  if digit = 2 then some .psrlqImm else if digit = 6 then some .psllqImm else none

/-- The MMX and Cyrix rows of the two-byte map, by the second opcode byte (R128). -/
def mmxTable : List (Byte × TwoByteRow) :=
  [(0x50, .regRm .paveb),
   (0x51, .regRm .paddsiw),
   (0x52, .regRm .pmagw),
   (0x54, .regMem .pdistib),
   (0x55, .regRm .psubsiw),
   (0x58, .regMem .pmvzb),
   (0x59, .regRm .pmulhrw),
   (0x5A, .regMem .pmvnzb),
   (0x5B, .regMem .pmvlzb),
   (0x5C, .regMem .pmvgezb),
   (0x5D, .regRm .pmulhriw),
   (0x5E, .regMem .pmachriw),
   (0x60, .regRm .punpcklbw),
   (0x61, .regRm .punpcklwd),
   (0x62, .regRm .punpckldq),
   (0x63, .regRm .packsswb),
   (0x64, .regRm .pcmpgtb),
   (0x65, .regRm .pcmpgtw),
   (0x66, .regRm .pcmpgtd),
   (0x67, .regRm .packuswb),
   (0x68, .regRm .punpckhbw),
   (0x69, .regRm .punpckhwd),
   (0x6A, .regRm .punpckhdq),
   (0x6B, .regRm .packssdw),
   (0x6E, .regRm .movdLoad),
   (0x6F, .regRm .movqLoad),
   (0x71, .shiftGroup shiftGroupW),
   (0x72, .shiftGroup shiftGroupD),
   (0x73, .shiftGroup shiftGroupQ),
   (0x74, .regRm .pcmpeqb),
   (0x75, .regRm .pcmpeqw),
   (0x76, .regRm .pcmpeqd),
   (0x77, .emms),
   (0x7E, .regRm fun r m => .movdStore m r),
   (0x7F, .regRm fun r m => .movqStore m r),
   (0xD1, .regRm .psrlw),
   (0xD2, .regRm .psrld),
   (0xD3, .regRm .psrlq),
   (0xD5, .regRm .pmullw),
   (0xD8, .regRm .psubusb),
   (0xD9, .regRm .psubusw),
   (0xDB, .regRm .pand),
   (0xDC, .regRm .paddusb),
   (0xDD, .regRm .paddusw),
   (0xDF, .regRm .pandn),
   (0xE1, .regRm .psraw),
   (0xE2, .regRm .psrad),
   (0xE5, .regRm .pmulhw),
   (0xE8, .regRm .psubsb),
   (0xE9, .regRm .psubsw),
   (0xEB, .regRm .por),
   (0xEC, .regRm .paddsb),
   (0xED, .regRm .paddsw),
   (0xEF, .regRm .pxor),
   (0xF1, .regRm .psllw),
   (0xF2, .regRm .pslld),
   (0xF3, .regRm .psllq),
   (0xF5, .regRm .pmaddwd),
   (0xF8, .regRm .psubb),
   (0xF9, .regRm .psubw),
   (0xFA, .regRm .psubd),
   (0xFC, .regRm .paddb),
   (0xFD, .regRm .paddw),
   (0xFE, .regRm .paddd)]

/-- The MMX or Cyrix row of a second opcode byte. -/
def mmxRow (op : Byte) : Option TwoByteRow :=
  mmxTable.lookup op

/-- The rest of an MMX or Cyrix instruction after its opcode bytes (R121 steps 3 to 6). -/
def decodeMmxRow (a : Size) (ovr : Option SegReg) (row : TwoByteRow) (bs : List Byte) :
    Except Reject (Instr × List Byte) :=
  match row with
  | .emms => .ok (.emms, bs)
  | .regRm f =>
    match take8 bs with
    | .ok (modrm, r) =>
      match decodeRm a ovr modrm r with
      | .ok (rm, r') => .ok (f (regField modrm) rm, r')
      | .error e => .error e
    | .error e => .error e
  | .regMem f =>
    match take8 bs with
    | .ok (modrm, r) =>
      if modField modrm = 3 then .error .invalidOpcode
      else
        match decodeMem a ovr (modField modrm) (rmField modrm) r with
        | .ok (m, r') => .ok (f (regField modrm) m, r')
        | .error e => .error e
    | .error e => .error e
  | .shiftGroup f =>
    match take8 bs with
    | .ok (modrm, r) =>
      if modField modrm = 3 then
        match f (regField modrm) with
        | some g =>
          match take8 r with
          | .ok (ib, r') => .ok (g (rmField modrm) ib, r')
          | .error e => .error e
        | none => .error .invalidOpcode
      else .error .invalidOpcode
    | .error e => .error e

/-- After `0F` (R106): PUSH FS, PUSH GS, or an MMX or Cyrix row, on which the prefix 66 is not accepted (R103,
log entry 10). -/
def decodeTwoByte (p : Prefixes) (o a : Size) : List Byte → Except Reject (Instr × List Byte)
  | [] => .error .truncated
  | op :: bs =>
    if op = 0xA0 then .ok (.pushFs o a, bs)
    else if op = 0xA8 then .ok (.pushGs o a, bs)
    else
      match mmxRow op with
      | some row => if p.opsize then .error .prefixNotInScope else decodeMmxRow a p.seg row bs
      | none => .error .notInScope

/-- `68`: the operand size decides the immediate's length (R120). -/
def decodePushImm (o a : Size) (bs : List Byte) : Except Reject (Instr × List Byte) :=
  match o with
  | .s16 =>
    match take16 bs with
    | .ok (v, r) => .ok (.pushImm16 a v, r)
    | .error e => .error e
  | .s32 =>
    match take32 bs with
    | .ok (v, r) => .ok (.pushImm32 a v, r)
    | .error e => .error e

/-- `6A ib` (R120). -/
def decodePushImm8 (o a : Size) (bs : List Byte) : Except Reject (Instr × List Byte) :=
  match take8 bs with
  | .ok (v, r) => .ok (.pushImm8 o a v, r)
  | .error e => .error e

/-- `FF`: only `/6` is in scope (R128, R131). -/
def decodeGroupFF (o a : Size) (ovr : Option SegReg) (bs : List Byte) : Except Reject (Instr × List Byte) :=
  match take8 bs with
  | .ok (modrm, r) =>
    if regField modrm = 6 then
      match decodeRm a ovr modrm r with
      | .ok (rm, r') =>
        match o with
        | .s16 => .ok (.pushRm16 a rm, r')
        | .s32 => .ok (.pushRm32 a rm, r')
      | .error e => .error e
    else .error .notInScope
  | .error e => .error e

/-- The one-byte map and the escape to the two-byte map (R106, R128). -/
def decodeOpcode (p : Prefixes) (o a : Size) (op : Byte) (bs : List Byte) : Except Reject (Instr × List Byte) :=
  if op = 0x0F then decodeTwoByte p o a bs
  else if op = 0x06 then .ok (.pushEs o a, bs)
  else if op = 0x0E then .ok (.pushCs o a, bs)
  else if op = 0x16 then .ok (.pushSs o a, bs)
  else if op = 0x1E then .ok (.pushDs o a, bs)
  else if op.extractLsb' 3 5 = 0b01010 then
    match o with
    | .s16 => .ok (.pushReg16 a (rmField op), bs)
    | .s32 => .ok (.pushReg32 a (rmField op), bs)
  else if op = 0x60 then
    match o with
    | .s16 => .ok (.pushaw a, bs)
    | .s32 => .ok (.pushad a, bs)
  else if op = 0x68 then decodePushImm o a bs
  else if op = 0x6A then decodePushImm8 o a bs
  else if op = 0x9C then
    match o with
    | .s16 => .ok (.pushfw a, bs)
    | .s32 => .ok (.pushfd a, bs)
  else if op = 0xFF then decodeGroupFF o a p.seg bs
  else .error .notInScope

/-- The instruction at the head of a list and the bytes after it (R121 steps 1 to 6). -/
def decodeParts (mode : Size) (bs : List Byte) : Except Reject (Instr × List Byte) :=
  match scanPrefixes Prefixes.empty bs with
  | .error e => .error e
  | .ok (p, r) =>
    if p.refused then .error .prefixNotInScope
    else
      match r with
      | [] => .error .truncated
      | op :: r' => decodeOpcode p (sizeAttr mode p.opsize) (sizeAttr mode p.addrsize) op r'

/-- The decoder: the instruction and its length (R127), or a rejection by name. -/
def decode (mode : Size) (bs : List Byte) : Decoded :=
  match decodeParts mode bs with
  | .ok (i, r) => .instr i (bs.length - r.length)
  | .error e => .rejected e

/-! ## The encoder -/

/-- The override byte of a segment (R102). -/
def segByte : SegReg → Byte
  | .es => 0x26
  | .cs => 0x2E
  | .ss => 0x36
  | .ds => 0x3E
  | .fs => 0x64
  | .gs => 0x65

/-- The default segment of a memory operand (R113 to R115). -/
def MemOp.defaultSeg : MemOp → SegReg
  | .addr16 _ base _ => base.defaultSeg
  | .addr32 _ base _ _ => defaultSeg32 base

/-- The segment override an operand needs: none where its segment is the default (R116). -/
def segPrefix : RmOp → List Byte
  | .reg _ => []
  | .mem m => if m.seg = m.defaultSeg then [] else [segByte m.seg]

/-- The address-size override needed for an address size (R105). -/
def addrPrefix (mode a : Size) : List Byte :=
  if a = mode then [] else [0x67]

/-- The operand-size override needed for an operand size (R104). -/
def opPrefix (mode o : Size) : List Byte :=
  if o = mode then [] else [0x66]

/-- The size overrides of a PUSH-family instruction. -/
def basePrefixes (mode o a : Size) : List Byte :=
  opPrefix mode o ++ addrPrefix mode a

/-- The address-size override an MMX operand needs. -/
def rmAddrPrefix (mode : Size) : RmOp → List Byte
  | .reg _ => []
  | .mem m => addrPrefix mode m.size

/-- The `rm` field of a 16-bit register sum (R115). -/
def rmOfBase16 : Base16 → BitVec 3
  | .bxSi => 0
  | .bxDi => 1
  | .bpSi => 2
  | .bpDi => 3
  | .si => 4
  | .di => 5
  | .bp => 6
  | .abs => 6
  | .bx => 7

/-- The `index` and `scale` fields of an index term; index 4 for none (R114). -/
def sibFields : Option SibIndex → BitVec 2 × BitVec 3
  | some i => (i.scale, i.reg)
  | none => (0, 4)

/-- The `mod` and `rm` fields of a memory operand and the bytes after the ModRM byte. Of the redundant spellings
(R133) it takes the one with the longest displacement, and a SIB byte only where one is needed. -/
def encodeMem : MemOp → BitVec 2 × BitVec 3 × List Byte
  | .addr16 _ base disp => (if base = .abs then 0 else 2, rmOfBase16 base, bytes16 disp)
  | .addr32 _ none none disp => (0, 5, bytes32 disp)
  | .addr32 _ none (some i) disp => (0, 4, modrmByte i.scale i.reg 5 :: bytes32 disp)
  | .addr32 _ (some b) index disp =>
    if index = none ∧ b ≠ 4 then (2, b, bytes32 disp)
    else (2, 4, modrmByte (sibFields index).1 (sibFields index).2 b :: bytes32 disp)

/-- The ModRM byte and its tail for an `r/m` operand, with the given `reg` field (R107 to R109). -/
def encodeRm (reg : BitVec 3) : RmOp → List Byte
  | .reg r => [modrmByte 3 reg r]
  | .mem m => modrmByte (encodeMem m).1 reg (encodeMem m).2.1 :: (encodeMem m).2.2

/-- A two-operand MMX or Cyrix instruction: prefixes, `0F op`, ModRM and tail. -/
def encodeMmxRm (mode : Size) (op : Byte) (reg : BitVec 3) (rm : RmOp) : List Byte :=
  rmAddrPrefix mode rm ++ segPrefix rm ++ 0x0F :: op :: encodeRm reg rm

/-- The bytes of a well-formed instruction in code of the given mode. -/
def encode (mode : Size) : Instr → List Byte
  | .paveb d src => encodeMmxRm mode 0x50 d src
  | .paddsiw d src => encodeMmxRm mode 0x51 d src
  | .pmagw d src => encodeMmxRm mode 0x52 d src
  | .pdistib d src => encodeMmxRm mode 0x54 d (.mem src)
  | .psubsiw d src => encodeMmxRm mode 0x55 d src
  | .pmvzb d src => encodeMmxRm mode 0x58 d (.mem src)
  | .pmulhrw d src => encodeMmxRm mode 0x59 d src
  | .pmvnzb d src => encodeMmxRm mode 0x5A d (.mem src)
  | .pmvlzb d src => encodeMmxRm mode 0x5B d (.mem src)
  | .pmvgezb d src => encodeMmxRm mode 0x5C d (.mem src)
  | .pmulhriw d src => encodeMmxRm mode 0x5D d src
  | .pmachriw d src => encodeMmxRm mode 0x5E d (.mem src)
  | .punpcklbw d src => encodeMmxRm mode 0x60 d src
  | .punpcklwd d src => encodeMmxRm mode 0x61 d src
  | .punpckldq d src => encodeMmxRm mode 0x62 d src
  | .packsswb d src => encodeMmxRm mode 0x63 d src
  | .pcmpgtb d src => encodeMmxRm mode 0x64 d src
  | .pcmpgtw d src => encodeMmxRm mode 0x65 d src
  | .pcmpgtd d src => encodeMmxRm mode 0x66 d src
  | .packuswb d src => encodeMmxRm mode 0x67 d src
  | .punpckhbw d src => encodeMmxRm mode 0x68 d src
  | .punpckhwd d src => encodeMmxRm mode 0x69 d src
  | .punpckhdq d src => encodeMmxRm mode 0x6A d src
  | .packssdw d src => encodeMmxRm mode 0x6B d src
  | .movdLoad d src => encodeMmxRm mode 0x6E d src
  | .movqLoad d src => encodeMmxRm mode 0x6F d src
  | .psrlwImm d n => [0x0F, 0x71, modrmByte 3 2 d, n]
  | .psrawImm d n => [0x0F, 0x71, modrmByte 3 4 d, n]
  | .psllwImm d n => [0x0F, 0x71, modrmByte 3 6 d, n]
  | .psrldImm d n => [0x0F, 0x72, modrmByte 3 2 d, n]
  | .psradImm d n => [0x0F, 0x72, modrmByte 3 4 d, n]
  | .pslldImm d n => [0x0F, 0x72, modrmByte 3 6 d, n]
  | .psrlqImm d n => [0x0F, 0x73, modrmByte 3 2 d, n]
  | .psllqImm d n => [0x0F, 0x73, modrmByte 3 6 d, n]
  | .pcmpeqb d src => encodeMmxRm mode 0x74 d src
  | .pcmpeqw d src => encodeMmxRm mode 0x75 d src
  | .pcmpeqd d src => encodeMmxRm mode 0x76 d src
  | .emms => [0x0F, 0x77]
  | .movdStore dst src => encodeMmxRm mode 0x7E src dst
  | .movqStore dst src => encodeMmxRm mode 0x7F src dst
  | .pushFs o a => basePrefixes mode o a ++ [0x0F, 0xA0]
  | .pushGs o a => basePrefixes mode o a ++ [0x0F, 0xA8]
  | .psrlw d src => encodeMmxRm mode 0xD1 d src
  | .psrld d src => encodeMmxRm mode 0xD2 d src
  | .psrlq d src => encodeMmxRm mode 0xD3 d src
  | .pmullw d src => encodeMmxRm mode 0xD5 d src
  | .psubusb d src => encodeMmxRm mode 0xD8 d src
  | .psubusw d src => encodeMmxRm mode 0xD9 d src
  | .pand d src => encodeMmxRm mode 0xDB d src
  | .paddusb d src => encodeMmxRm mode 0xDC d src
  | .paddusw d src => encodeMmxRm mode 0xDD d src
  | .pandn d src => encodeMmxRm mode 0xDF d src
  | .psraw d src => encodeMmxRm mode 0xE1 d src
  | .psrad d src => encodeMmxRm mode 0xE2 d src
  | .pmulhw d src => encodeMmxRm mode 0xE5 d src
  | .psubsb d src => encodeMmxRm mode 0xE8 d src
  | .psubsw d src => encodeMmxRm mode 0xE9 d src
  | .por d src => encodeMmxRm mode 0xEB d src
  | .paddsb d src => encodeMmxRm mode 0xEC d src
  | .paddsw d src => encodeMmxRm mode 0xED d src
  | .pxor d src => encodeMmxRm mode 0xEF d src
  | .psllw d src => encodeMmxRm mode 0xF1 d src
  | .pslld d src => encodeMmxRm mode 0xF2 d src
  | .psllq d src => encodeMmxRm mode 0xF3 d src
  | .pmaddwd d src => encodeMmxRm mode 0xF5 d src
  | .psubb d src => encodeMmxRm mode 0xF8 d src
  | .psubw d src => encodeMmxRm mode 0xF9 d src
  | .psubd d src => encodeMmxRm mode 0xFA d src
  | .paddb d src => encodeMmxRm mode 0xFC d src
  | .paddw d src => encodeMmxRm mode 0xFD d src
  | .paddd d src => encodeMmxRm mode 0xFE d src
  | .pushEs o a => basePrefixes mode o a ++ [0x06]
  | .pushCs o a => basePrefixes mode o a ++ [0x0E]
  | .pushSs o a => basePrefixes mode o a ++ [0x16]
  | .pushDs o a => basePrefixes mode o a ++ [0x1E]
  | .pushReg16 a r => basePrefixes mode .s16 a ++ [0b01010#5 ++ r]
  | .pushReg32 a r => basePrefixes mode .s32 a ++ [0b01010#5 ++ r]
  | .pushaw a => basePrefixes mode .s16 a ++ [0x60]
  | .pushad a => basePrefixes mode .s32 a ++ [0x60]
  | .pusha a => basePrefixes mode mode a ++ [0x60]
  | .pushImm16 a imm => basePrefixes mode .s16 a ++ 0x68 :: bytes16 imm
  | .pushImm32 a imm => basePrefixes mode .s32 a ++ 0x68 :: bytes32 imm
  | .pushImm8 o a imm => basePrefixes mode o a ++ [0x6A, imm]
  | .pushfw a => basePrefixes mode .s16 a ++ [0x9C]
  | .pushfd a => basePrefixes mode .s32 a ++ [0x9C]
  | .pushf a => basePrefixes mode mode a ++ [0x9C]
  | .pushRm16 a src => basePrefixes mode .s16 a ++ segPrefix src ++ 0xFF :: encodeRm 6 src
  | .pushRm32 a src => basePrefixes mode .s32 a ++ segPrefix src ++ 0xFF :: encodeRm 6 src

/-- What the decoder reads from an instruction's bytes: the sized instruction for the second names PUSHA and PUSHF
(R312, R317), the instruction itself otherwise. -/
def Instr.sized (mode : Size) : Instr → Instr
  | .pusha a => match mode with
    | .s16 => .pushaw a
    | .s32 => .pushad a
  | .pushf a => match mode with
    | .s16 => .pushfw a
    | .s32 => .pushfd a
  | i => i

/-! ## One word of the opcode table -/

/-- The longest instruction in scope has ten bytes (R127). -/
def maxLen : Nat := 10

/-- The bytes of an instruction whose low `nbits` bits are those of `w`, the first byte the least significant, all
bits above them 0, out to the longest instruction. -/
def tableBytes (nbits w : Nat) : List Byte :=
  (List.range (max maxLen ((nbits + 7) / 8))).map fun k => BitVec.ofNat 8 ((w % 2 ^ nbits) >>> (8 * k))

/-- The instruction the decoder reads from the bits of an opcode-table row, in the mode of the reset state
(log entry 12). -/
def decodeTableWord (nbits w : Nat) : Option Instr :=
  match decode Config.reset.mode (tableBytes nbits w) with
  | .instr i _ => some i
  | .rejected _ => none

end Sys2Proof
end

