-- ==== Sys2Proof/Machine/Fetch.lean ====
section
/-!
DEFINITION. Fetching an instruction's bytes and decoding them (30_encoding.md R100, R121; 60_exceptions.md R336), and
placing one instruction where the machine fetches.
-/

namespace Sys2Proof.Machine

/-- Why byte `k` of the instruction at `pc` cannot be fetched, where it cannot: past the top of the code offset space it
is `FetchWrap`, else the platform's refusal at `Lin(CS, pc + k)` (R31, R62, R100). -/
def State.fetchFault (s : State) (k : Nat) : Fault :=
  if s.pc.toNat + k < 2 ^ s.cfg.mode.bits then .memoryFault (lin s.cfg .cs (s.pc + BitVec.ofNat 32 k)) 1 .fetch
  else .fetchWrap

/-- Byte `k` of the instruction at `pc`: at `Lin(CS, pc + k)`, by an access of kind fetch (R31, R100). -/
def State.fetchByte (s : State) (k : Nat) : Except Fault Byte :=
  let a := lin s.cfg .cs (s.pc + BitVec.ofNat 32 k)
  if s.pc.toNat + k < 2 ^ s.cfg.mode.bits ∧ accessible s.cfg a 1 .fetch = true then .ok (s.mem.read a.toNat)
  else .error (s.fetchFault k)

/-- Up to `n` instruction bytes from byte `k` on, ending before the first that cannot be fetched. -/
def State.fetchFrom (s : State) (k : Nat) : Nat → List Byte
  | 0 => []
  | n + 1 =>
    match s.fetchByte k with
    | .ok b => b :: s.fetchFrom (k + 1) n
    | .error _ => []

/-- How many of the next `n` bytes from byte `k` on can be fetched and are prefixes, up to the first that is not:
R103 reads bytes while they are prefixes. -/
def State.prefixRun (s : State) (k : Nat) : Nat → Nat
  | 0 => 0
  | n + 1 =>
    match s.fetchByte k with
    | .ok b =>
      match prefixKind b with
      | some _ => s.prefixRun (k + 1) n + 1
      | none => 0
    | .error _ => 0

/-- How many bytes are left in the code offset space from `pc` on (R100). -/
def State.bytesToTop (s : State) : Nat := 2 ^ s.cfg.mode.bits - s.pc.toNat

/-- The most bytes an instruction has after its prefixes: `0F op`, ModRM, SIB, disp32 (R101, R127). -/
def maxRest : Nat := 8

/-- The bytes the decoder is given: every prefix that stands at `pc`, however many there are (R103), and as many bytes
after them as any instruction has, as far as they can be fetched (log entry 9). -/
def State.fetched (s : State) : List Byte :=
  s.fetchFrom 0 (s.prefixRun 0 s.bytesToTop + maxRest)

/-- What stands at `pc`. -/
inductive Fetched where
  | instr (i : Instr) (len : Nat)
  | fault (e : Fault)
  | refused (r : Refusal)
  deriving DecidableEq, Repr

/-- The outcome of a rejection by the decoder of bytes of which `n` could be fetched. A decision that needs the next
byte ends in the fault of that byte's fetch (R336). -/
def State.rejected (s : State) (n : Nat) : Reject → Fetched
  | .invalidOpcode => .fault .invalidOpcode
  | .notInScope => .refused .notInScope
  | .prefixNotInScope => .refused .prefixNotInScope
  | .truncated => .fault (s.fetchFault n)

/-- Fetch and decode the instruction at `pc` (R100, R121). -/
def State.fetchDecode (s : State) : Fetched :=
  match decode s.cfg.mode s.fetched with
  | .instr i len => .instr i len
  | .rejected r => s.rejected s.fetched.length r

/-- The memory with a list of bytes stored from `pc` on, each at `Lin(CS, pc + k)`. -/
def placeCode (c : Config) (pc : BitVec 32) (m : Memory) : List Byte → Memory
  | [] => m
  | b :: bs => placeCode c (pc + 1) (m.write (lin c .cs pc).toNat b) bs

/-- A state whose program range does not end at `pc`: the range is dropped where it does (log entry 14). -/
def State.notAtEnd (s : State) : State :=
  if s.atEnd then { s with cfg := { s.cfg with program := none } } else s

end Sys2Proof.Machine
end

