-- ==== Sys2Proof/Machine/Step.lean ====
section
/-!
DEFINITION. One step (60_exceptions.md R330): nothing at `END_PC`; else fetch, decode, execute, and move `pc` past the
instruction (10_state.md R31).
-/

namespace Sys2Proof.Machine

/-- The `pc` of a completed instruction's next state (R31); a fault or a refusal stays as it is. -/
def advance (len : Nat) : Host.Outcome State Fault Refusal → Host.Outcome State Fault Refusal
  | .next t => .next (t.advancePc len)
  | .fault e => .fault e
  | .refused r => .refused r

/-- One step. At `END_PC` the run has ended and its final state stays (R372, log entry 6). -/
def step (s : State) : Host.Outcome State Fault Refusal :=
  if s.atEnd then .next s
  else
    match s.fetchDecode with
    | .instr i len => advance len (exec i s)
    | .fault e => .fault e
    | .refused r => .refused r

/-- `s` with one instruction's bytes stored where `step` fetches next (log entry 14). -/
def State.withFetchWord (s : State) (nbits w : Nat) : State :=
  { s.notAtEnd with mem := placeCode s.cfg s.pc s.mem (tableBytes nbits w) }

end Sys2Proof.Machine
end

