-- ==== Sys2Proof/Safety.lean ====
section
/-!
DEFINITION. The words in which claims about the machine are made: the invariant of every state of a run, what an
instruction leaves unchanged, the shape of the rules of each family, the bytes that stand at `pc`, and safe runs.
-/

namespace Sys2Proof

/-! ## The three instruction sets -/

/-- The sets of 00_scope.md R3. -/
inductive InstrSet where
  /-- `[PENT,MMX]`. -/
  | mmx
  /-- `[CYRIX,MMX]`. -/
  | cyrix
  /-- The PUSH family. -/
  | base
  deriving DecidableEq, Repr

/-- The set an instruction belongs to (R3, the column "set" of R128). -/
def Instr.set : Instr → InstrSet
  | .paveb .. | .paddsiw .. | .pmagw .. | .pdistib .. | .psubsiw .. | .pmvzb .. | .pmulhrw .. | .pmvnzb ..
  | .pmvlzb .. | .pmvgezb .. | .pmulhriw .. | .pmachriw .. => .cyrix
  | .punpcklbw .. | .punpcklwd .. | .punpckldq .. | .packsswb .. | .pcmpgtb .. | .pcmpgtw .. | .pcmpgtd ..
  | .packuswb .. | .punpckhbw .. | .punpckhwd .. | .punpckhdq .. | .packssdw .. | .movdLoad .. | .movqLoad ..
  | .psrlwImm .. | .psrawImm .. | .psllwImm .. | .psrldImm .. | .psradImm .. | .pslldImm .. | .psrlqImm ..
  | .psllqImm .. | .pcmpeqb .. | .pcmpeqw .. | .pcmpeqd .. | .emms | .movdStore .. | .movqStore .. | .psrlw ..
  | .psrld .. | .psrlq .. | .pmullw .. | .psubusb .. | .psubusw .. | .pand .. | .paddusb .. | .paddusw ..
  | .pandn .. | .psraw .. | .psrad .. | .pmulhw .. | .psubsb .. | .psubsw .. | .por .. | .paddsb .. | .paddsw ..
  | .pxor .. | .psllw .. | .pslld .. | .psllq .. | .pmaddwd .. | .psubb .. | .psubw .. | .psubd .. | .paddb ..
  | .paddw .. | .paddd .. => .mmx
  | .pushFs .. | .pushGs .. | .pushEs .. | .pushCs .. | .pushSs .. | .pushDs .. | .pushReg16 .. | .pushReg32 ..
  | .pushaw .. | .pushad .. | .pusha .. | .pushImm16 .. | .pushImm32 .. | .pushImm8 .. | .pushfw .. | .pushfd ..
  | .pushf .. | .pushRm16 .. | .pushRm32 .. => .base

end Sys2Proof

namespace Sys2Proof.Machine

/-! ## The invariant -/

/-- What every state of a run has: memory in canonical form (with addresses below 2^32, R32), and `pc` inside the code
offset space (R30). -/
structure State.Inv (s : State) : Prop where
  mem_wf : s.mem.wf = true
  pc_lt : s.pc.toNat < 2 ^ s.cfg.mode.bits

/-! ## Frames -/

/-- The linear addresses of the `n` bytes at offset `off` of segment `x`. -/
def covers (c : Config) (x : SegReg) (off : BitVec 32) (n : Nat) (a : Nat) : Prop :=
  ∃ k < n, a = (lin c x off + BitVec.ofNat 32 k).toNat

/-- The `n` bytes at offset `off` of segment `x` hold the bytes of `v`, the least significant first (R64, R65). -/
def State.holds {w : Nat} (s : State) (x : SegReg) (off : BitVec 32) (n : Nat) (v : BitVec w) : Prop :=
  ∀ k < n, s.mem.read (lin s.cfg x off + BitVec.ofNat 32 k).toNat = byteOf v k

/-- Everything an instruction leaves as it was, in the state `exec` gives: every MMX register but `mm`, every general
register but `r`, every byte of memory outside `stored`, the segment registers, the flags, the parameters, and `pc`,
which only the step moves (R31). -/
structure State.Frame (s t : State) (mm : Option MmReg) (r : Option GpReg) (stored : Nat → Prop) : Prop where
  mm_eq : ∀ k, mm ≠ some k → t.getMm k = s.getMm k
  r32_eq : ∀ k, r ≠ some k → t.getR32 k = s.getR32 k
  sreg_eq : ∀ x, t.getSreg x = s.getSreg x
  flags_eq : t.flags = s.flags
  pc_eq : t.pc = s.pc
  mem_eq : ∀ a, ¬ stored a → t.mem.read a = s.mem.read a
  cfg_eq : t.cfg = s.cfg

/-- The tag word after an MMX or Cyrix instruction other than EMMS (R27). -/
def State.ftwAfterMmx (s : State) : BitVec 16 := if s.cfg.mmxSetsFtw then 0 else s.ftw

/-- The frame of an MMX or Cyrix instruction other than EMMS: the tag word as R27 says. -/
def State.MmxFrame (s t : State) (mm : Option MmReg) (r : Option GpReg) (stored : Nat → Prop) : Prop :=
  s.Frame t mm r stored ∧ t.ftw = s.ftwAfterMmx ∧ t.draws = s.draws

/-- No byte of memory. -/
def nowhere : Nat → Prop := fun _ => False

/-! ## Rules of the MMX and Cyrix families -/

/-- `exec i s` completes, `P` holds of `mm[d]` in the next state, and nothing else changes but the tag word. -/
def CompletesInMm (i : Instr) (s : State) (d : MmReg) (P : BitVec 64 → Prop) : Prop :=
  ∃ t, exec i s = .next t ∧ P (t.getMm d) ∧ s.MmxFrame t (some d) none nowhere

/-- The rule of a two-operand MMX instruction (R119): `P cfg d v r` relates the two inputs and the result. -/
def MmxRule (mk : MmReg → RmOp → Instr) (P : Config → BitVec 64 → BitVec 64 → BitVec 64 → Prop) : Prop :=
  ∀ (s : State) (d : MmReg) (src : RmOp),
    (s.cfg.hasMmx = false → exec (mk d src) s = .fault .invalidOpcode) ∧
    (s.cfg.hasMmx = true → ∀ e, s.src64 src = .error e → exec (mk d src) s = .fault e) ∧
    (s.cfg.hasMmx = true → ∀ v, s.src64 src = .ok v → CompletesInMm (mk d src) s d (P s.cfg (s.getMm d) v))

/-- The rule of a shift by an immediate count (R282, second form): `P d count r`. -/
def ShiftImmRule (mk : MmReg → BitVec 8 → Instr) (P : BitVec 64 → Nat → BitVec 64 → Prop) : Prop :=
  ∀ (s : State) (d : MmReg) (count : BitVec 8),
    (s.cfg.hasMmx = false → exec (mk d count) s = .fault .invalidOpcode) ∧
    (s.cfg.hasMmx = true → CompletesInMm (mk d count) s d (P (s.getMm d) count.toNat))

/-- `RequireCyrix` holds (R119). -/
def Config.cyrixOn (c : Config) : Prop := c.hasMmx = true ∧ c.hasCyrix = true

/-- The rule of a Cyrix instruction (R119, 43_cyrix.md): `value` reads its second operand, `dst` is the register
written, and `P cfg a d v r` relates the implied register, the first operand, the second operand and the result. -/
def CyrixRule {α : Type} (value : State → α → Except Fault (BitVec 64)) (dst : MmReg → MmReg)
    (mk : MmReg → α → Instr) (P : Config → BitVec 64 → BitVec 64 → BitVec 64 → BitVec 64 → Prop) : Prop :=
  ∀ (s : State) (d : MmReg) (src : α),
    (¬ Config.cyrixOn s.cfg → exec (mk d src) s = .fault .invalidOpcode) ∧
    (Config.cyrixOn s.cfg → ∀ e, value s src = .error e → exec (mk d src) s = .fault e) ∧
    (Config.cyrixOn s.cfg → ∀ v, value s src = .ok v →
      CompletesInMm (mk d src) s (dst d) (P s.cfg (s.getMm (d ^^^ 1)) (s.getMm d) v))

/-- `P` of every byte lane of four values. -/
def EachB (P : BitVec 8 → BitVec 8 → BitVec 8 → BitVec 8 → Prop) (a d v r : BitVec 64) : Prop :=
  ∀ i < 8, P (laneB a i) (laneB d i) (laneB v i) (laneB r i)

/-- `P` of every word lane of four values. -/
def EachW (P : BitVec 16 → BitVec 16 → BitVec 16 → BitVec 16 → Prop) (a d v r : BitVec 64) : Prop :=
  ∀ i < 4, P (laneW a i) (laneW d i) (laneW v i) (laneW r i)

/-- `P` of every byte lane of two inputs and the result. -/
def LanesB (P : BitVec 8 → BitVec 8 → BitVec 8 → Prop) (_ : Config) (d v r : BitVec 64) : Prop :=
  ∀ i < 8, P (laneB d i) (laneB v i) (laneB r i)

/-- `P` of every word lane of two inputs and the result. -/
def LanesW (P : BitVec 16 → BitVec 16 → BitVec 16 → Prop) (_ : Config) (d v r : BitVec 64) : Prop :=
  ∀ i < 4, P (laneW d i) (laneW v i) (laneW r i)

/-- `P` of both doubleword lanes of two inputs and the result. -/
def LanesD (P : BitVec 32 → BitVec 32 → BitVec 32 → Prop) (_ : Config) (d v r : BitVec 64) : Prop :=
  ∀ i < 2, P (laneD d i) (laneD v i) (laneD r i)

/-! ## Rules of the PUSH family -/

/-- The stack slot of a push of `n` bytes: the decremented stack pointer, as an offset in SS (R291). -/
def State.slot (s : State) (a : Size) (n : Nat) : BitVec 32 :=
  lower (stackSize s.cfg a) (s.sp (stackSize s.cfg a)) n

/-- ESP after the stack pointer of width `w` has been lowered by `n`: with 16 bits, bits 31:16 stay (R291). -/
def loweredEsp (w : Size) (esp : BitVec 32) (n : Nat) : BitVec 32 :=
  match w with
  | .s16 => esp.extractLsb' 16 16 ++ (esp.extractLsb' 0 16 - BitVec.ofNat 16 n)
  | .s32 => esp - BitVec.ofNat 32 n

/-- `exec i s` completes and has pushed the `n` bytes of `v` (R291): the slot holds them, ESP is lowered, nothing else
changes. -/
def CompletesPush {w : Nat} (i : Instr) (s : State) (a : Size) (n : Nat) (v : BitVec w) (drawn : Nat) : Prop :=
  ∃ t, exec i s = .next t ∧ t.holds .ss (s.slot a n) n v ∧
    t.getR32 4 = loweredEsp (stackSize s.cfg a) (s.getR32 4) n ∧
    s.Frame t none (some 4) (covers s.cfg .ss (s.slot a n) n) ∧ t.ftw = s.ftw ∧ t.draws = s.draws + drawn

/-- The rule of an instruction that pushes `n` bytes of a value known beforehand (R291). -/
def PushRule {w : Nat} (i : Instr) (s : State) (a : Size) (n : Nat) (v : BitVec w) (drawn : Nat) : Prop :=
  (∀ e, admission s.cfg .ss (stackSize s.cfg a) (s.slot a n) n .write = some e → exec i s = .fault e) ∧
  (admission s.cfg .ss (stackSize s.cfg a) (s.slot a n) n .write = none → CompletesPush i s a n v drawn)

/-- The rule of PUSHAx with registers of `n` bytes (R310, R311): slot `k` is `n * (k + 1)` below the old stack
pointer, the eight stores are admitted in order before the first of them is made. -/
def PushAllRule {w : Nat} (i : Instr) (s : State) (a : Size) (n : Nat) (v : GpReg → BitVec w) : Prop :=
  (∀ (k : Fin 8) (e : Fault),
    (∀ j < k, admission s.cfg .ss (stackSize s.cfg a) (s.slot a (n * (j.val + 1))) n .write = none) →
    admission s.cfg .ss (stackSize s.cfg a) (s.slot a (n * (k.val + 1))) n .write = some e → exec i s = .fault e) ∧
  ((∀ k : Fin 8, admission s.cfg .ss (stackSize s.cfg a) (s.slot a (n * (k.val + 1))) n .write = none) →
    ∃ t, exec i s = .next t ∧
      (∀ k : Fin 8, t.holds .ss (s.slot a (n * (k.val + 1))) n (v (BitVec.ofFin k))) ∧
      t.getR32 4 = loweredEsp (stackSize s.cfg a) (s.getR32 4) (8 * n) ∧
      s.Frame t none (some 4) (fun x => ∃ k : Fin 8, covers s.cfg .ss (s.slot a (n * (k.val + 1))) n x) ∧
      t.ftw = s.ftw ∧ t.draws = s.draws)

/-! ## Code at `pc` -/

/-- The bytes from `pc` on are `bs`, and each can be fetched (R100). -/
def State.codeIs (s : State) (bs : List Byte) : Prop :=
  ∀ (k : Nat) (b : Byte), bs[k]? = some b → s.fetchByte k = .ok b

/-! ## Safe runs -/

/-- `n` steps, stopping at the first fault or refusal (R330, R372). -/
def run : Nat → State → Host.Outcome State Fault Refusal
  | 0, s => .next s
  | n + 1, s =>
    match step s with
    | .next t => run n t
    | .fault e => .fault e
    | .refused r => .refused r

/-- The run from `s` reaches `END_PC` within `n` steps, without a fault or a refusal, in state `t` (R330, R372). -/
def ReachesEnd (s : State) (n : Nat) (t : State) : Prop :=
  run n s = .next t ∧ t.atEnd = true

/-- The tag word leaves every x87 register available to code that follows (R380). -/
def State.fpuClean (s : State) : Prop := s.ftw = 0xFFFF

end Sys2Proof.Machine
end

