-- ==== Sys2Proof/Certificates/Slice0/Obligations.lean ====
section
/-!
DEFINITION. The statements for the provers. Rules of the families are stated in the shapes of Safety.lean (`MmxRule`,
`ShiftImmRule`, `CyrixRule`, `PushRule`, `PushAllRule`), each of which says when the instruction completes, what it
writes, what it leaves, and with which fault it stops otherwise. In brackets at the end of a docstring stand the spec's
own decisions (D, 92_eei_decisions.md) and general-knowledge passages (G, 93_implementation_defined.md) that the
statement rests on (log entry 11).
-/

open Sys2Proof Sys2Proof.Machine

/-! ## Encoding -/

/-- R101 to R128: every well-formed instruction, in either mode and whatever bytes follow, decodes from its encoding
to itself with its own length; PUSHA and PUSHF decode to the sized instruction they name (R312, R317). [D9, G1 to G8]
-/
def Obligations.DecodeOfEncode : Prop :=
  ∀ (mode : Size) (i : Instr) (rest : List Byte), i.wellFormed = true →
    decode mode (encode mode i ++ rest) = .instr (i.sized mode) (encode mode i).length

/-- Words of the opcode map (R128) read as the instructions they stand for, with the ModRM, SIB and displacement forms
of R113 to R115 and the examples of R292, R295, R304 to R306. [G1 to G8] -/
def Obligations.WordsFromTheOpcodeMap : Prop :=
  decode .s32 [0x0F, 0x77] = .instr .emms 2 ∧
  decode .s32 [0x0F, 0xFC, 0xC1] = .instr (.paddb 0 (.reg 1)) 3 ∧
  decode .s32 [0x0F, 0xFC, 0x44, 0x8B, 0x10] =
    .instr (.paddb 0 (.mem (.addr32 .ds (some 3) (some { reg := 1, scale := 2 }) 0x10))) 5 ∧
  decode .s32 [0x0F, 0xFC, 0x45, 0xF8] = .instr (.paddb 0 (.mem (.addr32 .ss (some 5) none 0xFFFFFFF8))) 4 ∧
  decode .s16 [0x0F, 0xFC, 0x42, 0xFE] = .instr (.paddb 0 (.mem (.addr16 .ss .bpSi 0xFFFE))) 4 ∧
  decode .s32 [0x0F, 0x72, 0xE5, 0x07] = .instr (.psradImm 5 7) 4 ∧
  decode .s32 [0x0F, 0x51, 0xC2] = .instr (.paddsiw 0 (.reg 2)) 3 ∧
  decode .s32 [0x0F, 0x54, 0x10] = .instr (.pdistib 2 (.addr32 .ds (some 0) none 0)) 3 ∧
  decode .s32 [0x0F, 0x7E, 0xCB] = .instr (.movdStore (.reg 3) 1) 3 ∧
  decode .s16 [0x53] = .instr (.pushReg16 .s16 3) 1 ∧
  decode .s16 [0xFF, 0xF3] = .instr (.pushRm16 .s16 (.reg 3)) 2 ∧
  decode .s32 [0xFF, 0x34, 0x24] = .instr (.pushRm32 .s32 (.mem (.addr32 .ss (some 4) none 0))) 3 ∧
  decode .s32 [0x64, 0x66, 0xFF, 0x30] = .instr (.pushRm16 .s32 (.mem (.addr32 .fs (some 0) none 0))) 4 ∧
  decode .s32 [0x6A, 0xFF] = .instr (.pushImm8 .s32 .s32 0xFF) 2 ∧
  decode .s16 [0x68, 0x78, 0x56, 0x34, 0x12] = .instr (.pushImm16 .s16 0x5678) 3 ∧
  decode .s32 [0x68, 0x78, 0x56, 0x34, 0x12] = .instr (.pushImm32 .s32 0x12345678) 5

/-- R127, R114, R105: a decoded instruction is well formed, has 1 to 10 bytes, and no more than were given. [D9] -/
def Obligations.DecodedInstructionsAreShortAndWellFormed : Prop :=
  ∀ (mode : Size) (bs : List Byte) (i : Instr) (len : Nat), decode mode bs = .instr i len →
    i.wellFormed = true ∧ 1 ≤ len ∧ len ≤ 10 ∧ len ≤ bs.length

/-- R121, R127: an instruction is read from its own bytes alone; whatever bytes follow them, the answer is the same.
[G3] -/
def Obligations.DecodeReadsNothingBeyondTheInstruction : Prop :=
  ∀ (mode : Size) (bs rest : List Byte) (i : Instr) (len : Nat), decode mode bs = .instr i len →
    decode mode (bs.take len ++ rest) = .instr i len

/-- R102 to R105, R116: size prefixes and at most one segment override, in any order and each once, select the operand
size, the address size and the override the opcode is decoded with. [D9, G2] -/
def Obligations.AcceptedPrefixesSelectSizesAndSegment : Prop :=
  ∀ (mode : Size) (ps : List Byte) (op : Byte) (rest : List Byte),
    (∀ b ∈ ps, b = 0x66 ∨ b = 0x67 ∨ ∃ x, b = segByte x) → ps.Nodup →
    (∀ x y, segByte x ∈ ps → segByte y ∈ ps → x = y) → prefixKind op = none →
    ∃ p : Prefixes, decodeParts mode (ps ++ op :: rest) =
        decodeOpcode p (if 0x66 ∈ ps then mode.other else mode) (if 0x67 ∈ ps then mode.other else mode) op rest ∧
      (p.opsize = true ↔ 0x66 ∈ ps) ∧ (∀ x, p.seg = some x ↔ segByte x ∈ ps)

/-- R103, R332: with LOCK, REPNE or REP, with one prefix byte twice, or with two segment overrides among the prefixes,
the bytes are refused, whatever instruction follows. [D9] -/
def Obligations.RefusedPrefixes : Prop :=
  ∀ (mode : Size) (ps : List Byte) (op : Byte) (rest : List Byte),
    (∀ b ∈ ps, prefixKind b ≠ none) → prefixKind op = none →
    ((∃ b ∈ ps, b = 0xF0 ∨ b = 0xF2 ∨ b = 0xF3) ∨ ¬ ps.Nodup ∨
      (∃ x y, x ≠ y ∧ segByte x ∈ ps ∧ segByte y ∈ ps)) →
    decode mode (ps ++ op :: rest) = .rejected .prefixNotInScope

/-- R103, R332: the prefix 66 is refused on every MMX and Cyrix opcode of the two-byte map. [D9; log entry 10] -/
def Obligations.OperandSizePrefixRefusedOnMmx : Prop :=
  ∀ (mode : Size) (op : Byte) (rest : List Byte), mmxRow op ≠ none →
    decode mode (0x66 :: 0x0F :: op :: rest) = .rejected .prefixNotInScope

/-- R129, R201: the six memory-only rows with a register operand are invalid opcodes, behind any accepted address-size
and segment prefixes. [D8] -/
def Obligations.MemoryOnlyRowsRefuseRegisters : Prop :=
  ∀ (mode a : Size) (x : Option SegReg) (op modrm : Byte) (rest : List Byte),
    op = 0x54 ∨ op = 0x58 ∨ op = 0x5A ∨ op = 0x5B ∨ op = 0x5C ∨ op = 0x5E → modField modrm = 3 →
    decode mode (addrPrefix mode a ++ (x.map segByte).toList ++ 0x0F :: op :: modrm :: rest) =
      .rejected .invalidOpcode

/-- R130: in the shift groups a memory form and an unlisted digit are invalid opcodes. [D8] -/
def Obligations.ShiftGroupsHaveNoOtherForms : Prop :=
  ∀ (mode : Size) (op modrm : Byte) (rest : List Byte),
    ((op = 0x71 ∨ op = 0x72) ∧
        (modField modrm ≠ 3 ∨ (regField modrm ≠ 2 ∧ regField modrm ≠ 4 ∧ regField modrm ≠ 6)) ∨
      op = 0x73 ∧ (modField modrm ≠ 3 ∨ (regField modrm ≠ 2 ∧ regField modrm ≠ 6))) →
    decode mode (0x0F :: op :: modrm :: rest) = .rejected .invalidOpcode

/-- R131, R106: an opcode byte outside the one-byte map, a second byte outside the two-byte map, and `FF` with another
digit than 6 are outside the model's scope. [D8] -/
def Obligations.UnlistedOpcodesAreNotInScope : Prop :=
  ∀ (mode : Size) (op : Byte) (rest : List Byte),
    (prefixKind op = none → op ∉ ([0x06, 0x0E, 0x0F, 0x16, 0x1E, 0x50, 0x51, 0x52, 0x53, 0x54, 0x55, 0x56, 0x57,
        0x60, 0x68, 0x6A, 0x9C, 0xFF] : List Byte) →
      decode mode (op :: rest) = .rejected .notInScope) ∧
    (op ≠ 0xA0 → op ≠ 0xA8 → op ∉ mmxTable.map Prod.fst →
      decode mode (0x0F :: op :: rest) = .rejected .notInScope) ∧
    (regField op ≠ 6 → decode mode (0xFF :: op :: rest) = .rejected .notInScope)

/-- R280: there is no arithmetic right shift of the quadword: `0F 73 /4` is an invalid opcode and `0F E3` is not in
scope. -/
def Obligations.NoArithmeticQuadwordShift : Prop :=
  ∀ (mode : Size) (modrm : Byte) (rest : List Byte),
    (regField modrm = 4 → decode mode (0x0F :: 0x73 :: modrm :: rest) = .rejected .invalidOpcode) ∧
    decode mode (0x0F :: 0xE3 :: modrm :: rest) = .rejected .notInScope

/-- R307: for every register and operand size `50+r` and `FF F0+r` have the same effect, in one and in two bytes (one
more with the prefix 66); `6A ib` has the effect of `68` with the sign-extended byte, at both operand sizes. -/
def Obligations.RedundantPushEncodings : Prop :=
  ∀ (mode : Size) (r : GpReg) (ib : Byte) (rest : List Byte) (s : State),
    (∃ i j, decode mode ((0x50 + r.setWidth 8) :: rest) = .instr i 1 ∧
      decode mode (0xFF :: (0xF0 + r.setWidth 8) :: rest) = .instr j 2 ∧ exec i s = exec j s) ∧
    (∃ i j, decode mode (0x66 :: (0x50 + r.setWidth 8) :: rest) = .instr i 2 ∧
      decode mode (0x66 :: 0xFF :: (0xF0 + r.setWidth 8) :: rest) = .instr j 3 ∧ exec i s = exec j s) ∧
    (∃ i j, decode .s16 (0x6A :: ib :: rest) = .instr i 2 ∧
      decode .s16 (0x68 :: bytes16 (ib.signExtend 16) ++ rest) = .instr j 3 ∧ exec i s = exec j s) ∧
    (∃ i j, decode .s32 (0x6A :: ib :: rest) = .instr i 2 ∧
      decode .s32 (0x68 :: bytes32 (ib.signExtend 32) ++ rest) = .instr j 5 ∧ exec i s = exec j s) ∧
    (∃ i j, decode .s32 (0x66 :: 0x6A :: ib :: rest) = .instr i 3 ∧
      decode .s32 (0x66 :: 0x68 :: bytes16 (ib.signExtend 16) ++ rest) = .instr j 4 ∧ exec i s = exec j s) ∧
    (∃ i j, decode .s16 (0x66 :: 0x6A :: ib :: rest) = .instr i 3 ∧
      decode .s16 (0x66 :: 0x68 :: bytes32 (ib.signExtend 32) ++ rest) = .instr j 6 ∧ exec i s = exec j s)

/-- R312, R317: PUSHA and PUSHF are written as the unprefixed byte, which decodes, and acts, as the form of the mode's
size; with the operand-size prefix the byte is the form of the other size. -/
def Obligations.SecondNamesFollowTheMode : Prop :=
  ∀ (a : Size) (s : State) (rest : List Byte),
    (∀ mode, encode mode (.pusha mode) = [0x60] ∧ encode mode (.pushf mode) = [0x9C]) ∧
    decode .s16 (0x60 :: rest) = .instr (.pushaw .s16) 1 ∧ decode .s32 (0x60 :: rest) = .instr (.pushad .s32) 1 ∧
    decode .s16 (0x66 :: 0x60 :: rest) = .instr (.pushad .s16) 2 ∧
    decode .s32 (0x66 :: 0x60 :: rest) = .instr (.pushaw .s32) 2 ∧
    decode .s16 (0x9C :: rest) = .instr (.pushfw .s16) 1 ∧ decode .s32 (0x9C :: rest) = .instr (.pushfd .s32) 1 ∧
    decode .s16 (0x66 :: 0x9C :: rest) = .instr (.pushfd .s16) 2 ∧
    decode .s32 (0x66 :: 0x9C :: rest) = .instr (.pushfw .s32) 2 ∧
    (s.cfg.mode = .s16 → exec (.pusha a) s = exec (.pushaw a) s ∧ exec (.pushf a) s = exec (.pushfw a) s) ∧
    (s.cfg.mode = .s32 → exec (.pusha a) s = exec (.pushad a) s ∧ exec (.pushf a) s = exec (.pushfd a) s)

/-- R105, R114, R116: a decoded memory operand has the addressing of the address size, no scaled ESP, and the segment
of the override, or else SS where BP, EBP or ESP is its base register and DS where none is. [G5 to G8] -/
def Obligations.SegmentOfDecodedOperand : Prop :=
  ∀ (a : Size) (ovr : Option SegReg) (mod : BitVec 2) (rm : BitVec 3) (bs rest : List Byte) (m : MemOp),
    decodeMem a ovr mod rm bs = .ok (m, rest) →
    m.size = a ∧ m.wellFormed = true ∧
    (∀ x, ovr = some x → m.seg = x) ∧
    (ovr = none → match m with
      | .addr16 seg base _ => seg = if base = .bp ∨ base = .bpSi ∨ base = .bpDi then .ss else .ds
      | .addr32 seg base _ _ => seg = if base = some 4 ∨ base = some 5 then .ss else .ds)

/-- R113, R115, R133: a byte displacement is sign-extended, and no displacement is a zero one: the forms `mod = 1` and
`mod = 0` spell the operand that `mod = 2` spells with the full displacement. [G5 to G7] -/
def Obligations.DisplacementForms : Prop :=
  ∀ (ovr : Option SegReg) (rm : BitVec 3) (sib d : Byte) (rest : List Byte),
    decodeMem .s16 ovr 1 rm (d :: rest) = decodeMem .s16 ovr 2 rm (bytes16 (d.signExtend 16) ++ rest) ∧
    (rm ≠ 6 → decodeMem .s16 ovr 0 rm rest = decodeMem .s16 ovr 2 rm (bytes16 0 ++ rest)) ∧
    (rm ≠ 4 → decodeMem .s32 ovr 1 rm (d :: rest) = decodeMem .s32 ovr 2 rm (bytes32 (d.signExtend 32) ++ rest)) ∧
    (rm ≠ 4 → rm ≠ 5 → decodeMem .s32 ovr 0 rm rest = decodeMem .s32 ovr 2 rm (bytes32 0 ++ rest)) ∧
    decodeMem .s32 ovr 1 4 (sib :: d :: rest) = decodeMem .s32 ovr 2 4 (sib :: bytes32 (d.signExtend 32) ++ rest) ∧
    (rmField sib ≠ 5 → decodeMem .s32 ovr 0 4 (sib :: rest) = decodeMem .s32 ovr 2 4 (sib :: bytes32 0 ++ rest))

/-! ## Steps and runs -/

/-- R121, R330, R31: where the bytes at `pc` can be fetched and decode to an instruction, and the run is not at its
end, the step executes that instruction and moves `pc` past it. [D5, D7] -/
def Obligations.StepRunsDecodedInstruction : Prop :=
  ∀ (s : State) (bs : List Byte) (i : Instr) (len : Nat), s.atEnd = false → s.codeIs bs →
    decode s.cfg.mode bs = .instr i len →
    step s = match exec i s with
      | .next t => .next (t.advancePc len)
      | .fault e => .fault e
      | .refused r => .refused r

/-- R101 to R128, R330, R31: a well-formed instruction whose encoding stands at `pc` is what the step executes, with
`pc` moved by the encoding's length. [D5, D7, D9] -/
def Obligations.StepRunsEncodedInstruction : Prop :=
  ∀ (s : State) (i : Instr), s.atEnd = false → i.wellFormed = true → s.codeIs (encode s.cfg.mode i) →
    step s = match exec i s with
      | .next t => .next (t.advancePc (encode s.cfg.mode i).length)
      | .fault e => .fault e
      | .refused r => .refused r

/-- R330 to R332, R103: where bytes that stand at `pc` and can be fetched, however many, are decoded as an invalid
opcode, as not in scope, or as prefixes not accepted, the step stops with that fault or refusal. [D7, D8, D9] -/
def Obligations.StepStopsOnRejectedBytes : Prop :=
  ∀ (s : State) (bs : List Byte), s.atEnd = false → s.codeIs bs →
    (decode s.cfg.mode bs = .rejected .invalidOpcode → step s = .fault .invalidOpcode) ∧
    (decode s.cfg.mode bs = .rejected .notInScope → step s = .refused .notInScope) ∧
    (decode s.cfg.mode bs = .rejected .prefixNotInScope → step s = .refused .prefixNotInScope)

/-- R31, R62, R100, R103, R336: where the decision needs a byte beyond those that stand at `pc`, after any number of
prefixes, the step ends in the fault of that byte's fetch: `FetchWrap` past the top of the code offset space, else the
platform's refusal at `Lin(CS, pc + n)`. [D5, D7, D9, D33] -/
def Obligations.StepFaultsOnUnfetchableByte : Prop :=
  ∀ (s : State) (bs : List Byte), s.atEnd = false → s.codeIs bs →
    decode s.cfg.mode bs = .rejected .truncated →
    (2 ^ s.cfg.mode.bits ≤ s.pc.toNat + bs.length → step s = .fault .fetchWrap) ∧
    (s.pc.toNat + bs.length < 2 ^ s.cfg.mode.bits →
      accessible s.cfg (lin s.cfg .cs (s.pc + BitVec.ofNat 32 bs.length)) 1 .fetch = false →
      step s = .fault (.memoryFault (lin s.cfg .cs (s.pc + BitVec.ofNat 32 bs.length)) 1 .fetch))

/-- R372: a run that has reached `END_PC` has ended: further steps leave its final state. That a step at `END_PC`
stays there, where R372 stops stepping, is the model's choice (log entry 6). [D26] -/
def Obligations.EndedRunsStay : Prop :=
  ∀ (s t : State) (n m : Nat), ReachesEnd s n t → n ≤ m → run m s = .next t

/-- R30, R32: every step keeps the memory's canonical form and `pc` inside the code offset space. [D5] -/
def Obligations.StepKeepsInvariant : Prop :=
  ∀ s t : State, s.Inv → step s = .next t → t.Inv

/-- The state after reset, whose values are the model's (log entries 2 to 7), has the invariant. -/
def Obligations.ResetHasInvariant : Prop := State.reset.Inv

/-- R24, R25, R8, R340: no step changes the segment registers, the flags or a parameter. [D24] -/
def Obligations.StepKeepsSegmentsFlagsParameters : Prop :=
  ∀ s t : State, step s = .next t → t.sreg = s.sreg ∧ t.flags = s.flags ∧ t.cfg = s.cfg

/-- R75: however long a run is, it never changes a byte of its program. Which bytes those are, and that a store of an
equal value counts, is the model's reading (log entry 8). [D6; log entry 8] -/
def Obligations.RunsKeepProgramBytes : Prop :=
  ∀ (n : Nat) (s t : State) (a : BitVec 32), run n s = .next t → isProgramByte s.cfg a = true →
    t.mem.read a.toNat = s.mem.read a.toNat

/-- R62: however long a run is, it never changes a byte of a region in which the platform admits no write. [D7; log
entry 5] -/
def Obligations.RunsKeepWriteProtectedRegions : Prop :=
  ∀ (n : Nat) (s t : State) (first size a : Nat), run n s = .next t →
    Denial.region .write first size ∈ s.cfg.denied → first ≤ a → a < first + size →
    t.mem.read a = s.mem.read a

/-- R31, R127: a completed step before `END_PC` moves `pc` forward by 1 to 10 bytes in the width of the mode. [D5] -/
def Obligations.StepMovesPcForward : Prop :=
  ∀ s t : State, s.atEnd = false → step s = .next t →
    ∃ len, 1 ≤ len ∧ len ≤ 10 ∧ t.pc.toNat = (s.pc.toNat + len) % 2 ^ s.cfg.mode.bits

/-- R331: no fault depends on a data value: two states with the same general registers and parameters, whatever their
MMX registers, memories, flags and tag words hold, stop on an instruction with the same fault. [D7, D33] -/
def Obligations.FaultsDoNotDependOnData : Prop :=
  ∀ (i : Instr) (s s' : State) (e : Fault), s.r32 = s'.r32 → s.cfg = s'.cfg → exec i s = .fault e →
    exec i s' = .fault e

/-- R330: every instruction of the opcode map has a meaning: it completes or faults, it is never refused. [D7, D8] -/
def Obligations.InstructionsAreNeverRefused : Prop :=
  ∀ (i : Instr) (s : State) (r : Refusal), exec i s ≠ .refused r

/-- R21, R23: a completed instruction changes at most one MMX register; the only general registers it can change are
ESP, by a push, and the destination of MOVD to a register; only MOVD, MOVQ and the pushes change memory. -/
def Obligations.RegistersWrittenOnlyAsListed : Prop :=
  ∀ (i : Instr) (s t : State), exec i s = .next t →
    (∀ k k', t.getMm k ≠ s.getMm k → t.getMm k' ≠ s.getMm k' → k = k') ∧
    (∀ k, t.getMm k ≠ s.getMm k → i.set ≠ .base) ∧
    (∀ k, t.getR32 k ≠ s.getR32 k → (i.set = .base ∧ k = 4) ∨ ∃ m, i = .movdStore (.reg k) m) ∧
    (∀ a, t.mem.read a ≠ s.mem.read a →
      i.set = .base ∨ (∃ m k, i = .movdStore (.mem m) k) ∨ ∃ m k, i = .movqStore (.mem m) k)

/-- R26, R27, R380: after EMMS the tag word is FFFFh; after any other MMX or Cyrix instruction it is 0000h where
`MMX_SETS_FTW` holds and as before where not; the PUSH family leaves it. [D10] -/
def Obligations.TagWordRule : Prop :=
  ∀ (i : Instr) (s t : State), exec i s = .next t →
    (i = .emms → t.fpuClean) ∧
    (i ≠ .emms → i.set ≠ .base → t.ftw = if s.cfg.mmxSetsFtw then 0x0000 else s.ftw) ∧
    (i.set = .base → t.ftw = s.ftw)

/-! ## Operations -/

/-- R62, R331, R336: what stops an access, in order: bytes past the end of the offset space, the platform, and for a
write the first program byte hit; nothing else does. [D6, D7, D23, D33; log entry 8] -/
def Obligations.AdmissionOrder : Prop :=
  ∀ (c : Config) (x : SegReg) (w : Size) (off : BitVec 32) (n : Nat) (k : AccessKind),
    (2 ^ w.bits < off.toNat + n → admission c x w off n k = some (.offsetWrap x off n)) ∧
    (off.toNat + n ≤ 2 ^ w.bits →
      (accessible c (lin c x off) n k = false → admission c x w off n k = some (.memoryFault (lin c x off) n k)) ∧
      (accessible c (lin c x off) n k = true →
        (k ≠ .write → admission c x w off n k = none) ∧
        (k = .write →
          (∀ j < n, isProgramByte c (lin c x off + BitVec.ofNat 32 j) = true →
            (∀ i < j, isProgramByte c (lin c x off + BitVec.ofNat 32 i) = false) →
            admission c x w off n k = some (.codeWrite (lin c x off + BitVec.ofNat 32 j))) ∧
          ((∀ j < n, isProgramByte c (lin c x off + BitVec.ofNat 32 j) = false) →
            admission c x w off n k = none))))

/-- R75: the program's bytes are those at `Lin(CS, p)` for the offsets `p` from the first instruction up to `END_PC`,
where these lie in the code offset space in this order; with no program named there are none. [D6; log entry 8] -/
def Obligations.ProgramBytes : Prop :=
  ∀ (c : Config) (a : BitVec 32),
    (c.program = none → isProgramByte c a = false) ∧
    (∀ r : ProgramRange, c.program = some r → r.first.toNat ≤ r.endPc.toNat → r.endPc.toNat < 2 ^ c.mode.bits →
      (isProgramByte c a = true ↔
        ∃ p : BitVec 32, r.first.toNat ≤ p.toNat ∧ p.toNat < r.endPc.toNat ∧ a = lin c .cs p))

/-- R63, R64, R65: after a store of a quadword, a load of the same bytes gives it back, a doubleword at `a + 4` is its
upper half, a word at `a` its low 16 bits, and every byte outside the eight reads as before. [D2] -/
def Obligations.StoreThenLoad : Prop :=
  ∀ (m : Memory) (a : BitVec 32) (v : BitVec 64),
    (m.writeLE a v 8).readLE a 8 = v ∧
    (m.writeLE a v 8).readLE (a + 4) 4 = v.extractLsb' 32 32 ∧
    (m.writeLE a v 8).readLE a 2 = v.extractLsb' 0 16 ∧
    ∀ x, (∀ k < 8, x ≠ (a + BitVec.ofNat 32 k).toNat) → (m.writeLE a v 8).read x = m.read x

/-- R118, R62, R63: a register operand is the register; a memory operand of `n` bytes is admitted or gives the fault
that stops it, and its value's byte `k` is the byte at `Lin(Seg, EA) + k`. [D2, D7] -/
def Obligations.SourceOperands : Prop :=
  ∀ (s : State) (r : BitVec 3) (m : MemOp),
    (s.src64 (.reg r) = .ok (s.getMm r) ∧ s.src32 (.reg r) = .ok (s.getR32 r) ∧
      ∃ v, s.src16 (.reg r) = .ok v ∧ v.toNat = (s.getR32 r).toNat % 2 ^ 16) ∧
    (∀ e, admission s.cfg m.seg m.size (s.effAddr m) 8 .read = some e → s.src64 (.mem m) = .error e) ∧
    (admission s.cfg m.seg m.size (s.effAddr m) 8 .read = none → ∃ v, s.src64 (.mem m) = .ok v ∧
      ∀ k < 8, byteOf v k = s.mem.read (lin s.cfg m.seg (s.effAddr m) + BitVec.ofNat 32 k).toNat) ∧
    (∀ e, admission s.cfg m.seg m.size (s.effAddr m) 4 .read = some e → s.src32 (.mem m) = .error e) ∧
    (admission s.cfg m.seg m.size (s.effAddr m) 4 .read = none → ∃ v, s.src32 (.mem m) = .ok v ∧
      ∀ k < 4, byteOf v k = s.mem.read (lin s.cfg m.seg (s.effAddr m) + BitVec.ofNat 32 k).toNat) ∧
    (∀ e, admission s.cfg m.seg m.size (s.effAddr m) 2 .read = some e → s.src16 (.mem m) = .error e) ∧
    (admission s.cfg m.seg m.size (s.effAddr m) 2 .read = none → ∃ v, s.src16 (.mem m) = .ok v ∧
      ∀ k < 2, byteOf v k = s.mem.read (lin s.cfg m.seg (s.effAddr m) + BitVec.ofNat 32 k).toNat)

/-- R113 to R115, R117: the offset of a memory operand: base plus scaled index plus displacement mod 2^32, or one of
the nine sums of 16-bit addressing mod 2^16. [G5 to G7] -/
def Obligations.EffectiveAddresses : Prop :=
  ∀ (s : State) (x : SegReg) (b : GpReg) (i : SibIndex) (d16 : BitVec 16) (d32 : BitVec 32),
    (s.effAddr (.addr32 x none none d32)).toNat = d32.toNat ∧
    (s.effAddr (.addr32 x (some b) none d32)).toNat = ((s.getR32 b).toNat + d32.toNat) % 2 ^ 32 ∧
    (s.effAddr (.addr32 x none (some i) d32)).toNat =
      ((s.getR32 i.reg).toNat * 2 ^ i.scale.toNat + d32.toNat) % 2 ^ 32 ∧
    (s.effAddr (.addr32 x (some b) (some i) d32)).toNat =
      ((s.getR32 b).toNat + (s.getR32 i.reg).toNat * 2 ^ i.scale.toNat + d32.toNat) % 2 ^ 32 ∧
    (s.effAddr (.addr16 x .bxSi d16)).toNat = ((s.getR32 3).toNat + (s.getR32 6).toNat + d16.toNat) % 2 ^ 16 ∧
    (s.effAddr (.addr16 x .bxDi d16)).toNat = ((s.getR32 3).toNat + (s.getR32 7).toNat + d16.toNat) % 2 ^ 16 ∧
    (s.effAddr (.addr16 x .bpSi d16)).toNat = ((s.getR32 5).toNat + (s.getR32 6).toNat + d16.toNat) % 2 ^ 16 ∧
    (s.effAddr (.addr16 x .bpDi d16)).toNat = ((s.getR32 5).toNat + (s.getR32 7).toNat + d16.toNat) % 2 ^ 16 ∧
    (s.effAddr (.addr16 x .si d16)).toNat = ((s.getR32 6).toNat + d16.toNat) % 2 ^ 16 ∧
    (s.effAddr (.addr16 x .di d16)).toNat = ((s.getR32 7).toNat + d16.toNat) % 2 ^ 16 ∧
    (s.effAddr (.addr16 x .bp d16)).toNat = ((s.getR32 5).toNat + d16.toNat) % 2 ^ 16 ∧
    (s.effAddr (.addr16 x .bx d16)).toNat = ((s.getR32 3).toNat + d16.toNat) % 2 ^ 16 ∧
    (s.effAddr (.addr16 x .abs d16)).toNat = d16.toNat

/-- R290, R291: the stack address size is the address-size attribute or the stack segment's size as the parameter
says, and the slot of a push lies `n` below SP or ESP, mod 2^16 or 2^32. [D19] -/
def Obligations.StackSlot : Prop :=
  ∀ (s : State) (a : Size) (n : Nat), n ≤ 32 →
    (s.cfg.stackAddrSizeFrom = .addressSizeAttribute → stackSize s.cfg a = a) ∧
    (s.cfg.stackAddrSizeFrom = .stackSegment → stackSize s.cfg a = s.cfg.stackSegSize) ∧
    (stackSize s.cfg a = .s16 → (s.slot a n).toNat = ((s.getR32 4).toNat % 2 ^ 16 + 2 ^ 16 - n) % 2 ^ 16) ∧
    (stackSize s.cfg a = .s32 → (s.slot a n).toNat = ((s.getR32 4).toNat + 2 ^ 32 - n) % 2 ^ 32)

/-! ## EMMS, MOVD, MOVQ (40_emms_mov.md) -/

/-- R150: EMMS sets the tag word to all ones and changes nothing else; without MMX it is an invalid opcode. [D10, D28]
-/
def Obligations.EmmsRule : Prop :=
  ∀ s : State,
    (s.cfg.hasMmx = false → exec .emms s = .fault .invalidOpcode) ∧
    (s.cfg.hasMmx = true → ∃ t, exec .emms s = .next t ∧ t.ftw = 0xFFFF ∧ s.Frame t none none nowhere ∧
      t.draws = s.draws)

/-- R151, R153: MOVD to an MMX register zero-extends the doubleword, MOVQ copies the quadword. [D10, D28, D29] -/
def Obligations.MovLoadRules : Prop :=
  (∀ (s : State) (d : MmReg) (src : RmOp),
    (s.cfg.hasMmx = false → exec (.movdLoad d src) s = .fault .invalidOpcode) ∧
    (s.cfg.hasMmx = true → ∀ e, s.src32 src = .error e → exec (.movdLoad d src) s = .fault e) ∧
    (s.cfg.hasMmx = true → ∀ v, s.src32 src = .ok v →
      CompletesInMm (.movdLoad d src) s d fun r => laneD r 0 = v ∧ laneD r 1 = 0)) ∧
  MmxRule .movqLoad fun _ _ v r => r = v

/-- R152, R154: MOVD and MOVQ to a register write it whole, to memory the four or eight bytes at the operand's
address; an access that is not admitted is the fault, and nothing is written. [D10, D28, D29] -/
def Obligations.MovStoreRules : Prop :=
  ∀ (s : State) (src : MmReg) (r : BitVec 3) (m : MemOp),
    (s.cfg.hasMmx = false → ∀ dst, exec (.movdStore dst src) s = .fault .invalidOpcode ∧
      exec (.movqStore dst src) s = .fault .invalidOpcode) ∧
    (s.cfg.hasMmx = true →
      (∃ t, exec (.movdStore (.reg r) src) s = .next t ∧ t.getR32 r = laneD (s.getMm src) 0 ∧
        s.MmxFrame t none (some r) nowhere) ∧
      CompletesInMm (.movqStore (.reg r) src) s r (fun v => v = s.getMm src) ∧
      (∀ e, admission s.cfg m.seg m.size (s.effAddr m) 4 .write = some e →
        exec (.movdStore (.mem m) src) s = .fault e) ∧
      (admission s.cfg m.seg m.size (s.effAddr m) 4 .write = none →
        ∃ t, exec (.movdStore (.mem m) src) s = .next t ∧
          t.holds m.seg (s.effAddr m) 4 (laneD (s.getMm src) 0) ∧
          s.MmxFrame t none none (covers s.cfg m.seg (s.effAddr m) 4)) ∧
      (∀ e, admission s.cfg m.seg m.size (s.effAddr m) 8 .write = some e →
        exec (.movqStore (.mem m) src) s = .fault e) ∧
      (admission s.cfg m.seg m.size (s.effAddr m) 8 .write = none →
        ∃ t, exec (.movqStore (.mem m) src) s = .next t ∧ t.holds m.seg (s.effAddr m) 8 (s.getMm src) ∧
          s.MmxFrame t none none (covers s.cfg m.seg (s.effAddr m) 8)))

/-! ## The MMX families -/

/-- R160 to R163: the packs narrow the destination's elements into the low half and the source's into the high half,
saturating; PACKUSWB reads its words as `PACKUSWB_INPUT` says. [D10, D12, D28] -/
def Obligations.PackRules : Prop :=
  MmxRule .packssdw (fun _ d v r => ∀ i < 2,
    (laneW r i).toInt = max (-32768) (min 32767 (laneD d i).toInt) ∧
    (laneW r (i + 2)).toInt = max (-32768) (min 32767 (laneD v i).toInt)) ∧
  MmxRule .packsswb (fun _ d v r => ∀ i < 4,
    (laneB r i).toInt = max (-128) (min 127 (laneW d i).toInt) ∧
    (laneB r (i + 4)).toInt = max (-128) (min 127 (laneW v i).toInt)) ∧
  MmxRule .packuswb (fun c d v r => ∀ i < 4,
    (c.packuswbInput = .unsigned → (laneB r i).toNat = min 255 (laneW d i).toNat ∧
      (laneB r (i + 4)).toNat = min 255 (laneW v i).toNat) ∧
    (c.packuswbInput = .signed → ((laneB r i).toNat : Int) = max 0 (min 255 (laneW d i).toInt) ∧
      ((laneB r (i + 4)).toNat : Int) = max 0 (min 255 (laneW v i).toInt)))

/-- R164 to R170: the unpacks alternate destination and source elements of the high or low halves. [D10, D28] -/
def Obligations.UnpackRules : Prop :=
  MmxRule .punpckhbw (fun _ d v r => ∀ i < 4,
    laneB r (2 * i) = laneB d (4 + i) ∧ laneB r (2 * i + 1) = laneB v (4 + i)) ∧
  MmxRule .punpckhwd (fun _ d v r => ∀ i < 2,
    laneW r (2 * i) = laneW d (2 + i) ∧ laneW r (2 * i + 1) = laneW v (2 + i)) ∧
  MmxRule .punpckhdq (fun _ d v r => laneD r 0 = laneD d 1 ∧ laneD r 1 = laneD v 1) ∧
  MmxRule .punpcklbw (fun _ d v r => ∀ i < 4,
    laneB r (2 * i) = laneB d i ∧ laneB r (2 * i + 1) = laneB v i) ∧
  MmxRule .punpcklwd (fun _ d v r => ∀ i < 2,
    laneW r (2 * i) = laneW d i ∧ laneW r (2 * i + 1) = laneW v i) ∧
  MmxRule .punpckldq (fun _ d v r => laneD r 0 = laneD d 0 ∧ laneD r 1 = laneD v 0)

/-- R181 to R183: addition lane by lane modulo the lane's width. [D10, D15, D28] -/
def Obligations.WrappingAdditionRules : Prop :=
  MmxRule .paddb (LanesB fun a b r => r.toNat = (a.toNat + b.toNat) % 2 ^ 8) ∧
  MmxRule .paddw (LanesW fun a b r => r.toNat = (a.toNat + b.toNat) % 2 ^ 16) ∧
  MmxRule .paddd (LanesD fun a b r => r.toNat = (a.toNat + b.toNat) % 2 ^ 32)

/-- R184 to R187: addition lane by lane with signed or unsigned saturation. [D10, D28] -/
def Obligations.SaturatingAdditionRules : Prop :=
  MmxRule .paddsb (LanesB fun a b r => r.toInt = max (-128) (min 127 (a.toInt + b.toInt))) ∧
  MmxRule .paddsw (LanesW fun a b r => r.toInt = max (-32768) (min 32767 (a.toInt + b.toInt))) ∧
  MmxRule .paddusb (LanesB fun a b r => r.toNat = min 255 (a.toNat + b.toNat)) ∧
  MmxRule .paddusw (LanesW fun a b r => r.toNat = min 65535 (a.toNat + b.toNat))

/-- R188 to R190: subtraction, destination minus source, lane by lane modulo the lane's width. [D10, D15, D28] -/
def Obligations.WrappingSubtractionRules : Prop :=
  MmxRule .psubb (LanesB fun a b r => (r.toNat : Int) = ((a.toNat : Int) - b.toNat) % 2 ^ 8) ∧
  MmxRule .psubw (LanesW fun a b r => (r.toNat : Int) = ((a.toNat : Int) - b.toNat) % 2 ^ 16) ∧
  MmxRule .psubd (LanesD fun a b r => (r.toNat : Int) = ((a.toNat : Int) - b.toNat) % 2 ^ 32)

/-- R191 to R194: subtraction, destination minus source, with signed saturation or clipped at 0. [D10, D17, D28] -/
def Obligations.SaturatingSubtractionRules : Prop :=
  MmxRule .psubsb (LanesB fun a b r => r.toInt = max (-128) (min 127 (a.toInt - b.toInt))) ∧
  MmxRule .psubsw (LanesW fun a b r => r.toInt = max (-32768) (min 32767 (a.toInt - b.toInt))) ∧
  MmxRule .psubusb (LanesB fun a b r => r.toNat = a.toNat - b.toNat) ∧
  MmxRule .psubusw (LanesW fun a b r => r.toNat = a.toNat - b.toNat)

/-- R230 to R233: the bitwise operations, bit by bit; PANDN complements the destination. [D10, D28] -/
def Obligations.LogicalRules : Prop :=
  MmxRule .pand (fun _ d v r => ∀ k < 64, r.getLsbD k = (d.getLsbD k && v.getLsbD k)) ∧
  MmxRule .pandn (fun _ d v r => ∀ k < 64, r.getLsbD k = (!d.getLsbD k && v.getLsbD k)) ∧
  MmxRule .por (fun _ d v r => ∀ k < 64, r.getLsbD k = (d.getLsbD k || v.getLsbD k)) ∧
  MmxRule .pxor (fun _ d v r => ∀ k < 64, r.getLsbD k = (d.getLsbD k != v.getLsbD k))

/-- R240 to R246: a lane becomes all ones where the comparison holds and all zeros where not; greater-than is signed,
destination against source. [D10, D28] -/
def Obligations.ComparisonRules : Prop :=
  MmxRule .pcmpeqb (LanesB fun a b r => r = if a.toNat = b.toNat then 0xFF else 0x00) ∧
  MmxRule .pcmpeqw (LanesW fun a b r => r = if a.toNat = b.toNat then 0xFFFF else 0x0000) ∧
  MmxRule .pcmpeqd (LanesD fun a b r => r = if a.toNat = b.toNat then 0xFFFFFFFF else 0x00000000) ∧
  MmxRule .pcmpgtb (LanesB fun a b r => r = if a.toInt > b.toInt then 0xFF else 0x00) ∧
  MmxRule .pcmpgtw (LanesW fun a b r => r = if a.toInt > b.toInt then 0xFFFF else 0x0000) ∧
  MmxRule .pcmpgtd (LanesD fun a b r => r = if a.toInt > b.toInt then 0xFFFFFFFF else 0x00000000)

/-- R250 to R252: PMADDWD adds adjacent signed products, wrapping at 32 bits; PMULHW keeps the high half of each
signed product and PMULLW the low half. [D10, D15, D28] -/
def Obligations.MultiplicationRules : Prop :=
  MmxRule .pmaddwd (fun _ d v r => ∀ i < 2, ((laneD r i).toNat : Int) =
    ((laneW d (2 * i)).toInt * (laneW v (2 * i)).toInt +
      (laneW d (2 * i + 1)).toInt * (laneW v (2 * i + 1)).toInt) % 2 ^ 32) ∧
  MmxRule .pmulhw (LanesW fun a b r => r.toInt = (a.toInt * b.toInt) / 2 ^ 16) ∧
  MmxRule .pmullw (LanesW fun a b r => (r.toNat : Int) = (a.toInt * b.toInt) % 2 ^ 16)

/-- R260 to R264, R266, R268, R270, R272, R274, R276, R278, R282: shifts whose count is the whole 64-bit source, never
masked; every lane by the same count. [D10, D16, D28] -/
def Obligations.ShiftByOperandRules : Prop :=
  MmxRule .psllw (fun _ d v r => ∀ i < 4, laneW r i = laneW d i <<< v.toNat) ∧
  MmxRule .pslld (fun _ d v r => ∀ i < 2, laneD r i = laneD d i <<< v.toNat) ∧
  MmxRule .psllq (fun _ d v r => r = d <<< v.toNat) ∧
  MmxRule .psraw (fun _ d v r => ∀ i < 4, laneW r i = (laneW d i).sshiftRight v.toNat) ∧
  MmxRule .psrad (fun _ d v r => ∀ i < 2, laneD r i = (laneD d i).sshiftRight v.toNat) ∧
  MmxRule .psrlw (fun _ d v r => ∀ i < 4, laneW r i = laneW d i >>> v.toNat) ∧
  MmxRule .psrld (fun _ d v r => ∀ i < 2, laneD r i = laneD d i >>> v.toNat) ∧
  MmxRule .psrlq (fun _ d v r => r = d >>> v.toNat)

/-- R265, R267, R269, R271, R273, R275, R277, R279, R282: the same shifts by an immediate count, 0 to 255. [D10, D16,
D28] -/
def Obligations.ShiftByImmediateRules : Prop :=
  ShiftImmRule .psllwImm (fun d c r => ∀ i < 4, laneW r i = laneW d i <<< c) ∧
  ShiftImmRule .pslldImm (fun d c r => ∀ i < 2, laneD r i = laneD d i <<< c) ∧
  ShiftImmRule .psllqImm (fun d c r => r = d <<< c) ∧
  ShiftImmRule .psrawImm (fun d c r => ∀ i < 4, laneW r i = (laneW d i).sshiftRight c) ∧
  ShiftImmRule .psradImm (fun d c r => ∀ i < 2, laneD r i = (laneD d i).sshiftRight c) ∧
  ShiftImmRule .psrlwImm (fun d c r => ∀ i < 4, laneW r i = laneW d i >>> c) ∧
  ShiftImmRule .psrldImm (fun d c r => ∀ i < 2, laneD r i = laneD d i >>> c) ∧
  ShiftImmRule .psrlqImm (fun d c r => r = d >>> c)

/-! ## The Cyrix family (43_cyrix.md) -/

/-- R204, R207, R208: averages, words of larger magnitude and rounded high products in the first operand; rounding and
ties as the parameters say. [D10, D13, D14, D28] -/
def Obligations.CyrixFirstOperandRules : Prop :=
  CyrixRule State.src64 id .paveb (fun c => EachB fun _ a b r =>
    (c.pavebRound = .floor → r.toNat = (a.toNat + b.toNat) / 2) ∧
    (c.pavebRound = .halfUp → r.toNat = (a.toNat + b.toNat + 1) / 2)) ∧
  CyrixRule State.src64 id .pmagw (fun c => EachW fun _ a b r =>
    (b.toInt.natAbs > a.toInt.natAbs → r = b) ∧ (a.toInt.natAbs > b.toInt.natAbs → r = a) ∧
    (a.toInt.natAbs = b.toInt.natAbs → (c.pmagwTie = .keepDest → r = a) ∧ (c.pmagwTie = .takeSrc → r = b))) ∧
  CyrixRule State.src64 id .pmulhrw (fun _ => EachW fun _ a b r =>
    r = (a.signExtend 32 * b.signExtend 32 + 0x4000).extractLsb' 15 16)

/-- R200, R203, R209, R214: the results of PADDSW, PMULHRW and PSUBSW in the implied register. [D10, D28] -/
def Obligations.CyrixImpliedRegisterRules : Prop :=
  CyrixRule State.src64 (· ^^^ 1) .paddsiw (fun _ => EachW fun _ a b r =>
    r.toInt = max (-32768) (min 32767 (a.toInt + b.toInt))) ∧
  CyrixRule State.src64 (· ^^^ 1) .pmulhriw (fun _ => EachW fun _ a b r =>
    r = (a.signExtend 32 * b.signExtend 32 + 0x4000).extractLsb' 15 16) ∧
  CyrixRule State.src64 (· ^^^ 1) .psubsiw (fun _ => EachW fun _ a b r =>
    r.toInt = max (-32768) (min 32767 (a.toInt - b.toInt)))

/-- R205, R206: byte distances, saturating, and rounded high products, wrapping, added into the implied register.
[D10, D17, D28] -/
def Obligations.CyrixAccumulationRules : Prop :=
  CyrixRule State.mem64 (· ^^^ 1) .pdistib (fun _ => EachB fun acc a b r =>
    r.toNat = min 255 (acc.toNat + (max a.toNat b.toNat - min a.toNat b.toNat))) ∧
  CyrixRule State.mem64 (· ^^^ 1) .pmachriw (fun _ => EachW fun acc a b r =>
    r = acc + (a.signExtend 32 * b.signExtend 32 + 0x4000).extractLsb' 15 16)

/-- R210 to R213: bytes of the memory operand move where the implied register's byte is zero, not zero, negative, not
negative; the others stay. [D10, D28] -/
def Obligations.CyrixConditionalMoveRules : Prop :=
  CyrixRule State.mem64 id .pmvzb (fun _ => EachB fun c a b r => r = if c.toNat = 0 then b else a) ∧
  CyrixRule State.mem64 id .pmvnzb (fun _ => EachB fun c a b r => r = if c.toNat = 0 then a else b) ∧
  CyrixRule State.mem64 id .pmvlzb (fun _ => EachB fun c a b r => r = if c.toNat ≥ 128 then b else a) ∧
  CyrixRule State.mem64 id .pmvgezb (fun _ => EachB fun c a b r => r = if c.toNat ≥ 128 then a else b)

/-! ## The PUSH family (48_push.md) -/

/-- R292, R293, R296: PUSH of a register pushes the value it had before, SP and ESP included. [D19, D23] -/
def Obligations.PushRegisterRules : Prop :=
  ∀ (s : State) (a : Size) (r : GpReg),
    PushRule (.pushReg16 a r) s a 2 ((s.getR32 r).setWidth 16) 0 ∧ PushRule (.pushReg32 a r) s a 4 (s.getR32 r) 0

/-- R294, R295: PUSH of an operand reads it first; its fault comes first, then the push of the value read. [D19, D21,
D23] -/
def Obligations.PushOperandRules : Prop :=
  ∀ (s : State) (a : Size) (src : RmOp),
    (∀ e, s.src16 src = .error e → exec (.pushRm16 a src) s = .fault e) ∧
    (∀ v, s.src16 src = .ok v → PushRule (.pushRm16 a src) s a 2 v 0) ∧
    (∀ e, s.src32 src = .error e → exec (.pushRm32 a src) s = .fault e) ∧
    (∀ v, s.src32 src = .ok v → PushRule (.pushRm32 a src) s a 4 v 0)

/-- R297 to R303: a segment register is pushed in two bytes, or in four of which the upper two are the free value of
that draw, `Config.freeUpperWord` at the counter, of which nothing is known (log entry 7). [D19, D22, D23, D30] -/
def Obligations.PushSegmentRules : Prop :=
  ∀ (s : State) (a : Size), ∀ p ∈ ([(.pushEs, .es), (.pushCs, .cs), (.pushSs, .ss), (.pushDs, .ds), (.pushFs, .fs),
      (.pushGs, .gs)] : List ((Size → Size → Instr) × SegReg)),
    PushRule (p.1 .s16 a) s a 2 (s.sreg.get p.2) 0 ∧
    PushRule (p.1 .s32 a) s a 4 (Config.freeUpperWord s.draws ++ s.sreg.get p.2) 1

/-- R304 to R306: PUSH imm8 pushes the byte sign-extended to the operand size, PUSH imm16 and imm32 the immediate.
[D19, D20, D23, D30] -/
def Obligations.PushImmediateRules : Prop :=
  ∀ (s : State) (a : Size) (i8 : BitVec 8) (i16 : BitVec 16) (i32 : BitVec 32),
    PushRule (.pushImm8 .s16 a i8) s a 2 (i8.signExtend 16) 0 ∧
    PushRule (.pushImm8 .s32 a i8) s a 4 (i8.signExtend 32) 0 ∧
    PushRule (.pushImm16 a i16) s a 2 i16 0 ∧ PushRule (.pushImm32 a i32) s a 4 i32 0

/-- R310 to R312: PUSHAW and PUSHAD store the eight registers, register 0 highest, the stack pointer's own value as it
was before; PUSHA is one of them by the mode. [D19, D23, D31, D33] -/
def Obligations.PushAllRules : Prop :=
  ∀ (s : State) (a : Size),
    PushAllRule (.pushaw a) s a 2 (fun k => (s.getR32 k).setWidth 16) ∧ PushAllRule (.pushad a) s a 4 s.getR32 ∧
    (s.cfg.mode = .s16 → PushAllRule (.pusha a) s a 2 (fun k => (s.getR32 k).setWidth 16)) ∧
    (s.cfg.mode = .s32 → PushAllRule (.pusha a) s a 4 s.getR32)

/-- R315 to R318: PUSHFW and PUSHFD push the flags as they are; PUSHF is one of them by the mode. [D18, D19, D23, D30]
-/
def Obligations.PushFlagsRules : Prop :=
  ∀ (s : State) (a : Size),
    PushRule (.pushfw a) s a 2 (s.flags.setWidth 16) 0 ∧ PushRule (.pushfd a) s a 4 s.flags 0 ∧
    (s.cfg.mode = .s16 → PushRule (.pushf a) s a 2 (s.flags.setWidth 16) 0) ∧
    (s.cfg.mode = .s32 → PushRule (.pushf a) s a 4 s.flags 0)
end

