-- ==== Sys2Proof/Laws/Encode.lean ====
section
/-!
SUPPORT. The decoder on encoded bytes, piece by piece: fields, displacements, memory operands, prefixes, and each
shape of instruction.
-/

namespace Sys2Proof

/-! ## Fields and little-endian values -/

@[simp] theorem modField_modrmByte (m : BitVec 2) (r k : BitVec 3) : modField (modrmByte m r k) = m := by
  revert m r k; decide

@[simp] theorem regField_modrmByte (m : BitVec 2) (r k : BitVec 3) : regField (modrmByte m r k) = r := by
  revert m r k; decide

@[simp] theorem rmField_modrmByte (m : BitVec 2) (r k : BitVec 3) : rmField (modrmByte m r k) = k := by
  revert m r k; decide

/-- A ModRM byte is its three fields (R107). -/
theorem modrmByte_fields (b : Byte) : modrmByte (modField b) (regField b) (rmField b) = b := by
  revert b; decide

@[simp] theorem take8_cons (b : Byte) (rest : List Byte) : take8 (b :: rest) = .ok (b, rest) := rfl

@[simp] theorem take16_bytes16 (v : BitVec 16) (rest : List Byte) : take16 (bytes16 v ++ rest) = .ok (v, rest) := by
  have : v.extractLsb' 8 8 ++ v.extractLsb' 0 8 = v := by
    refine BitVec.eq_of_getLsbD_eq fun i hi => ?_
    simp only [BitVec.getLsbD_append, BitVec.getLsbD_extractLsb']
    split
    · simp [*]
    · next h => rw [show 8 + (i - 8) = i by omega, decide_eq_true (show i - 8 < 8 by omega), Bool.true_and]
  simp only [bytes16, List.cons_append, List.nil_append, take16, this]

@[simp] theorem take32_bytes32 (v : BitVec 32) (rest : List Byte) : take32 (bytes32 v ++ rest) = .ok (v, rest) := by
  have : v.extractLsb' 24 8 ++ v.extractLsb' 16 8 ++ v.extractLsb' 8 8 ++ v.extractLsb' 0 8 = v := by
    refine BitVec.eq_of_getLsbD_eq fun i hi => ?_
    simp only [BitVec.getLsbD_append, BitVec.getLsbD_extractLsb']
    split
    · simp [*]
    · split
      · next h => rw [show 8 + (i - 8) = i by omega, decide_eq_true (show i - 8 < 8 by omega), Bool.true_and]
      · split
        · next h =>
          rw [show 16 + (i - 8 - 8) = i by omega, decide_eq_true (show i - 8 - 8 < 8 by omega), Bool.true_and]
        · next h =>
          rw [show 24 + (i - 8 - 8 - 8) = i by omega, decide_eq_true (show i - 8 - 8 - 8 < 8 by omega), Bool.true_and]
  simp only [bytes32, List.cons_append, List.nil_append, take32, this]

/-! ## Memory operands -/

/-- The segment override the encoder writes for an operand (R116). -/
def segOverride : RmOp → Option SegReg
  | .reg _ => none
  | .mem m => if m.seg = m.defaultSeg then none else some m.seg

theorem getD_segOverride (m : MemOp) : (segOverride (.mem m)).getD m.defaultSeg = m.seg := by
  simp only [segOverride]
  by_cases h : m.seg = m.defaultSeg <;> simp [h]

/-- The `mod` field of an encoded memory operand is not 3. -/
theorem encodeMem_mod (m : MemOp) : (encodeMem m).1 ≠ 3 := by
  cases m with
  | addr16 seg base disp => cases base <;> simp [encodeMem]
  | addr32 seg base index disp =>
    cases base with
    | none => cases index <;> simp [encodeMem]
    | some b => simp only [encodeMem]; split <;> simp

theorem base16OfRm_rmOfBase16 (base : Base16) :
    base16OfRm (if base = .abs then 0 else 2) (rmOfBase16 base) = base := by
  cases base <;> rfl

theorem decodeMem16_encodeMem (ovr : Option SegReg) (base : Base16) (disp : BitVec 16)
    (rest : List Byte) :
    decodeMem16 ovr (if base = .abs then 0 else 2) (rmOfBase16 base) (bytes16 disp ++ rest) =
      .ok (.addr16 (ovr.getD base.defaultSeg) base disp, rest) := by
  simp only [decodeMem16, base16OfRm_rmOfBase16, takeDisp16]
  rw [if_pos (by cases base <;> simp), take16_bytes16]

theorem indexOfSib_sibFields (index : Option SibIndex) (b : GpReg) (h : ∀ i, index = some i → i.reg ≠ 4) :
    indexOfSib (modrmByte (sibFields index).1 (sibFields index).2 b) = index := by
  cases index with
  | none => simp [indexOfSib, sibFields]
  | some i =>
    have hi : ¬ i.reg = 4#3 := h i rfl
    simp [indexOfSib, sibFields, hi]

/-- A memory operand decodes from its encoding, with the segment the override or the default gives (R113 to R116). -/
theorem decodeMem_encodeMem (ovr : Option SegReg) (m : MemOp) (hm : m.wellFormed = true)
    (hs : ovr.getD m.defaultSeg = m.seg) (rest : List Byte) :
    decodeMem m.size ovr (encodeMem m).1 (encodeMem m).2.1 ((encodeMem m).2.2 ++ rest) = .ok (m, rest) := by
  cases m with
  | addr16 seg base disp =>
    have := decodeMem16_encodeMem ovr base disp rest
    simp only [MemOp.defaultSeg, MemOp.seg] at hs
    rw [hs] at this
    exact this
  | addr32 seg base index disp =>
    simp only [MemOp.defaultSeg, MemOp.seg] at hs
    have hi : ∀ i, index = some i → i.reg ≠ 4 := by
      intro i e
      subst e
      simpa [MemOp.wellFormed] using hm
    cases base with
    | none =>
      cases index with
      | none => simp [MemOp.size, encodeMem, decodeMem, decodeMem32, finishMem32, baseOfRm, takeDisp32, hs]
      | some i =>
        have : ¬ i.reg = 4#3 := hi i rfl
        simp [MemOp.size, encodeMem, decodeMem, decodeMem32, finishMem32, baseOfRm, takeDisp32, indexOfSib, this, hs]
    | some b =>
      simp only [MemOp.size, encodeMem, decodeMem, decodeMem32]
      split
      · next h =>
        obtain ⟨rfl, hb⟩ := h
        have hb : ¬ b = 4#3 := hb
        simp [hb, finishMem32, baseOfRm, takeDisp32, hs]
      · next h =>
        simp [finishMem32, baseOfRm, takeDisp32, indexOfSib_sibFields index b hi, hs]

/-- An `r/m` operand decodes from its encoding, at any address size its memory form has (R105). -/
theorem decodeRm_encodeRm (a : Size) (reg : BitVec 3) (rm : RmOp) (hw : rm.wellFormed = true) (hf : rm.fits a = true)
    (rest : List Byte) :
    ∃ modrm tail, encodeRm reg rm = modrm :: tail ∧ regField modrm = reg ∧
      decodeRm a (segOverride rm) modrm (tail ++ rest) = .ok (rm, rest) := by
  cases rm with
  | reg r => exact ⟨_, [], rfl, by simp, by simp [decodeRm]⟩
  | mem m =>
    refine ⟨_, _, rfl, by simp, ?_⟩
    simp only [RmOp.fits, decide_eq_true_eq] at hf
    subst hf
    simp only [decodeRm, modField_modrmByte, rmField_modrmByte, if_neg (encodeMem_mod m),
      decodeMem_encodeMem _ m hw (getD_segOverride m) rest]

/-- The same where only a memory operand follows (R129). -/
theorem decodeMem_encodeRm (reg : BitVec 3) (m : MemOp) (hw : m.wellFormed = true) (rest : List Byte) :
    ∃ modrm tail, encodeRm reg (.mem m) = modrm :: tail ∧ regField modrm = reg ∧ modField modrm ≠ 3 ∧
      decodeMem m.size (segOverride (.mem m)) (modField modrm) (rmField modrm) (tail ++ rest) = .ok (m, rest) := by
  refine ⟨_, _, rfl, by simp, by simpa using encodeMem_mod m, ?_⟩
  simp only [modField_modrmByte, rmField_modrmByte, decodeMem_encodeMem _ m hw (getD_segOverride m) rest]

/-! ## Prefixes -/

/-- The overrides the encoder writes, as bytes: operand size, address size, segment. -/
def overrideBytes (o a : Bool) (sg : Option SegReg) : List Byte :=
  (if o then [0x66] else []) ++ (if a then [0x67] else []) ++ (sg.map segByte).toList

/-- The override bytes are read as what they are (R102, R103). -/
theorem scanPrefixes_overrideBytes (o a : Bool) (sg : Option SegReg) (op : Byte) (rest : List Byte)
    (h : prefixKind op = none) :
    scanPrefixes .empty (overrideBytes o a sg ++ op :: rest) =
      .ok ({ opsize := o, addrsize := a, seg := sg, refused := false }, op :: rest) := by
  have stop : ∀ p, scanPrefixes p (op :: rest) = .ok (p, op :: rest) := fun p => by
    rw [scanPrefixes, h]
  cases o <;> cases a <;> rcases sg with _ | x <;> (try cases x) <;> exact stop _

/-- What the decoder sees after the override bytes of an instruction. -/
theorem decodeParts_overrideBytes (mode : Size) (o a : Bool) (sg : Option SegReg) (op : Byte) (rest : List Byte)
    (h : prefixKind op = none) :
    decodeParts mode (overrideBytes o a sg ++ op :: rest) =
      decodeOpcode { opsize := o, addrsize := a, seg := sg, refused := false } (sizeAttr mode o) (sizeAttr mode a)
        op rest := by
  rw [decodeParts, scanPrefixes_overrideBytes o a sg op rest h]
  rfl

theorem segPrefix_eq (rm : RmOp) : segPrefix rm = ((segOverride rm).map segByte).toList := by
  cases rm with
  | reg r => rfl
  | mem m => simp only [segPrefix, segOverride]; split <;> rfl

theorem addrPrefix_eq (mode a : Size) : addrPrefix mode a = if decide (a ≠ mode) then [0x67] else [] := by
  unfold addrPrefix; split <;> simp_all

theorem opPrefix_eq (mode o : Size) : opPrefix mode o = if decide (o ≠ mode) then [0x66] else [] := by
  unfold opPrefix; split <;> simp_all

@[simp] theorem sizeAttr_decide_ne (mode a : Size) : sizeAttr mode (decide (a ≠ mode)) = a := by
  cases mode <;> cases a <;> rfl

@[simp] theorem sizeAttr_false (mode : Size) : sizeAttr mode false = mode := rfl

theorem basePrefixes_eq (mode o a : Size) (sg : Option SegReg) :
    basePrefixes mode o a ++ (sg.map segByte).toList =
      overrideBytes (decide (o ≠ mode)) (decide (a ≠ mode)) sg := by
  rw [basePrefixes, opPrefix_eq, addrPrefix_eq, overrideBytes]

/-! ## Instructions by shape -/

/-- From the parts to the decoder's answer: the length is what the instruction took. -/
theorem decode_of_decodeParts {mode : Size} {bs rest : List Byte} {i : Instr}
    (h : decodeParts mode (bs ++ rest) = .ok (i, rest)) : decode mode (bs ++ rest) = .instr i bs.length := by
  rw [decode, h]
  simp

/-- A two-byte opcode that is no push. -/
def isMmxOpcode (op : Byte) : Prop := op ≠ 0xA0 ∧ op ≠ 0xA8

theorem decodeOpcode_0F (p : Prefixes) (o a : Size) (bs : List Byte) :
    decodeOpcode p o a 0x0F bs = decodeTwoByte p o a bs := if_pos rfl

theorem decodeTwoByte_mmx {p : Prefixes} {o a : Size} {op : Byte} {row : TwoByteRow} (hop : isMmxOpcode op)
    (hrow : mmxRow op = some row) (hp : p.opsize = false) (rest : List Byte) :
    decodeTwoByte p o a (op :: rest) = decodeMmxRow a p.seg row rest := by
  rw [decodeTwoByte, if_neg hop.1, if_neg hop.2, hrow]
  simp [hp]

/-- The address size the decoder computes for an encoded MMX operand. -/
theorem rmAddrPrefix_eq (mode : Size) (rm : RmOp) :
    ∃ a : Bool, rmAddrPrefix mode rm = (if a then [0x67] else []) ∧ rm.fits (sizeAttr mode a) = true := by
  cases rm with
  | reg r => exact ⟨false, rfl, rfl⟩
  | mem m =>
    refine ⟨decide (m.size ≠ mode), addrPrefix_eq mode m.size, ?_⟩
    simp only [RmOp.fits, sizeAttr_decide_ne, decide_true]

theorem encodeMmxRm_eq (mode : Size) (op : Byte) (reg : BitVec 3) (rm : RmOp) :
    ∃ a : Bool, rm.fits (sizeAttr mode a) = true ∧
      encodeMmxRm mode op reg rm = overrideBytes false a (segOverride rm) ++ 0x0F :: op :: encodeRm reg rm := by
  obtain ⟨a, ha, hf⟩ := rmAddrPrefix_eq mode rm
  exact ⟨a, hf, by simp [encodeMmxRm, overrideBytes, ha, segPrefix_eq]⟩

/-- An instruction with an `r/m` operand decodes from its encoding. -/
theorem decode_encodeMmxRm {mode : Size} {op : Byte} {f : BitVec 3 → RmOp → Instr} {reg : BitVec 3} {rm : RmOp}
    (hop : isMmxOpcode op) (hrow : mmxRow op = some (.regRm f)) (hw : rm.wellFormed = true) (rest : List Byte) :
    decode mode (encodeMmxRm mode op reg rm ++ rest) = .instr (f reg rm) (encodeMmxRm mode op reg rm).length := by
  apply decode_of_decodeParts
  obtain ⟨a, hf, he⟩ := encodeMmxRm_eq mode op reg rm
  obtain ⟨modrm, tail, hm, hr, hd⟩ := decodeRm_encodeRm (sizeAttr mode a) reg rm hw hf rest
  rw [he, hm]
  simp only [List.append_assoc, List.cons_append]
  rw [decodeParts_overrideBytes _ _ _ _ _ _ rfl, decodeOpcode_0F, decodeTwoByte_mmx hop hrow rfl]
  simp only [decodeMmxRow, take8_cons, hd, hr]

/-- An instruction with a memory operand only decodes from its encoding. -/
theorem decode_encodeMmxMem {mode : Size} {op : Byte} {f : BitVec 3 → MemOp → Instr} {reg : BitVec 3} {m : MemOp}
    (hop : isMmxOpcode op) (hrow : mmxRow op = some (.regMem f)) (hw : m.wellFormed = true) (rest : List Byte) :
    decode mode (encodeMmxRm mode op reg (.mem m) ++ rest) =
      .instr (f reg m) (encodeMmxRm mode op reg (.mem m)).length := by
  apply decode_of_decodeParts
  obtain ⟨a, hf, he⟩ := encodeMmxRm_eq mode op reg (.mem m)
  obtain ⟨modrm, tail, hm, hr, hmod, hd⟩ := decodeMem_encodeRm reg m hw rest
  have ha : sizeAttr mode a = m.size := by simpa [RmOp.fits, eq_comm] using hf
  rw [he, hm]
  simp only [List.append_assoc, List.cons_append]
  rw [decodeParts_overrideBytes _ _ _ _ _ _ rfl, decodeOpcode_0F, decodeTwoByte_mmx hop hrow rfl]
  simp only [decodeMmxRow, take8_cons, if_neg hmod, ha, hd, hr]

/-- A shift by an immediate count decodes from its encoding (R130). -/
theorem decode_shiftImm {mode : Size} {op : Byte} {g : BitVec 3 → Option (MmReg → BitVec 8 → Instr)}
    {digit : BitVec 3} {f : MmReg → BitVec 8 → Instr} {reg : MmReg} {ib : BitVec 8}
    (hop : isMmxOpcode op) (hrow : mmxRow op = some (.shiftGroup g)) (hg : g digit = some f) (rest : List Byte) :
    decode mode ([0x0F, op, modrmByte 3 digit reg, ib] ++ rest) = .instr (f reg ib) 4 := by
  refine decode_of_decodeParts (bs := [0x0F, op, modrmByte 3 digit reg, ib]) ?_
  have := decodeParts_overrideBytes mode false false none 0x0F (op :: modrmByte 3 digit reg :: ib :: rest) rfl
  refine Eq.trans this ?_
  rw [decodeOpcode_0F, decodeTwoByte_mmx hop hrow rfl]
  simp [decodeMmxRow, hg]

/-- A push decodes from its prefixes and opcode when the opcode's decoding does (R104, R105). -/
theorem decode_basePrefixes {mode o a : Size} {sg : Option SegReg} {op : Byte} {tail : List Byte} {i : Instr}
    (hop : prefixKind op = none) (rest : List Byte)
    (h : ∀ p : Prefixes, p.seg = sg → decodeOpcode p o a op (tail ++ rest) = .ok (i, rest)) :
    decode mode (basePrefixes mode o a ++ (sg.map segByte).toList ++ op :: tail ++ rest) =
      .instr i (basePrefixes mode o a ++ (sg.map segByte).toList ++ op :: tail).length := by
  apply decode_of_decodeParts
  rw [basePrefixes_eq, List.append_assoc, List.cons_append, decodeParts_overrideBytes _ _ _ _ _ _ hop,
    sizeAttr_decide_ne, sizeAttr_decide_ne]
  exact h _ rfl

/-- `50+r` is an opcode of its own (R128). -/
theorem pushReg_opcode (r : GpReg) :
    (0b01010#5 ++ r : Byte) ≠ 0x0F ∧ (0b01010#5 ++ r : Byte) ≠ 0x06 ∧ (0b01010#5 ++ r : Byte) ≠ 0x0E ∧
    (0b01010#5 ++ r : Byte) ≠ 0x16 ∧ (0b01010#5 ++ r : Byte) ≠ 0x1E ∧
    (0b01010#5 ++ r : Byte).extractLsb' 3 5 = 0b01010 ∧ rmField (0b01010#5 ++ r) = r ∧
    prefixKind (0b01010#5 ++ r) = none := by
  revert r; decide

end Sys2Proof
end

