-- ==== Sys2Proof/Laws/Decode.lean ====
section
/-!
SUPPORT. The decoder on any bytes: what a reading function consumes, that it looks at nothing after that, how many bytes
each part can take, and that a decoded operand is well formed.
-/

namespace Sys2Proof

/-- A reading function that consumes at most `hi` bytes, looks at nothing after them, whose results satisfy `P`, whose
named rejections do not depend on what follows, and that never wants more than `hi` bytes. -/
structure Reads {α : Type} (hi : Nat) (P : α → Prop) (p : List Byte → Except Reject (α × List Byte)) : Prop where
  ok : ∀ bs v r, p bs = .ok (v, r) →
    P v ∧ ∃ c, bs = c ++ r ∧ c.length ≤ hi ∧ ∀ rest, p (c ++ rest) = .ok (v, rest)
  error : ∀ bs e, p bs = .error e → e ≠ .truncated → ∀ rest, p (bs ++ rest) = .error e
  short : ∀ bs, p bs = .error .truncated → bs.length < hi

theorem Reads.mono {α : Type} {hi hi' : Nat} {P Q : α → Prop} {p : List Byte → Except Reject (α × List Byte)}
    (h : Reads hi P p) (hh : hi ≤ hi') (hPQ : ∀ v, P v → Q v) : Reads hi' Q p where
  ok bs v r e := by
    obtain ⟨hP, c, h1, h2, h3⟩ := h.ok bs v r e
    exact ⟨hPQ v hP, c, h1, by omega, h3⟩
  error := h.error
  short bs e := lt_of_lt_of_le (h.short bs e) hh

theorem Reads.pure {α : Type} (v : α) {P : α → Prop} (hv : P v) : Reads 0 P fun bs => .ok (v, bs) where
  ok bs v' r e := by cases e; exact ⟨hv, [], rfl, le_refl _, fun _ => rfl⟩
  error bs e h := by cases h
  short bs h := by cases h

theorem Reads.reject {α : Type} (e : Reject) (P : α → Prop) (he : e ≠ .truncated) :
    Reads (α := α) 0 P fun _ => .error e where
  ok bs v r h := by cases h
  error bs e' h _ _ := by cases h; rfl
  short bs h := by cases h; exact absurd rfl he

/-- Reading one part, then another that depends on it. -/
theorem Reads.bind {α β : Type} {h₁ h₂ hi : Nat} {P : α → Prop} {Q : β → Prop}
    {p : List Byte → Except Reject (α × List Byte)} (q : α → List Byte → Except Reject (β × List Byte))
    {F : List Byte → Except Reject (β × List Byte)} (hp : Reads h₁ P p) (hq : ∀ a, P a → Reads h₂ Q (q a))
    (hF : ∀ bs a r, p bs = .ok (a, r) → F bs = q a r) (hF' : ∀ bs e, p bs = .error e → F bs = .error e)
    (hh : h₁ + h₂ ≤ hi) : Reads hi Q F where
  ok bs v r h := by
    cases hpa : p bs with
    | error e => rw [hF' _ _ hpa] at h; cases h
    | ok x =>
      obtain ⟨a, r'⟩ := x
      rw [hF _ _ _ hpa] at h
      obtain ⟨hP, c, rfl, hc, hc'⟩ := hp.ok _ _ _ hpa
      obtain ⟨hQ, d, rfl, hd, hd'⟩ := (hq a hP).ok _ _ _ h
      refine ⟨hQ, c ++ d, by simp, by simp; omega, fun rest => ?_⟩
      rw [List.append_assoc, hF _ _ _ (hc' (d ++ rest))]
      exact hd' rest
  error bs e h he rest := by
    cases hpa : p bs with
    | error e' =>
      rw [hF' _ _ hpa] at h
      cases h
      exact hF' _ _ (hp.error _ _ hpa he rest)
    | ok x =>
      obtain ⟨a, r'⟩ := x
      rw [hF _ _ _ hpa] at h
      obtain ⟨hP, c, rfl, hc, hc'⟩ := hp.ok _ _ _ hpa
      rw [List.append_assoc, hF _ _ _ (hc' (r' ++ rest))]
      exact (hq a hP).error _ _ h he rest
  short bs h := by
    cases hpa : p bs with
    | error e' =>
      rw [hF' _ _ hpa] at h
      cases h
      exact lt_of_lt_of_le (hp.short _ hpa) (by omega)
    | ok x =>
      obtain ⟨a, r'⟩ := x
      rw [hF _ _ _ hpa] at h
      obtain ⟨hP, c, rfl, hc, -⟩ := hp.ok _ _ _ hpa
      have := (hq a hP).short _ h
      rw [List.length_append]; omega

/-- Reading one part and wrapping it. -/
theorem Reads.map {α β : Type} {hi : Nat} {P : α → Prop} {Q : β → Prop}
    {p : List Byte → Except Reject (α × List Byte)} (f : α → β) {F : List Byte → Except Reject (β × List Byte)}
    (hp : Reads hi P p) (hf : ∀ a, P a → Q (f a))
    (hF : ∀ bs a r, p bs = .ok (a, r) → F bs = .ok (f a, r)) (hF' : ∀ bs e, p bs = .error e → F bs = .error e) :
    Reads hi Q F :=
  Reads.bind (fun a r => .ok (f a, r)) hp (fun a ha => Reads.pure (f a) (hf a ha)) hF hF' (le_refl _)

theorem Reads.ite {α : Type} {hi : Nat} {P : α → Prop} (c : Prop) [Decidable c]
    {p q : List Byte → Except Reject (α × List Byte)} (hp : c → Reads hi P p) (hq : ¬ c → Reads hi P q) :
    Reads hi P fun bs => if c then p bs else q bs := by
  by_cases h : c
  · simpa only [if_pos h] using hp h
  · simpa only [if_neg h] using hq h

theorem Reads.congr {α : Type} {hi : Nat} {P : α → Prop} {p q : List Byte → Except Reject (α × List Byte)}
    (h : Reads hi P p) (e : ∀ bs, q bs = p bs) : Reads hi P q := by
  rwa [show q = p from funext e]

/-! ## The parts of an instruction -/

theorem reads_take8 : Reads 1 (fun _ => True) take8 where
  ok bs v r h := by
    cases bs with
    | nil => cases h
    | cons b bs => cases h; exact ⟨trivial, [v], rfl, le_refl _, fun _ => rfl⟩
  error bs e h he := by
    cases bs with
    | nil => cases h; exact absurd rfl he
    | cons b bs => cases h
  short bs h := by
    cases bs with
    | nil => exact Nat.one_pos
    | cons b bs => cases h

/-- Reading one byte, then what depends on it. -/
theorem Reads.head {α : Type} {n hi : Nat} {P : α → Prop} {F : List Byte → Except Reject (α × List Byte)}
    (h0 : F [] = .error .truncated) (h : ∀ b, Reads n P fun bs => F (b :: bs)) (hh : n + 1 ≤ hi) : Reads hi P F :=
  Reads.bind (fun b bs => F (b :: bs)) reads_take8 (fun b _ => h b)
    (fun bs b r e => by cases bs with
      | nil => cases e
      | cons b bs => cases e; rfl)
    (fun bs e he => by cases bs with
      | nil => cases he; exact h0
      | cons b bs => cases he)
    (by omega)

/-- A part that consumes nothing. -/
theorem Reads.answer {α : Type} {hi : Nat} {P : α → Prop} {F : List Byte → Except Reject (α × List Byte)} (v : α)
    (hv : P v) (hF : ∀ bs, F bs = .ok (v, bs)) : Reads hi P F :=
  ((Reads.pure v hv).mono (Nat.zero_le _) fun _ h => h).congr hF

/-- A part that is rejected. -/
theorem Reads.refuse {α : Type} {hi : Nat} {P : α → Prop} {F : List Byte → Except Reject (α × List Byte)} (e : Reject)
    (hF : ∀ bs, F bs = .error e) (he : e ≠ .truncated := by decide) : Reads hi P F :=
  ((Reads.reject e P he).mono (Nat.zero_le _) fun _ h => h).congr hF

theorem reads_take16 : Reads 2 (fun _ => True) take16 where
  ok bs v r h := by
    rcases bs with _ | ⟨b0, _ | ⟨b1, bs⟩⟩
    · cases h
    · cases h
    · cases h; exact ⟨trivial, [b0, b1], rfl, le_refl _, fun _ => rfl⟩
  error bs e h he := by
    rcases bs with _ | ⟨b0, _ | ⟨b1, bs⟩⟩
    · cases h; exact absurd rfl he
    · cases h; exact absurd rfl he
    · cases h
  short bs h := by
    rcases bs with _ | ⟨b0, _ | ⟨b1, bs⟩⟩
    iterate 2 · simp
    · cases h

theorem reads_take32 : Reads 4 (fun _ => True) take32 where
  ok bs v r h := by
    rcases bs with _ | ⟨b0, _ | ⟨b1, _ | ⟨b2, _ | ⟨b3, bs⟩⟩⟩⟩
    iterate 4 · cases h
    · cases h; exact ⟨trivial, [b0, b1, b2, b3], rfl, le_refl _, fun _ => rfl⟩
  error bs e h he := by
    rcases bs with _ | ⟨b0, _ | ⟨b1, _ | ⟨b2, _ | ⟨b3, bs⟩⟩⟩⟩
    iterate 4 · cases h; exact absurd rfl he
    · cases h
  short bs h := by
    rcases bs with _ | ⟨b0, _ | ⟨b1, _ | ⟨b2, _ | ⟨b3, bs⟩⟩⟩⟩
    iterate 4 · simp
    · cases h

theorem reads_takeDisp16 (mod : BitVec 2) (base : Base16) : Reads 2 (fun _ => True) (takeDisp16 mod base) := by
  refine Reads.ite (base = .abs ∨ mod = 2) (fun _ => reads_take16) (fun _ => ?_)
  refine Reads.ite (mod = 1) (fun _ => ?_) (fun _ => ?_)
  · exact (Reads.map (Q := fun _ => True) (fun d => d.signExtend 16) reads_take8 (fun _ _ => trivial)
      (fun bs a r h => by simp [h]) (fun bs e h => by simp [h])).mono (by decide) fun _ _ => trivial
  · exact (Reads.pure (P := fun _ => True) 0 trivial).mono (by decide) fun _ _ => trivial

theorem reads_takeDisp32 (mod : BitVec 2) (base : Option GpReg) : Reads 4 (fun _ => True) (takeDisp32 mod base) := by
  refine Reads.ite (base = none ∨ mod = 2) (fun _ => reads_take32) (fun _ => ?_)
  refine Reads.ite (mod = 1) (fun _ => ?_) (fun _ => ?_)
  · exact (Reads.map (Q := fun _ => True) (fun d => d.signExtend 32) reads_take8 (fun _ _ => trivial)
      (fun bs a r h => by simp [h]) (fun bs e h => by simp [h])).mono (by decide) fun _ _ => trivial
  · exact (Reads.pure (P := fun _ => True) 0 trivial).mono (by decide) fun _ _ => trivial

/-- A memory operand as the decoder delivers it: well formed, of the address size, in the override's segment or the
default one (R105, R114, R116). -/
def goodMem (a : Size) (ovr : Option SegReg) (m : MemOp) : Prop :=
  m.wellFormed = true ∧ m.size = a ∧ m.seg = ovr.getD m.defaultSeg

theorem reads_finishMem32 (ovr : Option SegReg) (mod : BitVec 2) (base : Option GpReg) (index : Option SibIndex)
    (h : ∀ i, index = some i → i.reg ≠ 4) : Reads 4 (goodMem .s32 ovr) (finishMem32 ovr mod base index) := by
  refine Reads.map (fun disp => MemOp.addr32 (ovr.getD (defaultSeg32 base)) base index disp)
    (reads_takeDisp32 mod base) (fun disp _ => ⟨?_, rfl, rfl⟩) (fun bs a r h => by simp [finishMem32, h])
    (fun bs e h => by simp [finishMem32, h])
  cases index with
  | none => rfl
  | some i => simpa [MemOp.wellFormed] using h i rfl

theorem indexOfSib_reg_ne {sib : Byte} {i : SibIndex} (h : indexOfSib sib = some i) : i.reg ≠ 4 := by
  unfold indexOfSib at h
  split at h
  · cases h
  · next hne => cases h; exact hne

theorem reads_decodeMem32 (ovr : Option SegReg) (mod : BitVec 2) (rm : BitVec 3) :
    Reads 5 (goodMem .s32 ovr) (decodeMem32 ovr mod rm) := by
  refine Reads.ite (rm = 4) (fun _ => ?_) (fun _ => ?_)
  · exact Reads.bind (fun sib bs => finishMem32 ovr mod (baseOfRm mod (rmField sib)) (indexOfSib sib) bs) reads_take8
      (fun sib _ => reads_finishMem32 _ _ _ _ fun _ h => indexOfSib_reg_ne h) (fun bs a r h => by simp [h])
      (fun bs e h => by simp [h]) (by decide)
  · exact (reads_finishMem32 _ _ _ _ (fun i h => by cases h)).mono (by decide) fun _ h => h

theorem reads_decodeMem16 (ovr : Option SegReg) (mod : BitVec 2) (rm : BitVec 3) :
    Reads 2 (goodMem .s16 ovr) (decodeMem16 ovr mod rm) :=
  Reads.map (fun disp => MemOp.addr16 (ovr.getD (base16OfRm mod rm).defaultSeg) (base16OfRm mod rm) disp)
    (reads_takeDisp16 mod (base16OfRm mod rm)) (fun _ _ => ⟨rfl, rfl, rfl⟩) (fun bs a r h => by simp [decodeMem16, h])
    (fun bs e h => by simp [decodeMem16, h])

theorem reads_decodeMem (a : Size) (ovr : Option SegReg) (mod : BitVec 2) (rm : BitVec 3) :
    Reads 5 (goodMem a ovr) (decodeMem a ovr mod rm) := by
  cases a
  · exact (reads_decodeMem16 ovr mod rm).mono (by omega) fun _ h => h
  · exact reads_decodeMem32 ovr mod rm

/-- An `r/m` operand as the decoder delivers it. -/
def goodRm (a : Size) (rm : RmOp) : Prop := rm.wellFormed = true ∧ rm.fits a = true

theorem reads_decodeRm (a : Size) (ovr : Option SegReg) (modrm : Byte) :
    Reads 5 (goodRm a) (decodeRm a ovr modrm) := by
  refine Reads.ite (modField modrm = 3) (fun _ => ?_) (fun _ => ?_)
  · exact (Reads.pure (P := goodRm a) (.reg (rmField modrm)) ⟨rfl, rfl⟩).mono (by omega) fun _ h => h
  · exact Reads.map RmOp.mem (reads_decodeMem a ovr (modField modrm) (rmField modrm))
      (fun m hm => ⟨hm.1, by simpa [RmOp.fits] using hm.2.1⟩) (fun bs a r h => by simp [h]) (fun bs e h => by simp [h])

/-! ## Instructions -/

/-- A row of the two-byte map gives well-formed instructions from well-formed operands. -/
def goodRow : TwoByteRow → Prop
  | .emms => True
  | .regRm f => ∀ r m, m.wellFormed = true → (f r m).wellFormed = true
  | .regMem f => ∀ r m, m.wellFormed = true → (f r m).wellFormed = true
  | .shiftGroup f => ∀ digit g r ib, f digit = some g → (g r ib).wellFormed = true

theorem goodRow_shiftGroups :
    goodRow (.shiftGroup shiftGroupW) ∧ goodRow (.shiftGroup shiftGroupD) ∧ goodRow (.shiftGroup shiftGroupQ) := by
  refine ⟨fun digit g r ib h => ?_, fun digit g r ib h => ?_, fun digit g r ib h => ?_⟩
  · unfold shiftGroupW at h
    repeat' split at h
    all_goals first | cases h; rfl | cases h
  · unfold shiftGroupD at h
    repeat' split at h
    all_goals first | cases h; rfl | cases h
  · unfold shiftGroupQ at h
    repeat' split at h
    all_goals first | cases h; rfl | cases h

theorem mem_of_lookup {α β : Type} [BEq α] [LawfulBEq α] {k : α} {v : β} {l : List (α × β)}
    (h : l.lookup k = some v) : (k, v) ∈ l := by
  induction l with
  | nil => cases h
  | cons c l ih =>
    obtain ⟨k', v'⟩ := c
    rw [List.lookup_cons] at h
    split at h
    · next e => cases h; rw [beq_iff_eq.1 e]; exact List.mem_cons_self ..
    · exact List.mem_cons_of_mem _ (ih h)

theorem goodRow_mmxTable : ∀ e ∈ mmxTable, goodRow e.2 := by
  obtain ⟨hw, hd, hq⟩ := goodRow_shiftGroups
  unfold mmxTable
  repeat' first
    | exact List.forall_mem_nil _
    | refine List.forall_mem_cons.2 ⟨?_, ?_⟩
    | assumption
    | exact trivial
    | exact fun _ _ h => h

theorem goodRow_of_mmxRow {op : Byte} {row : TwoByteRow} (h : mmxRow op = some row) : goodRow row :=
  goodRow_mmxTable _ (mem_of_lookup h)

theorem reads_decodeMmxRow (a : Size) (ovr : Option SegReg) (row : TwoByteRow) (h : goodRow row) :
    Reads 6 (fun i => i.wellFormed = true) (decodeMmxRow a ovr row) := by
  cases row with
  | emms => exact Reads.answer .emms rfl fun _ => rfl
  | regRm f =>
    refine Reads.head rfl (fun modrm => ?_) (le_refl _)
    exact Reads.map (f (regField modrm)) (reads_decodeRm a ovr modrm) (fun rm hrm => h _ _ hrm.1)
      (fun bs m r e => by simp [decodeMmxRow, e]) (fun bs e e' => by simp [decodeMmxRow, e'])
  | regMem f =>
    refine Reads.head rfl (fun modrm => ?_) (le_refl _)
    by_cases hmod : modField modrm = 3
    · exact Reads.refuse .invalidOpcode fun _ => if_pos hmod
    · exact Reads.map (f (regField modrm)) (reads_decodeMem a ovr (modField modrm) (rmField modrm))
        (fun m hm => h _ _ hm.1) (fun bs m r e => (if_neg hmod).trans (by simp [e]))
        (fun bs e e' => (if_neg hmod).trans (by simp [e']))
  | shiftGroup f =>
    refine Reads.head (n := 1) rfl (fun modrm => ?_) (by decide)
    by_cases hmod : modField modrm = 3
    · cases hg : f (regField modrm) with
      | none => exact Reads.refuse .invalidOpcode fun _ => (if_pos hmod).trans (by simp [hg])
      | some g =>
        exact Reads.map (g (rmField modrm)) reads_take8 (fun ib _ => h _ _ _ _ hg)
          (fun bs m r e => (if_pos hmod).trans (by simp [hg, e]))
          (fun bs e e' => (if_pos hmod).trans (by simp [hg, e']))
    · exact Reads.refuse .invalidOpcode fun _ => if_neg hmod

/-- After `0F`: with the prefix 66 only the one-byte tails of PUSH FS and PUSH GS are left. -/
theorem reads_decodeTwoByte (p : Prefixes) (o a : Size) :
    Reads (if p.opsize then 1 else 7) (fun i => i.wellFormed = true) (decodeTwoByte p o a) := by
  refine Reads.head (n := if p.opsize then 0 else 6) rfl (fun op => ?_) (by split <;> decide)
  by_cases h1 : op = 0xA0
  · exact Reads.answer (.pushFs o a) rfl fun _ => if_pos h1
  · by_cases h2 : op = 0xA8
    · exact Reads.answer (.pushGs o a) rfl fun _ => (if_neg h1).trans (if_pos h2)
    · cases hr : mmxRow op with
      | none => exact Reads.refuse .notInScope fun _ => (if_neg h1).trans ((if_neg h2).trans (by simp [hr]))
      | some row =>
        cases hp : p.opsize
        · exact (reads_decodeMmxRow a p.seg row (goodRow_of_mmxRow hr)).congr fun _ =>
            (if_neg h1).trans ((if_neg h2).trans (by simp [hr, hp]))
        · exact Reads.refuse .prefixNotInScope fun _ => (if_neg h1).trans ((if_neg h2).trans (by simp [hr, hp]))

theorem reads_decodePushImm (o a : Size) : Reads 4 (fun i => i.wellFormed = true) (decodePushImm o a) := by
  cases o
  · exact (Reads.map (Q := fun i => i.wellFormed = true) (Instr.pushImm16 a) reads_take16 (fun v _ => rfl)
      (fun bs m r h => by simp [decodePushImm, h]) (fun bs e h => by simp [decodePushImm, h])).mono (by decide) fun _ h => h
  · exact Reads.map (Instr.pushImm32 a) reads_take32 (fun v _ => rfl)
      (fun bs m r h => by simp [decodePushImm, h]) (fun bs e h => by simp [decodePushImm, h])

theorem reads_decodePushImm8 (o a : Size) : Reads 1 (fun i => i.wellFormed = true) (decodePushImm8 o a) :=
  Reads.map (Instr.pushImm8 o a) reads_take8 (fun v _ => rfl) (fun bs m r h => by simp [decodePushImm8, h])
    (fun bs e h => by simp [decodePushImm8, h])

theorem reads_decodeGroupFF (o a : Size) (ovr : Option SegReg) :
    Reads 6 (fun i => i.wellFormed = true) (decodeGroupFF o a ovr) := by
  refine Reads.head rfl (fun modrm => ?_) (le_refl _)
  by_cases h6 : regField modrm = 6
  · cases o
    · exact Reads.map (Instr.pushRm16 a) (reads_decodeRm a ovr modrm)
        (fun rm hrm => by simp [Instr.wellFormed, hrm.1, hrm.2]) (fun bs m r h => (if_pos h6).trans (by simp [h]))
        (fun bs e h => (if_pos h6).trans (by simp [h]))
    · exact Reads.map (Instr.pushRm32 a) (reads_decodeRm a ovr modrm)
        (fun rm hrm => by simp [Instr.wellFormed, hrm.1, hrm.2]) (fun bs m r h => (if_pos h6).trans (by simp [h]))
        (fun bs e h => (if_pos h6).trans (by simp [h]))
  · exact Reads.refuse .notInScope fun _ => if_neg h6

/-- Everything after the opcode byte: at most six bytes, seven after `0F` without the prefix 66. -/
theorem reads_decodeOpcode (p : Prefixes) (o a : Size) (op : Byte) :
    Reads (if p.opsize then 6 else 7) (fun i => i.wellFormed = true) (decodeOpcode p o a op) := by
  have six : ∀ {q : List Byte → Except Reject (Instr × List Byte)} {n : Nat}, n ≤ 6 →
      Reads n (fun i => i.wellFormed = true) q →
      Reads (if p.opsize then 6 else 7) (fun i => i.wellFormed = true) q := fun hn hq =>
    hq.mono (by split <;> omega) fun _ h => h
  have push : ∀ i : Instr, i.wellFormed = true →
      Reads (if p.opsize then 6 else 7) (fun i => i.wellFormed = true) fun bs => .ok (i, bs) := fun i hi =>
    six (n := 0) (by omega) (Reads.pure i hi)
  unfold decodeOpcode
  refine Reads.ite _ (fun _ => (reads_decodeTwoByte p o a).mono (by split <;> omega) fun _ h => h) (fun _ => ?_)
  iterate 4 refine Reads.ite _ (fun _ => push _ rfl) (fun _ => ?_)
  refine Reads.ite _ (fun _ => by cases o <;> exact push _ rfl) (fun _ => ?_)
  refine Reads.ite _ (fun _ => by cases o <;> exact push _ rfl) (fun _ => ?_)
  refine Reads.ite _ (fun _ => six (by omega) (reads_decodePushImm o a)) (fun _ => ?_)
  refine Reads.ite _ (fun _ => six (by omega) (reads_decodePushImm8 o a)) (fun _ => ?_)
  refine Reads.ite _ (fun _ => by cases o <;> exact push _ rfl) (fun _ => ?_)
  exact Reads.ite _ (fun _ => six (by omega) (reads_decodeGroupFF o a p.seg))
    (fun _ => six (by omega) (Reads.reject _ _ (by decide)))

/-! ## Prefixes -/

/-- How many prefixes have been read, when they are accepted together. -/
def Prefixes.count (p : Prefixes) : Nat := p.opsize.toNat + p.addrsize.toNat + p.seg.isSome.toNat

theorem Prefixes.count_le (p : Prefixes) : p.count ≤ (if p.opsize then 3 else 2) := by
  unfold Prefixes.count
  have h2 := Bool.toNat_le p.addrsize
  have h3 := Bool.toNat_le p.seg.isSome
  cases p.opsize <;> simp <;> omega

/-- A refused combination stays refused (R103). -/
theorem Prefixes.add_refused (p : Prefixes) (k : PrefixKind) (h : p.refused = true) : (p.add k).refused = true := by
  cases k <;> simp [Prefixes.add, h]

theorem Prefixes.count_add (p : Prefixes) (k : PrefixKind) (h : (p.add k).refused = false) :
    (p.add k).count = p.count + 1 := by
  obtain ⟨o, a, s, r⟩ := p
  cases k with
  | opsize => simp only [Prefixes.add, Bool.or_eq_false_iff] at h; simp [Prefixes.add, Prefixes.count, h.2]; omega
  | addrsize => simp only [Prefixes.add, Bool.or_eq_false_iff] at h; simp [Prefixes.add, Prefixes.count, h.2]; omega
  | segment x => simp only [Prefixes.add, Bool.or_eq_false_iff] at h; simp [Prefixes.add, Prefixes.count, h.2]
  | unaccepted => simp [Prefixes.add] at h

/-- What the prefix scan has read: bytes that are all prefixes, then a byte that is none. -/
theorem scanPrefixes_ok {p q : Prefixes} {bs r : List Byte} (h : scanPrefixes p bs = .ok (q, r)) :
    ∃ c op r', bs = c ++ op :: r' ∧ r = op :: r' ∧ prefixKind op = none ∧
      (q.refused = false → p.refused = false ∧ p.count + c.length = q.count) ∧
      ∀ rest, scanPrefixes p (c ++ op :: rest) = .ok (q, op :: rest) := by
  induction bs generalizing p with
  | nil => cases h
  | cons b bs ih =>
    rw [scanPrefixes] at h
    split at h
    · next k hk =>
      obtain ⟨c, op, r', rfl, rfl, hop, hc, hrest⟩ := ih h
      refine ⟨b :: c, op, r', rfl, rfl, hop, fun hq => ?_, fun rest => ?_⟩
      · obtain ⟨h1, h2⟩ := hc hq
        refine ⟨?_, ?_⟩
        · by_contra hp
          rw [Bool.not_eq_false] at hp
          rw [Prefixes.add_refused p k hp] at h1
          exact absurd h1 (by decide)
        · rw [Prefixes.count_add p k h1] at h2
          rw [List.length_cons]; omega
      · rw [List.cons_append, scanPrefixes, hk]
        exact hrest rest
    · next hk =>
      cases h
      exact ⟨[], b, bs, rfl, rfl, hk, fun hq => ⟨hq, rfl⟩, fun rest => by
        rw [List.nil_append, scanPrefixes, hk]⟩

theorem scanPrefixes_error {p : Prefixes} {bs : List Byte} {e : Reject} (h : scanPrefixes p bs = .error e) :
    e = .truncated := by
  induction bs generalizing p with
  | nil => cases h; rfl
  | cons b bs ih =>
    rw [scanPrefixes] at h
    split at h
    · exact ih h
    · cases h

/-- The scan reads every prefix, however many there are (R103). -/
theorem scanPrefixes_prefixes {ps : List Byte} {op : Byte} (hps : ∀ b ∈ ps, prefixKind b ≠ none)
    (hop : prefixKind op = none) (tail : List Byte) (p : Prefixes) :
    ∃ q, scanPrefixes p (ps ++ op :: tail) = .ok (q, op :: tail) := by
  induction ps generalizing p with
  | nil => exact ⟨p, by rw [List.nil_append, scanPrefixes, hop]⟩
  | cons b ps ih =>
    obtain ⟨k, hk⟩ := Option.ne_none_iff_exists'.1 (hps b (List.mem_cons_self ..))
    rw [List.cons_append, scanPrefixes, hk]
    exact ih (fun c hc => hps c (List.mem_cons_of_mem _ hc)) (p.add k)

/-! ## The decoder -/

/-- A decoded instruction is well formed, takes 1 to 10 bytes (R127), and depends on nothing after them. -/
theorem decodeParts_ok {mode : Size} {bs r : List Byte} {i : Instr} (h : decodeParts mode bs = .ok (i, r)) :
    i.wellFormed = true ∧ ∃ c, bs = c ++ r ∧ 1 ≤ c.length ∧ c.length ≤ maxLen ∧
      ∀ rest, decodeParts mode (c ++ rest) = .ok (i, rest) := by
  unfold decodeParts at h
  split at h
  · cases h
  · next p r₁ hs =>
    obtain ⟨c, op, r', rfl, rfl, -, hc, hrest⟩ := scanPrefixes_ok hs
    split at h
    · cases h
    · next hp =>
      rw [Bool.not_eq_true] at hp
      obtain ⟨hw, d, rfl, hd, hd'⟩ := (reads_decodeOpcode p _ _ op).ok _ _ _ h
      obtain ⟨-, hcount⟩ := hc hp
      refine ⟨hw, c ++ op :: d, by simp, by simp; omega, ?_, fun rest => ?_⟩
      · have hle := p.count_le
        have h0 : Prefixes.empty.count = 0 := rfl
        simp only [List.length_append, List.length_cons, maxLen]
        split at hle <;> simp_all <;> omega
      · rw [List.append_assoc, List.cons_append, decodeParts, hrest]
        simp only [hp]
        exact hd' rest

/-- A rejection other than for want of bytes does not depend on what follows. -/
theorem decodeParts_error {mode : Size} {bs : List Byte} {e : Reject} (h : decodeParts mode bs = .error e)
    (he : e ≠ .truncated) (rest : List Byte) : decodeParts mode (bs ++ rest) = .error e := by
  unfold decodeParts at h
  split at h
  · next e' hs =>
    cases h
    exact absurd (scanPrefixes_error hs) he
  · next p r₁ hs =>
    obtain ⟨c, op, r', rfl, rfl, -, -, hrest⟩ := scanPrefixes_ok hs
    rw [List.append_assoc, List.cons_append, decodeParts, hrest]
    split at h
    · next hp => cases h; simp [hp]
    · next hp =>
      simp only [hp, Bool.false_eq_true, if_false]
      exact (reads_decodeOpcode p _ _ op).error _ _ h he rest

/-- After prefixes and an opcode byte the decoder never wants more than seven bytes (R127). -/
theorem decodeParts_ne_truncated {mode : Size} {ps tail : List Byte} {op : Byte}
    (hps : ∀ b ∈ ps, prefixKind b ≠ none) (hop : prefixKind op = none) (ht : 7 ≤ tail.length) :
    decodeParts mode (ps ++ op :: tail) ≠ .error .truncated := by
  obtain ⟨q, hq⟩ := scanPrefixes_prefixes hps hop tail .empty
  rw [decodeParts, hq]
  dsimp only
  split
  · exact fun h => by cases h
  · intro h
    have := (reads_decodeOpcode q _ _ op).short _ h
    split at this <;> omega

theorem decode_eq_rejected_iff {mode : Size} {bs : List Byte} {e : Reject} :
    decode mode bs = .rejected e ↔ decodeParts mode bs = .error e := by
  unfold decode
  split
  · next hd => simp [hd]
  · next hd => simp [hd]

/-- Once the bytes are enough, the decoder's answer does not depend on what follows. -/
theorem decode_append {mode : Size} {bs : List Byte} (h : decode mode bs ≠ .rejected .truncated) (rest : List Byte) :
    decode mode (bs ++ rest) = decode mode bs := by
  cases hd : decodeParts mode bs with
  | error e =>
    have he := decode_eq_rejected_iff.2 hd
    rw [he, decode_eq_rejected_iff]
    exact decodeParts_error hd (fun e' => h (e' ▸ he)) rest
  | ok x =>
    obtain ⟨i, r⟩ := x
    obtain ⟨-, c, rfl, -, -, hc⟩ := decodeParts_ok hd
    rw [decode, decode, List.append_assoc, hc, hc]
    simp only [List.length_append, Nat.add_sub_cancel]

end Sys2Proof
end

