-- ==== Sys2Proof/Laws/Memory.lean ====
section
/-!
SUPPORT. Memory: what a byte reads as after a store, little-endian values byte by byte, and that every operation keeps
the canonical form.
-/

namespace Sys2Proof.Machine

@[simp] theorem Memory.read_nil (a : Nat) : Memory.read [] a = Memory.unlisted := rfl

theorem Memory.read_cons (k : Nat) (b : BitVec 8) (m : Memory) (a : Nat) :
    Memory.read ((k, b) :: m) a = if k = a then b else m.read a := rfl

@[simp] theorem Memory.erase_nil (a : Nat) : Memory.erase [] a = [] := rfl

theorem Memory.erase_cons (k : Nat) (b : BitVec 8) (m : Memory) (a : Nat) :
    Memory.erase ((k, b) :: m) a = if k = a then m.erase a else (k, b) :: m.erase a := rfl

theorem Memory.read_entry_append (a : Nat) (v : BitVec 8) (m : Memory) (x : Nat)
    (h : m.read a = Memory.unlisted) :
    Memory.read (Memory.entry a v ++ m) x = if x = a then v else m.read x := by
  unfold Memory.entry
  split
  · split
    · simp_all
    · rfl
  · simp [Memory.read_cons, eq_comm]

theorem Memory.read_erase (m : Memory) (a x : Nat) :
    (m.erase a).read x = if x = a then Memory.unlisted else m.read x := by
  induction m with
  | nil => simp
  | cons c m ih =>
    obtain ⟨k, b⟩ := c
    rw [Memory.erase_cons]
    split
    · rw [ih, Memory.read_cons]; split <;> grind
    · rw [Memory.read_cons, Memory.read_cons, ih]; grind

/-- A byte reads as the last value stored at its address. -/
@[simp] theorem Memory.read_write (m : Memory) (a : Nat) (v : BitVec 8) (x : Nat) :
    (m.write a v).read x = if x = a then v else m.read x := by
  induction m with
  | nil =>
    have := Memory.read_entry_append a v [] x rfl
    simpa [Memory.write] using this
  | cons c m ih =>
    obtain ⟨k, b⟩ := c
    rw [Memory.write]
    split
    · rw [Memory.read_cons, ih, Memory.read_cons]; grind
    · split
      · rw [ih, Memory.read_cons]; grind
      · rw [Memory.read_entry_append]
        · rw [Memory.read_cons, Memory.read_erase, Memory.read_cons]; grind
        · rw [Memory.read_cons, Memory.read_erase]; grind

/-! ## The canonical form -/

@[simp] theorem Memory.wfFrom_nil (lo : Nat) : Memory.wfFrom lo [] = true := rfl

theorem Memory.wfFrom_cons (lo k : Nat) (b : BitVec 8) (m : Memory) :
    Memory.wfFrom lo ((k, b) :: m) = true ↔
      lo ≤ k ∧ k < 2 ^ 32 ∧ b ≠ Memory.unlisted ∧ Memory.wfFrom (k + 1) m = true := by
  simp only [Memory.wfFrom, Bool.and_eq_true, decide_eq_true_eq, and_assoc]

theorem Memory.wfFrom_mono {lo lo' : Nat} (h : lo ≤ lo') (m : Memory) (hm : Memory.wfFrom lo' m = true) :
    Memory.wfFrom lo m = true := by
  cases m with
  | nil => rfl
  | cons c m =>
    obtain ⟨k, b⟩ := c
    rw [Memory.wfFrom_cons] at hm ⊢
    exact ⟨by omega, hm.2⟩

theorem Memory.read_of_lt {lo : Nat} (m : Memory) (hm : Memory.wfFrom lo m = true) {a : Nat} (ha : a < lo) :
    m.read a = Memory.unlisted := by
  induction m generalizing lo with
  | nil => rfl
  | cons c m ih =>
    obtain ⟨k, b⟩ := c
    rw [Memory.wfFrom_cons] at hm
    rw [Memory.read_cons, if_neg (by omega)]
    exact ih hm.2.2.2 (by omega)

theorem Memory.erase_of_lt {lo : Nat} (m : Memory) (hm : Memory.wfFrom lo m = true) {a : Nat} (ha : a < lo) :
    m.erase a = m := by
  induction m generalizing lo with
  | nil => rfl
  | cons c m ih =>
    obtain ⟨k, b⟩ := c
    rw [Memory.wfFrom_cons] at hm
    rw [Memory.erase_cons, if_neg (by omega), ih hm.2.2.2 (by omega)]

theorem Memory.wfFrom_entry_append {lo a : Nat} (v : BitVec 8) (m : Memory) (hlo : lo ≤ a) (ha : a < 2 ^ 32)
    (hm : Memory.wfFrom (a + 1) m = true) : Memory.wfFrom lo (Memory.entry a v ++ m) = true := by
  unfold Memory.entry
  split
  · exact Memory.wfFrom_mono (by omega) m hm
  · next h => simpa only [List.cons_append, List.nil_append, Memory.wfFrom_cons] using ⟨hlo, ha, h, hm⟩

theorem Memory.wfFrom_write {lo : Nat} (m : Memory) {a : Nat} (v : BitVec 8) (hlo : lo ≤ a) (ha : a < 2 ^ 32)
    (hm : Memory.wfFrom lo m = true) : Memory.wfFrom lo (m.write a v) = true := by
  induction m generalizing lo with
  | nil => simpa [Memory.write] using Memory.wfFrom_entry_append v [] hlo ha rfl
  | cons c m ih =>
    obtain ⟨k, b⟩ := c
    have h := (Memory.wfFrom_cons lo k b m).1 hm
    rw [Memory.write]
    split
    · exact (Memory.wfFrom_cons ..).2 ⟨h.1, h.2.1, h.2.2.1, ih (by omega) h.2.2.2⟩
    · split
      · exact ih hlo (Memory.wfFrom_mono (by omega) m h.2.2.2)
      · refine Memory.wfFrom_entry_append v _ hlo ha ?_
        rw [Memory.erase_of_lt m h.2.2.2 (by omega), Memory.wfFrom_cons]
        exact ⟨by omega, h.2⟩

/-- A store keeps the canonical form. -/
theorem Memory.wf_write (m : Memory) (a : Nat) (v : BitVec 8) (ha : a < 2 ^ 32) (hm : m.wf = true) :
    (m.write a v).wf = true :=
  Memory.wfFrom_write m v (Nat.zero_le a) ha hm

/-- A store of several bytes keeps the canonical form. -/
theorem Memory.wf_writeLE {w : Nat} (m : Memory) (a : BitVec 32) (v : BitVec w) (n : Nat) (hm : m.wf = true) :
    (m.writeLE a v n).wf = true := by
  induction n with
  | zero => exact hm
  | succ n ih => exact Memory.wf_write _ _ _ (BitVec.isLt _) ih

theorem Memory.ext_wfFrom {lo : Nat} (m m' : Memory) (hm : Memory.wfFrom lo m = true)
    (hm' : Memory.wfFrom lo m' = true) (h : ∀ a, m.read a = m'.read a) : m = m' := by
  induction m generalizing m' lo with
  | nil =>
    cases m' with
    | nil => rfl
    | cons c m' =>
      obtain ⟨k, b⟩ := c
      rw [Memory.wfFrom_cons] at hm'
      exact absurd (by simpa [Memory.read_cons] using (h k).symm) hm'.2.2.1
  | cons c m ih =>
    obtain ⟨k, b⟩ := c
    have hw := (Memory.wfFrom_cons lo k b m).1 hm
    cases m' with
    | nil => exact absurd (by simpa [Memory.read_cons] using h k) hw.2.2.1
    | cons c' m' =>
      obtain ⟨k', b'⟩ := c'
      have hw' := (Memory.wfFrom_cons lo k' b' m').1 hm'
      have hkk : k = k' := by
        rcases Nat.lt_trichotomy k k' with hlt | heq | hgt
        · have := h k
          rw [Memory.read_cons, if_pos rfl,
            Memory.read_of_lt _ ((Memory.wfFrom_cons k' k' b' m').2 ⟨le_refl _, hw'.2⟩) hlt] at this
          exact absurd this hw.2.2.1
        · exact heq
        · have := h k'
          rw [Memory.read_of_lt _ ((Memory.wfFrom_cons k k b m).2 ⟨le_refl _, hw.2⟩) hgt,
            Memory.read_cons, if_pos rfl] at this
          exact absurd this.symm hw'.2.2.1
      subst hkk
      have hb : b = b' := by simpa [Memory.read_cons] using h k
      subst hb
      congr 1
      refine ih m' hw.2.2.2 hw'.2.2.2 fun a => ?_
      by_cases hak : k = a
      · subst hak
        rw [Memory.read_of_lt m hw.2.2.2 (by omega), Memory.read_of_lt m' hw'.2.2.2 (by omega)]
      · simpa [Memory.read_cons, hak] using h a

/-- Two canonical memories with the same bytes are equal data. -/
theorem Memory.ext_of_wf (m m' : Memory) (hm : m.wf = true) (hm' : m'.wf = true)
    (h : ∀ a, m.read a = m'.read a) : m = m' :=
  Memory.ext_wfFrom m m' hm hm' h

/-! ## Values of several bytes -/

theorem Memory.readLE_succ (m : Memory) (a : BitVec 32) (n : Nat) :
    m.readLE a (n + 1) = (m.read (a + BitVec.ofNat 32 n).toNat ++ m.readLE a n).cast (by omega) := rfl

theorem Memory.writeLE_zero {w : Nat} (m : Memory) (a : BitVec 32) (v : BitVec w) : m.writeLE a v 0 = m := rfl

theorem Memory.writeLE_succ {w : Nat} (m : Memory) (a : BitVec 32) (v : BitVec w) (n : Nat) :
    m.writeLE a v (n + 1) = (m.writeLE a v n).write (a + BitVec.ofNat 32 n).toNat (byteOf v n) := rfl

theorem add_ofNat_toNat_ne (a : BitVec 32) {j k : Nat} (hj : j < 2 ^ 32) (hk : k < 2 ^ 32) (h : j ≠ k) :
    (a + BitVec.ofNat 32 j).toNat ≠ (a + BitVec.ofNat 32 k).toNat := by
  simp only [BitVec.toNat_add, BitVec.toNat_ofNat]
  have := a.isLt
  omega

/-- Every byte outside the stored ones is as before. -/
theorem Memory.read_writeLE_of_ne {w : Nat} (m : Memory) (a : BitVec 32) (v : BitVec w) (n x : Nat)
    (h : ∀ k < n, x ≠ (a + BitVec.ofNat 32 k).toNat) : (m.writeLE a v n).read x = m.read x := by
  induction n with
  | zero => rfl
  | succ n ih =>
    rw [Memory.writeLE_succ, Memory.read_write, if_neg (h n (by omega)), ih fun k hk => h k (by omega)]

/-- Every stored byte reads as the value's byte (R64). -/
theorem Memory.read_writeLE_at {w : Nat} (m : Memory) (a : BitVec 32) (v : BitVec w) (n k : Nat) (hn : n ≤ 2 ^ 32)
    (hk : k < n) : (m.writeLE a v n).read (a + BitVec.ofNat 32 k).toNat = byteOf v k := by
  induction n with
  | zero => omega
  | succ n ih =>
    rw [Memory.writeLE_succ, Memory.read_write]
    by_cases hkn : k = n
    · subst hkn; rw [if_pos rfl]
    · rw [if_neg (add_ofNat_toNat_ne a (by omega) (by omega) hkn)]
      exact ih (by omega) (by omega)

/-- A loaded value's byte `k` is the byte at address `a + k` (R63). -/
theorem Memory.byteOf_readLE (m : Memory) (a : BitVec 32) (n k : Nat) (hk : k < n) :
    byteOf (m.readLE a n) k = m.read (a + BitVec.ofNat 32 k).toNat := by
  induction n with
  | zero => omega
  | succ n ih =>
    rw [Memory.readLE_succ]
    unfold byteOf
    rw [BitVec.extractLsb'_cast, BitVec.extractLsb'_append_eq_ite]
    by_cases hkn : k = n
    · subst hkn
      rw [dif_neg (by omega), Nat.sub_self, BitVec.extractLsb'_eq_self]
    · rw [dif_pos (by omega), dif_pos (by omega)]
      exact ih (by omega)

/-- Two values with the same bytes are equal. -/
theorem eq_of_byteOf_eq {n : Nat} (v v' : BitVec (8 * n)) (h : ∀ k < n, byteOf v k = byteOf v' k) : v = v' := by
  refine BitVec.eq_of_getLsbD_eq fun i hi => ?_
  have := congrArg (fun b : BitVec 8 => b.getLsbD (i % 8)) (h (i / 8) (by omega))
  simp only [byteOf, BitVec.getLsbD_extractLsb'] at this
  have e : 8 * (i / 8) + i % 8 = i := by omega
  simpa [e, Nat.mod_lt i (show 0 < 8 by omega)] using this

/-- A load depends only on the bytes it covers. -/
theorem Memory.readLE_congr (m m' : Memory) (a : BitVec 32) (n : Nat)
    (h : ∀ k < n, m.read (a + BitVec.ofNat 32 k).toNat = m'.read (a + BitVec.ofNat 32 k).toNat) :
    m.readLE a n = m'.readLE a n :=
  eq_of_byteOf_eq _ _ fun k hk => by rw [Memory.byteOf_readLE m a n k hk, Memory.byteOf_readLE m' a n k hk, h k hk]

end Sys2Proof.Machine
end

