-- ==== Sys2Proof/Laws/State.lean ====
section
/-!
SUPPORT. One lemma per field per update of the state, all true by `rfl`, and what a register reads as after a write.
-/

namespace Sys2Proof.Machine

/-! ## `setMm` -/

@[simp] theorem State.setMm_r32 (s : State) (i : MmReg) (v : BitVec 64) : (s.setMm i v).r32 = s.r32 := rfl
@[simp] theorem State.setMm_sreg (s : State) (i : MmReg) (v : BitVec 64) : (s.setMm i v).sreg = s.sreg := rfl
@[simp] theorem State.setMm_flags (s : State) (i : MmReg) (v : BitVec 64) : (s.setMm i v).flags = s.flags := rfl
@[simp] theorem State.setMm_ftw (s : State) (i : MmReg) (v : BitVec 64) : (s.setMm i v).ftw = s.ftw := rfl
@[simp] theorem State.setMm_pc (s : State) (i : MmReg) (v : BitVec 64) : (s.setMm i v).pc = s.pc := rfl
@[simp] theorem State.setMm_mem (s : State) (i : MmReg) (v : BitVec 64) : (s.setMm i v).mem = s.mem := rfl
@[simp] theorem State.setMm_draws (s : State) (i : MmReg) (v : BitVec 64) : (s.setMm i v).draws = s.draws := rfl
@[simp] theorem State.setMm_cfg (s : State) (i : MmReg) (v : BitVec 64) : (s.setMm i v).cfg = s.cfg := rfl

/-! ## `setR32` -/

@[simp] theorem State.setR32_mm (s : State) (i : GpReg) (v : BitVec 32) : (s.setR32 i v).mm = s.mm := rfl
@[simp] theorem State.setR32_sreg (s : State) (i : GpReg) (v : BitVec 32) : (s.setR32 i v).sreg = s.sreg := rfl
@[simp] theorem State.setR32_flags (s : State) (i : GpReg) (v : BitVec 32) : (s.setR32 i v).flags = s.flags := rfl
@[simp] theorem State.setR32_ftw (s : State) (i : GpReg) (v : BitVec 32) : (s.setR32 i v).ftw = s.ftw := rfl
@[simp] theorem State.setR32_pc (s : State) (i : GpReg) (v : BitVec 32) : (s.setR32 i v).pc = s.pc := rfl
@[simp] theorem State.setR32_mem (s : State) (i : GpReg) (v : BitVec 32) : (s.setR32 i v).mem = s.mem := rfl
@[simp] theorem State.setR32_draws (s : State) (i : GpReg) (v : BitVec 32) : (s.setR32 i v).draws = s.draws := rfl
@[simp] theorem State.setR32_cfg (s : State) (i : GpReg) (v : BitVec 32) : (s.setR32 i v).cfg = s.cfg := rfl

/-! ## `setR16` -/

@[simp] theorem State.setR16_mm (s : State) (i : GpReg) (v : BitVec 16) : (s.setR16 i v).mm = s.mm := rfl
@[simp] theorem State.setR16_sreg (s : State) (i : GpReg) (v : BitVec 16) : (s.setR16 i v).sreg = s.sreg := rfl
@[simp] theorem State.setR16_flags (s : State) (i : GpReg) (v : BitVec 16) : (s.setR16 i v).flags = s.flags := rfl
@[simp] theorem State.setR16_ftw (s : State) (i : GpReg) (v : BitVec 16) : (s.setR16 i v).ftw = s.ftw := rfl
@[simp] theorem State.setR16_pc (s : State) (i : GpReg) (v : BitVec 16) : (s.setR16 i v).pc = s.pc := rfl
@[simp] theorem State.setR16_mem (s : State) (i : GpReg) (v : BitVec 16) : (s.setR16 i v).mem = s.mem := rfl
@[simp] theorem State.setR16_draws (s : State) (i : GpReg) (v : BitVec 16) : (s.setR16 i v).draws = s.draws := rfl
@[simp] theorem State.setR16_cfg (s : State) (i : GpReg) (v : BitVec 16) : (s.setR16 i v).cfg = s.cfg := rfl

/-! ## `put` -/

@[simp] theorem State.put_mm (s : State) {w : Nat} (x : SegReg) (off : BitVec 32) (n : Nat) (v : BitVec w) : (s.put x off n v).mm = s.mm := rfl
@[simp] theorem State.put_r32 (s : State) {w : Nat} (x : SegReg) (off : BitVec 32) (n : Nat) (v : BitVec w) : (s.put x off n v).r32 = s.r32 := rfl
@[simp] theorem State.put_sreg (s : State) {w : Nat} (x : SegReg) (off : BitVec 32) (n : Nat) (v : BitVec w) : (s.put x off n v).sreg = s.sreg := rfl
@[simp] theorem State.put_flags (s : State) {w : Nat} (x : SegReg) (off : BitVec 32) (n : Nat) (v : BitVec w) : (s.put x off n v).flags = s.flags := rfl
@[simp] theorem State.put_ftw (s : State) {w : Nat} (x : SegReg) (off : BitVec 32) (n : Nat) (v : BitVec w) : (s.put x off n v).ftw = s.ftw := rfl
@[simp] theorem State.put_pc (s : State) {w : Nat} (x : SegReg) (off : BitVec 32) (n : Nat) (v : BitVec w) : (s.put x off n v).pc = s.pc := rfl
@[simp] theorem State.put_draws (s : State) {w : Nat} (x : SegReg) (off : BitVec 32) (n : Nat) (v : BitVec w) : (s.put x off n v).draws = s.draws := rfl
@[simp] theorem State.put_cfg (s : State) {w : Nat} (x : SegReg) (off : BitVec 32) (n : Nat) (v : BitVec w) : (s.put x off n v).cfg = s.cfg := rfl

/-! ## `advancePc` -/

@[simp] theorem State.advancePc_mm (s : State) (len : Nat) : (s.advancePc len).mm = s.mm := rfl
@[simp] theorem State.advancePc_r32 (s : State) (len : Nat) : (s.advancePc len).r32 = s.r32 := rfl
@[simp] theorem State.advancePc_sreg (s : State) (len : Nat) : (s.advancePc len).sreg = s.sreg := rfl
@[simp] theorem State.advancePc_flags (s : State) (len : Nat) : (s.advancePc len).flags = s.flags := rfl
@[simp] theorem State.advancePc_ftw (s : State) (len : Nat) : (s.advancePc len).ftw = s.ftw := rfl
@[simp] theorem State.advancePc_mem (s : State) (len : Nat) : (s.advancePc len).mem = s.mem := rfl
@[simp] theorem State.advancePc_draws (s : State) (len : Nat) : (s.advancePc len).draws = s.draws := rfl
@[simp] theorem State.advancePc_cfg (s : State) (len : Nat) : (s.advancePc len).cfg = s.cfg := rfl

/-- The memory after a store. -/
theorem State.put_mem {w : Nat} (s : State) (x : SegReg) (off : BitVec 32) (n : Nat) (v : BitVec w) :
    (s.put x off n v).mem = s.mem.writeLE (lin s.cfg x off) v n := rfl

/-- `pc` after an instruction of `len` bytes (R31). -/
theorem State.advancePc_pc (s : State) (len : Nat) :
    (s.advancePc len).pc = BitVec.ofNat 32 ((s.pc.toNat + len) % 2 ^ s.cfg.mode.bits) := rfl

/-! ## `mmxDone` and `setSp`, whose updates depend on a parameter or a size -/

@[simp] theorem State.mmxDone_mm (s : State) : s.mmxDone.mm = s.mm := by
  unfold State.mmxDone; split <;> rfl
@[simp] theorem State.mmxDone_r32 (s : State) : s.mmxDone.r32 = s.r32 := by
  unfold State.mmxDone; split <;> rfl
@[simp] theorem State.mmxDone_sreg (s : State) : s.mmxDone.sreg = s.sreg := by
  unfold State.mmxDone; split <;> rfl
@[simp] theorem State.mmxDone_flags (s : State) : s.mmxDone.flags = s.flags := by
  unfold State.mmxDone; split <;> rfl
@[simp] theorem State.mmxDone_pc (s : State) : s.mmxDone.pc = s.pc := by
  unfold State.mmxDone; split <;> rfl
@[simp] theorem State.mmxDone_mem (s : State) : s.mmxDone.mem = s.mem := by
  unfold State.mmxDone; split <;> rfl
@[simp] theorem State.mmxDone_draws (s : State) : s.mmxDone.draws = s.draws := by
  unfold State.mmxDone; split <;> rfl
@[simp] theorem State.mmxDone_cfg (s : State) : s.mmxDone.cfg = s.cfg := by
  unfold State.mmxDone; split <;> rfl

/-- The tag word after an MMX instruction (R27). -/
theorem State.mmxDone_ftw (s : State) : s.mmxDone.ftw = if s.cfg.mmxSetsFtw then 0 else s.ftw := by
  unfold State.mmxDone; split <;> rfl

@[simp] theorem State.setSp_mm (s : State) (w : Size) (v : BitVec 32) : (s.setSp w v).mm = s.mm := by
  cases w <;> rfl
@[simp] theorem State.setSp_sreg (s : State) (w : Size) (v : BitVec 32) : (s.setSp w v).sreg = s.sreg := by
  cases w <;> rfl
@[simp] theorem State.setSp_flags (s : State) (w : Size) (v : BitVec 32) : (s.setSp w v).flags = s.flags := by
  cases w <;> rfl
@[simp] theorem State.setSp_ftw (s : State) (w : Size) (v : BitVec 32) : (s.setSp w v).ftw = s.ftw := by
  cases w <;> rfl
@[simp] theorem State.setSp_pc (s : State) (w : Size) (v : BitVec 32) : (s.setSp w v).pc = s.pc := by
  cases w <;> rfl
@[simp] theorem State.setSp_mem (s : State) (w : Size) (v : BitVec 32) : (s.setSp w v).mem = s.mem := by
  cases w <;> rfl
@[simp] theorem State.setSp_draws (s : State) (w : Size) (v : BitVec 32) : (s.setSp w v).draws = s.draws := by
  cases w <;> rfl
@[simp] theorem State.setSp_cfg (s : State) (w : Size) (v : BitVec 32) : (s.setSp w v).cfg = s.cfg := by
  cases w <;> rfl

/-! ## Registers -/

/-- An MMX register after a write of an MMX register. -/
@[simp] theorem State.getMm_setMm (s : State) (i k : MmReg) (v : BitVec 64) :
    (s.setMm i v).getMm k = if i = k then v else s.getMm k := by
  have e : (i = k) = (i.toNat = k.toNat) := propext BitVec.toNat_inj.symm
  simp only [State.getMm, State.setMm, Vector.getElem_set, e]

/-- A general register after a write of a general register. -/
@[simp] theorem State.getR32_setR32 (s : State) (i k : GpReg) (v : BitVec 32) :
    (s.setR32 i v).getR32 k = if i = k then v else s.getR32 k := by
  have e : (i = k) = (i.toNat = k.toNat) := propext BitVec.toNat_inj.symm
  simp only [State.getR32, State.setR32, Vector.getElem_set, e]

/-- A general register after a write of the low half of one: the upper half stays (R16). -/
@[simp] theorem State.getR32_setR16 (s : State) (i k : GpReg) (v : BitVec 16) :
    (s.setR16 i v).getR32 k = if i = k then (s.getR32 i).extractLsb' 16 16 ++ v else s.getR32 k :=
  State.getR32_setR32 ..

@[simp] theorem State.getMm_setR32 (s : State) (i : GpReg) (v : BitVec 32) (k : MmReg) : (s.setR32 i v).getMm k = s.getMm k := rfl
@[simp] theorem State.getMm_setR16 (s : State) (i : GpReg) (v : BitVec 16) (k : MmReg) : (s.setR16 i v).getMm k = s.getMm k := rfl
@[simp] theorem State.getMm_put (s : State) {w : Nat} (x : SegReg) (off : BitVec 32) (n : Nat) (v : BitVec w) (k : MmReg) : (s.put x off n v).getMm k = s.getMm k := rfl
@[simp] theorem State.getMm_advancePc (s : State) (len : Nat) (k : MmReg) : (s.advancePc len).getMm k = s.getMm k := rfl
@[simp] theorem State.getMm_setSp (s : State) (w : Size) (v : BitVec 32) (k : MmReg) :
    (s.setSp w v).getMm k = s.getMm k := by
  cases w <;> rfl
@[simp] theorem State.getMm_mmxDone (s : State) (k : MmReg) : s.mmxDone.getMm k = s.getMm k := by
  simp only [State.getMm, State.mmxDone_mm]
@[simp] theorem State.getR32_setMm (s : State) (i : MmReg) (v : BitVec 64) (k : GpReg) : (s.setMm i v).getR32 k = s.getR32 k := rfl
@[simp] theorem State.getR32_put (s : State) {w : Nat} (x : SegReg) (off : BitVec 32) (n : Nat) (v : BitVec w) (k : GpReg) : (s.put x off n v).getR32 k = s.getR32 k := rfl
@[simp] theorem State.getR32_advancePc (s : State) (len : Nat) (k : GpReg) : (s.advancePc len).getR32 k = s.getR32 k := rfl
@[simp] theorem State.getR32_mmxDone (s : State) (k : GpReg) : s.mmxDone.getR32 k = s.getR32 k := by
  simp only [State.getR32, State.mmxDone_r32]

/-- ESP after a write of the stack pointer: with 16 bits, bits 31:16 stay (R291). -/
theorem State.getR32_setSp (s : State) (w : Size) (v : BitVec 32) (k : GpReg) :
    (s.setSp w v).getR32 k =
      if 4 = k then
        match w with
        | .s16 => (s.getR32 4).extractLsb' 16 16 ++ v.extractLsb' 0 16
        | .s32 => v
      else s.getR32 k := by
  cases w
  · exact State.getR32_setR16 ..
  · exact State.getR32_setR32 ..

/-- The canonical form of the memory after a store. -/
theorem State.wf_put {w : Nat} (s : State) (x : SegReg) (off : BitVec 32) (n : Nat) (v : BitVec w)
    (h : s.mem.wf = true) : (s.put x off n v).mem.wf = true :=
  Memory.wf_writeLE _ _ _ _ h

/-- The memory after reset has the canonical form. -/
theorem State.reset_wf : State.reset.mem.wf = true := rfl

end Sys2Proof.Machine
end

