-- ==== Sys2Proof/Laws/Ops.lean ====
section
/-!
SUPPORT. What each shared operation can do, said once: the outcomes, the templates of the MMX and Cyrix instructions,
loads, stores and admission, the pushes.
-/

namespace Sys2Proof.Machine

/-! ## Outcomes -/

@[simp] theorem outcome_eq_next (r : Except Fault State) (t : State) : outcome r = .next t ↔ r = .ok t := by
  cases r <;> simp [outcome]

@[simp] theorem outcome_eq_fault (r : Except Fault State) (e : Fault) : outcome r = .fault e ↔ r = .error e := by
  cases r <;> simp [outcome]

@[simp] theorem outcome_ne_refused (r : Except Fault State) (x : Refusal) : outcome r ≠ .refused x := by
  cases r <;> simp [outcome]

@[simp] theorem State.requireMmx_eq_next (s : State) (r : Except Fault State) (t : State) :
    s.requireMmx r = .next t ↔ s.cfg.hasMmx = true ∧ r = .ok t := by
  unfold State.requireMmx; split <;> simp_all

@[simp] theorem State.requireCyrix_eq_next (s : State) (r : Except Fault State) (t : State) :
    s.requireCyrix r = .next t ↔ (s.cfg.hasMmx = true ∧ s.cfg.hasCyrix = true) ∧ r = .ok t := by
  unfold State.requireCyrix; split <;> simp_all

@[simp] theorem State.requireMmx_ne_refused (s : State) (r : Except Fault State) (x : Refusal) :
    s.requireMmx r ≠ .refused x := by
  unfold State.requireMmx; split <;> simp

@[simp] theorem State.requireCyrix_ne_refused (s : State) (r : Except Fault State) (x : Refusal) :
    s.requireCyrix r ≠ .refused x := by
  unfold State.requireCyrix; split <;> simp

theorem State.requireMmx_on (s : State) (r : Except Fault State) (h : s.cfg.hasMmx = true) :
    s.requireMmx r = outcome r := if_pos h

theorem State.requireMmx_off (s : State) (r : Except Fault State) (h : s.cfg.hasMmx = false) :
    s.requireMmx r = .fault .invalidOpcode := if_neg (by simp [h])

theorem State.requireCyrix_on (s : State) (r : Except Fault State) (h : Config.cyrixOn s.cfg) :
    s.requireCyrix r = outcome r := if_pos (by simp [h.1, h.2])

theorem State.requireCyrix_off (s : State) (r : Except Fault State) (h : ¬ Config.cyrixOn s.cfg) :
    s.requireCyrix r = .fault .invalidOpcode :=
  if_neg (by simpa [Config.cyrixOn] using h)

/-- A completed write of an MMX register writes it from the operand's value (R119). -/
@[simp] theorem State.writeMm_eq_ok (s : State) (d : MmReg) (f : BitVec 64 → BitVec 64)
    (r : Except Fault (BitVec 64)) (t : State) :
    s.writeMm d f r = .ok t ↔ ∃ v, r = .ok v ∧ t = (s.setMm d (f v)).mmxDone := by
  cases r <;> simp [State.writeMm, eq_comm]

/-! ## Frames -/

/-- Writing one MMX register and the tag word changes nothing else. -/
theorem State.mmxFrame_setMm (s : State) (d : MmReg) (v : BitVec 64) :
    s.MmxFrame (s.setMm d v).mmxDone (some d) none nowhere := by
  refine ⟨⟨fun k hk => ?_, fun k _ => ?_, fun x => ?_, ?_, ?_, fun a _ => ?_, ?_⟩, State.mmxDone_ftw _, ?_⟩ <;>
    simp_all [State.getSreg]

/-- Writing one general register and the tag word changes nothing else. -/
theorem State.mmxFrame_setR32 (s : State) (r : GpReg) (v : BitVec 32) :
    s.MmxFrame (s.setR32 r v).mmxDone none (some r) nowhere := by
  refine ⟨⟨fun k _ => ?_, fun k hk => ?_, fun x => ?_, ?_, ?_, fun a _ => ?_, ?_⟩, State.mmxDone_ftw _, ?_⟩ <;>
    simp_all [State.getSreg]

/-- Bytes outside a store read as before. -/
theorem State.read_put_of_not_covers {w : Nat} (s : State) (x : SegReg) (off : BitVec 32) (n : Nat) (v : BitVec w)
    (a : Nat) (h : ¬ covers s.cfg x off n a) : (s.put x off n v).mem.read a = s.mem.read a :=
  Memory.read_writeLE_of_ne _ _ _ _ _ fun k hk e => h ⟨k, hk, e⟩

/-- The bytes of a store read as the value's bytes. -/
theorem State.holds_put {w : Nat} (s : State) (x : SegReg) (off : BitVec 32) (n : Nat) (v : BitVec w)
    (hn : n ≤ 2 ^ 32) : (s.put x off n v).holds x off n v :=
  fun _ hk => Memory.read_writeLE_at _ _ _ _ _ hn hk

/-- What the bytes of a slot hold depends on the memory and the segment bases alone. -/
theorem State.holds_congr {w : Nat} {s t : State} {x : SegReg} {off : BitVec 32} {n : Nat} {v : BitVec w}
    (hm : t.mem = s.mem) (hc : t.cfg = s.cfg) (h : s.holds x off n v) : t.holds x off n v := by
  unfold State.holds
  rw [hm, hc]
  exact h

/-- Storing and the tag word change nothing else. -/
theorem State.mmxFrame_put {w : Nat} (s : State) (x : SegReg) (off : BitVec 32) (n : Nat) (v : BitVec w) :
    s.MmxFrame (s.put x off n v).mmxDone none none (covers s.cfg x off n) := by
  refine ⟨⟨fun k _ => ?_, fun k _ => ?_, fun x => ?_, ?_, ?_, fun a ha => ?_, ?_⟩, State.mmxDone_ftw _, ?_⟩ <;>
    simp_all [State.getSreg, State.read_put_of_not_covers]

/-! ## The rules of the MMX and Cyrix templates -/

theorem completesInMm_of_writeMm {i : Instr} {s : State} {d : MmReg} {f : BitVec 64 → BitVec 64} {v : BitVec 64}
    {P : BitVec 64 → Prop} (h : exec i s = outcome (s.writeMm d f (.ok v))) (hP : P (f v)) :
    CompletesInMm i s d P :=
  ⟨_, h, by simpa using hP, State.mmxFrame_setMm s d (f v)⟩

/-- An instruction over `mmxBinary` has the rule its lane function satisfies. -/
theorem MmxRule.of_mmxBinary {mk : MmReg → RmOp → Instr} {f : Config → BitVec 64 → BitVec 64 → BitVec 64}
    {P : Config → BitVec 64 → BitVec 64 → BitVec 64 → Prop}
    (h : ∀ d src s, exec (mk d src) s = mmxBinary (f s.cfg) d src s) (hP : ∀ c d v, P c d v (f c d v)) :
    MmxRule mk P := by
  refine fun s d src => ⟨fun hm => ?_, fun hm e he => ?_, fun hm v hv => ?_⟩
  · rw [h]; exact State.requireMmx_off _ _ hm
  · rw [h, mmxBinary, State.requireMmx_on _ _ hm, he]; rfl
  · refine completesInMm_of_writeMm (f := f s.cfg (s.getMm d)) (v := v) ?_ (hP _ _ _)
    rw [h, mmxBinary, State.requireMmx_on _ _ hm, hv]

/-- An instruction over `mmxShiftImm` has the rule its function satisfies. -/
theorem ShiftImmRule.of_mmxShiftImm {mk : MmReg → BitVec 8 → Instr} {f : BitVec 64 → Nat → BitVec 64}
    {P : BitVec 64 → Nat → BitVec 64 → Prop}
    (h : ∀ d c s, exec (mk d c) s = mmxShiftImm f d c s) (hP : ∀ d c, P d c (f d c)) : ShiftImmRule mk P := by
  refine fun s d c => ⟨fun hm => ?_, fun hm => ⟨(s.setMm d (f (s.getMm d) c.toNat)).mmxDone, ?_, ?_, ?_⟩⟩
  · rw [h]; exact State.requireMmx_off _ _ hm
  · rw [h, mmxShiftImm, State.requireMmx_on _ _ hm]; rfl
  · simpa using hP _ _
  · exact State.mmxFrame_setMm ..

/-- A Cyrix instruction whose meaning writes one MMX register has the rule its lane function satisfies. -/
theorem CyrixRule.of_writeMm {α : Type} {value : State → α → Except Fault (BitVec 64)} {dst : MmReg → MmReg}
    {mk : MmReg → α → Instr} {f : Config → BitVec 64 → BitVec 64 → BitVec 64 → BitVec 64}
    {P : Config → BitVec 64 → BitVec 64 → BitVec 64 → BitVec 64 → Prop}
    (h : ∀ d src s, exec (mk d src) s =
      s.requireCyrix (s.writeMm (dst d) (f s.cfg (s.getMm (implied d)) (s.getMm d)) (value s src)))
    (hP : ∀ c a d v, P c a d v (f c a d v)) : CyrixRule value dst mk P := by
  refine fun s d src => ⟨fun hm => ?_, fun hm e he => ?_, fun hm v hv => ?_⟩
  · rw [h]; exact State.requireCyrix_off _ _ hm
  · rw [h, State.requireCyrix_on _ _ hm, he]; rfl
  · refine completesInMm_of_writeMm (f := f s.cfg (s.getMm (implied d)) (s.getMm d)) (v := v) ?_ (hP _ _ _ _)
    rw [h, State.requireCyrix_on _ _ hm, hv]

/-! ## Loads, stores and admission -/

/-- A load completes exactly when it is admitted, with the little-endian value (R62, R63). -/
theorem State.load_eq_ok (s : State) (x : SegReg) (w : Size) (off : BitVec 32) (n : Nat) (v : BitVec (8 * n)) :
    s.load x w off n = .ok v ↔ admission s.cfg x w off n .read = none ∧ v = s.mem.readLE (lin s.cfg x off) n := by
  unfold State.load
  cases admission s.cfg x w off n .read <;> simp [eq_comm]

theorem State.load_eq_error (s : State) (x : SegReg) (w : Size) (off : BitVec 32) (n : Nat) (e : Fault) :
    s.load x w off n = .error e ↔ admission s.cfg x w off n .read = some e := by
  unfold State.load; split <;> simp_all

/-- A store completes exactly when it is admitted (R62, R64, R75). -/
theorem State.store_eq_ok {wv : Nat} (s : State) (x : SegReg) (w : Size) (off : BitVec 32) (n : Nat) (v : BitVec wv)
    (t : State) :
    s.store x w off n v = .ok t ↔ admission s.cfg x w off n .write = none ∧ t = s.put x off n v := by
  unfold State.store
  cases admission s.cfg x w off n .write <;> simp [eq_comm]

theorem State.store_eq_error {wv : Nat} (s : State) (x : SegReg) (w : Size) (off : BitVec 32) (n : Nat)
    (v : BitVec wv) (e : Fault) :
    s.store x w off n v = .error e ↔ admission s.cfg x w off n .write = some e := by
  unfold State.store; split <;> simp_all

/-- An access is admitted when its bytes lie in the offset space, the platform admits it, and a write hits no program
byte (R62, R75). -/
theorem admission_eq_none (c : Config) (x : SegReg) (w : Size) (off : BitVec 32) (n : Nat) (k : AccessKind) :
    admission c x w off n k = none ↔
      off.toNat + n ≤ 2 ^ w.bits ∧ accessible c (lin c x off) n k = true ∧
        (k = .write → programHit c (lin c x off) n = none) := by
  unfold admission
  split
  · simp; omega
  · split <;> [split; skip] <;> simp_all

/-- No admitted write touches a program byte (R75). -/
theorem isProgramByte_of_programHit_none {c : Config} {a : BitVec 32} {n : Nat} (h : programHit c a n = none) {k : Nat}
    (hk : k < n) : isProgramByte c (a + BitVec.ofNat 32 k) = false := by
  unfold programHit at h
  rw [List.find?_eq_none] at h
  simpa using h (a + BitVec.ofNat 32 k) (List.mem_map.2 ⟨k, List.mem_range.2 hk, rfl⟩)

/-- No admitted write touches a byte of a region the platform refuses to writes (R62). -/
theorem not_inRegion_of_accessible {c : Config} {a : BitVec 32} {n : Nat} {kind : AccessKind} {first size : Nat}
    (h : accessible c a n kind = true) (hd : Denial.region kind first size ∈ c.denied) {k : Nat} (hk : k < n) :
    inRegion first size (a + BitVec.ofNat 32 k).toNat = false := by
  unfold accessible at h
  simp only [Bool.not_eq_true', List.any_eq_false] at h
  have := h _ hd
  simp only [Denial.refuses, decide_true, Bool.true_and, List.any_eq_true, List.mem_range, not_exists,
    not_and, Bool.not_eq_true] at this
  exact this k hk

/-! ## Pushes -/

/-- The store of a push, then the stack pointer (R291). -/
theorem State.push_eq {wv : Nat} (s : State) (a : Size) (n : Nat) (v : BitVec wv) :
    s.push a n v =
      match admission s.cfg .ss (stackSize s.cfg a) (s.slot a n) n .write with
      | some e => .error e
      | none => .ok ((s.put .ss (s.slot a n) n v).setSp (stackSize s.cfg a) (s.slot a n)) := by
  unfold State.push State.store State.slot
  dsimp only
  cases admission s.cfg .ss (stackSize s.cfg a) (lower (stackSize s.cfg a) (s.sp (stackSize s.cfg a)) n) n .write <;>
    rfl

/-- ESP after the stack pointer has been set to the slot of a push of `n` bytes (R291). -/
theorem State.getR32_setSp_lower (s : State) (w : Size) (n : Nat) :
    (s.setSp w (lower w (s.sp w) n)).getR32 4 = loweredEsp w (s.getR32 4) n := by
  rw [State.getR32_setSp, if_pos rfl]
  cases w
  · simp only [loweredEsp, lower, State.sp, State.getR16]
    congr 1
    apply BitVec.eq_of_toNat_eq
    simp only [BitVec.extractLsb'_toNat, BitVec.toNat_setWidth, BitVec.toNat_sub, BitVec.toNat_ofNat]
    have := (s.getR32 4).isLt
    omega
  · rfl

theorem State.frame_push {w : Nat} (s : State) (sw : Size) (off top : BitVec 32) (n : Nat) (v : BitVec w) :
    s.Frame ((s.put .ss off n v).setSp sw top) none (some 4) (covers s.cfg .ss off n) := by
  refine ⟨fun k _ => ?_, fun k hk => ?_, fun x => ?_, ?_, ?_, fun a ha => ?_, ?_⟩ <;>
    simp_all [State.getSreg, State.getR32_setSp, State.read_put_of_not_covers]

/-- An instruction whose meaning is one push has the rule of R291. -/
theorem PushRule.of_push {w : Nat} {i : Instr} {s : State} {a : Size} {n : Nat} {v : BitVec w}
    (h : exec i s = outcome (s.push a n v)) (hn : n ≤ 2 ^ 32) : PushRule i s a n v 0 := by
  refine ⟨fun e he => ?_, fun ha => ?_⟩
  · rw [h, State.push_eq, he]; rfl
  · rw [State.push_eq, ha] at h
    refine ⟨_, h, ?_, ?_, State.frame_push .., ?_, ?_⟩
    · exact State.holds_congr (by simp) (by simp) (State.holds_put s .ss (s.slot a n) n v hn)
    · exact State.getR32_setSp_lower (s.put .ss (s.slot a n) n v) (stackSize s.cfg a) n
    · simp
    · simp

/-- A segment push of four bytes draws one free value (R297). -/
theorem PushRule.of_pushSeg {i : Instr} {s : State} {a o : Size} {x : SegReg}
    (h : exec i s = outcome (s.pushSeg x o a)) :
    match o with
    | .s16 => PushRule i s a 2 (s.getSreg x) 0
    | .s32 => PushRule i s a 4 (Config.freeUpperWord s.draws ++ s.getSreg x) 1 := by
  cases o
  · exact PushRule.of_push h (by norm_num)
  · refine ⟨fun e he => ?_, fun ha => ?_⟩
    · rw [h, State.pushSeg, State.push_eq]
      change admission _ _ _ ({ s with draws := s.draws + 1 }.slot a 4) _ _ = _ at he
      rw [he]; rfl
    · rw [State.pushSeg, State.push_eq] at h
      change admission _ _ _ ({ s with draws := s.draws + 1 }.slot a 4) _ _ = _ at ha
      rw [ha] at h
      refine ⟨_, h, ?_, ?_, ?_, ?_, ?_⟩
      · exact State.holds_congr (s := { s with draws := s.draws + 1 }.put .ss (s.slot a 4) 4 _) (by simp; rfl)
          (by simp) (State.holds_put _ .ss (s.slot a 4) 4 _ (by norm_num))
      · exact State.getR32_setSp_lower ({ s with draws := s.draws + 1 }.put .ss _ 4 _) (stackSize s.cfg a) 4
      · have := State.frame_push { s with draws := s.draws + 1 } (stackSize s.cfg a) (s.slot a 4) (s.slot a 4) 4
          (Config.freeUpperWord s.draws ++ s.getSreg x)
        exact ⟨this.mm_eq, this.r32_eq, this.sreg_eq, this.flags_eq, this.pc_eq, this.mem_eq, this.cfg_eq⟩
      · simp
      · simp

end Sys2Proof.Machine
end

