-- ==== Sys2Proof/Laws/Exec.lean ====
section
/-!
SUPPORT. What any instruction can do, said once: a completed instruction keeps the parameters, the flags, the segment
registers and `pc`, and reaches memory by admitted stores alone. The invariants of Certificates/ follow from this.
-/

namespace Sys2Proof.Machine

/-- Memory `m'` comes from `m` by stores whose admission holds. -/
inductive AdmittedStores (c : Config) (m : Memory) : Memory → Prop
  | none : AdmittedStores c m m
  | store {m' : Memory} {x : SegReg} {w : Size} {off : BitVec 32} {n wv : Nat} (v : BitVec wv)
      (h : AdmittedStores c m m') (ha : admission c x w off n .write = Option.none) :
      AdmittedStores c m (m'.writeLE (lin c x off) v n)

/-- What every completed instruction leaves as it was, and how its memory came about. -/
structure Ordinary (s t : State) : Prop where
  cfg_eq : t.cfg = s.cfg
  flags_eq : t.flags = s.flags
  sreg_eq : t.sreg = s.sreg
  pc_eq : t.pc = s.pc
  stores : AdmittedStores s.cfg s.mem t.mem

theorem ordinary_setMm (s : State) (d : MmReg) (v : BitVec 64) : Ordinary s (s.setMm d v).mmxDone :=
  ⟨by simp, by simp, by simp, by simp, by simpa using .none⟩

theorem ordinary_writeMm {s t : State} {d : MmReg} {f : BitVec 64 → BitVec 64} {r : Except Fault (BitVec 64)}
    (h : s.writeMm d f r = .ok t) : Ordinary s t := by
  obtain ⟨v, -, rfl⟩ := (State.writeMm_eq_ok ..).1 h
  exact ordinary_setMm ..

theorem ordinary_mmxShiftImm {f : BitVec 64 → Nat → BitVec 64} {d : MmReg} {c : BitVec 8} {s t : State}
    (h : mmxShiftImm f d c s = .next t) : Ordinary s t := by
  obtain ⟨-, e⟩ := (State.requireMmx_eq_next ..).1 h
  cases e
  exact ordinary_setMm ..

theorem ordinary_execEmms {s t : State} (h : execEmms s = .next t) : Ordinary s t := by
  obtain ⟨-, e⟩ := (State.requireMmx_eq_next ..).1 h
  cases e
  exact ⟨rfl, rfl, rfl, rfl, .none⟩

theorem ordinary_store {wv : Nat} {s u t : State} {x : SegReg} {w : Size} {off : BitVec 32} {n : Nat} {v : BitVec wv}
    (h : s.store x w off n v = .ok u) (ht : t.cfg = u.cfg ∧ t.flags = u.flags ∧ t.sreg = u.sreg ∧ t.pc = u.pc ∧
      t.mem = u.mem) : Ordinary s t := by
  obtain ⟨ha, rfl⟩ := (State.store_eq_ok ..).1 h
  obtain ⟨h1, h2, h3, h4, h5⟩ := ht
  exact ⟨h1, h2, h3, h4, h5 ▸ .store v .none ha⟩

theorem ordinary_execMovdStore {dst : RmOp} {src : MmReg} {s t : State} (h : execMovdStore dst src s = .next t) :
    Ordinary s t := by
  obtain ⟨-, e⟩ := (State.requireMmx_eq_next ..).1 h
  cases dst with
  | reg r => cases e; exact ⟨by simp, by simp, by simp, by simp, by simpa using .none⟩
  | mem m =>
    cases hs : s.dst32 ((s.getMm src).extractLsb' 0 32) (.mem m) with
    | error e' => rw [hs] at e; cases e
    | ok u => rw [hs] at e; cases e; exact ordinary_store hs (by simp)

theorem ordinary_execMovqStore {dst : RmOp} {src : MmReg} {s t : State} (h : execMovqStore dst src s = .next t) :
    Ordinary s t := by
  obtain ⟨-, e⟩ := (State.requireMmx_eq_next ..).1 h
  cases dst with
  | reg r => cases e; exact ordinary_setMm ..
  | mem m =>
    cases hs : s.dst64 (s.getMm src) (.mem m) with
    | error e' => rw [hs] at e; cases e
    | ok u => rw [hs] at e; cases e; exact ordinary_store hs (by simp)

theorem ordinary_push {wv : Nat} {s t : State} {a : Size} {n : Nat} {v : BitVec wv} (h : s.push a n v = .ok t) :
    Ordinary s t := by
  rw [State.push_eq] at h
  split at h
  · cases h
  · next ha =>
    cases h
    exact ordinary_store (v := v) ((State.store_eq_ok ..).2 ⟨ha, rfl⟩) (by simp)

theorem ordinary_pushSrc16 {s t : State} {a : Size} {r : Except Fault (BitVec 16)} (h : s.pushSrc16 a r = .ok t) :
    Ordinary s t := by
  cases r with
  | error e => cases h
  | ok v => exact ordinary_push h

theorem ordinary_pushSrc32 {s t : State} {a : Size} {r : Except Fault (BitVec 32)} (h : s.pushSrc32 a r = .ok t) :
    Ordinary s t := by
  cases r with
  | error e => cases h
  | ok v => exact ordinary_push h

theorem ordinary_pushSeg {s t : State} {x : SegReg} {o a : Size} (h : s.pushSeg x o a = .ok t) : Ordinary s t := by
  cases o
  · exact ordinary_push h
  · obtain ⟨h1, h2, h3, h4, h5⟩ := ordinary_push (s := { s with draws := s.draws + 1 }) h
    exact ⟨h1, h2, h3, h4, h5⟩

theorem admittedStores_putAll {wv : Nat} (s : State) (w : Size) (t : BitVec 32) (n : Nat) (v : GpReg → BitVec wv)
    (k : Nat) (ha : ∀ j < k, admission s.cfg .ss w (lower w t (n * (j + 1))) n .write = none) :
    AdmittedStores s.cfg s.mem (s.putAll w t n v k).mem ∧ s.putAll w t n v k = { s with mem := (s.putAll w t n v k).mem } := by
  induction k with
  | zero => exact ⟨.none, rfl⟩
  | succ k ih =>
    obtain ⟨h1, h2⟩ := ih fun j hj => ha j (by omega)
    have e : (s.putAll w t n v k).cfg = s.cfg := by rw [h2]
    have hput : s.putAll w t n v (k + 1) =
      (s.putAll w t n v k).put .ss (lower w t (n * (k + 1))) n (v (BitVec.ofNat 3 k)) := rfl
    refine ⟨?_, ?_⟩
    · rw [hput, State.put_mem, e]
      exact .store _ h1 (ha k (by omega))
    · rw [hput]; rw [h2]; rfl

theorem ordinary_pushAll {wv : Nat} {s t : State} {a : Size} {n : Nat} {v : GpReg → BitVec wv}
    (h : s.pushAll a n v = .ok t) : Ordinary s t := by
  unfold State.pushAll at h
  cases hall : s.admitAll (stackSize s.cfg a) (s.sp (stackSize s.cfg a)) n with
  | some e => simp [hall] at h
  | none =>
    have ha : ∀ j < 8, admission s.cfg .ss (stackSize s.cfg a)
        (lower (stackSize s.cfg a) (s.sp (stackSize s.cfg a)) (n * (j + 1))) n .write = none := fun j hj => by
      unfold State.admitAll at hall
      rw [List.findSome?_eq_none_iff] at hall
      exact hall j (List.mem_range.2 hj)
    obtain ⟨h1, h2⟩ := admittedStores_putAll s (stackSize s.cfg a) (s.sp (stackSize s.cfg a)) n v 8 ha
    simp only [hall, Except.ok.injEq] at h
    generalize (s.putAll (stackSize s.cfg a) (s.sp (stackSize s.cfg a)) n v 8).mem = m at h1 h2
    rw [h2] at h
    subst h
    exact ⟨by simp, by simp, by simp, by simp, by simpa using h1⟩

/-- A completed instruction keeps the parameters, the flags, the segment registers and `pc`, and reaches memory by
admitted stores alone. -/
theorem exec_ordinary {i : Instr} {s t : State} (h : exec i s = .next t) : Ordinary s t := by
  cases i
  case emms => exact ordinary_execEmms h
  case movdLoad => exact ordinary_writeMm ((State.requireMmx_eq_next ..).1 h).2
  case movqLoad => exact ordinary_writeMm ((State.requireMmx_eq_next ..).1 h).2
  case movdStore => exact ordinary_execMovdStore h
  case movqStore => exact ordinary_execMovqStore h
  case paveb => exact ordinary_writeMm ((State.requireCyrix_eq_next ..).1 h).2
  case pmagw => exact ordinary_writeMm ((State.requireCyrix_eq_next ..).1 h).2
  case pmulhrw => exact ordinary_writeMm ((State.requireCyrix_eq_next ..).1 h).2
  case paddsiw => exact ordinary_writeMm ((State.requireCyrix_eq_next ..).1 h).2
  case psubsiw => exact ordinary_writeMm ((State.requireCyrix_eq_next ..).1 h).2
  case pmulhriw => exact ordinary_writeMm ((State.requireCyrix_eq_next ..).1 h).2
  case pdistib => exact ordinary_writeMm ((State.requireCyrix_eq_next ..).1 h).2
  case pmachriw => exact ordinary_writeMm ((State.requireCyrix_eq_next ..).1 h).2
  case pmvzb => exact ordinary_writeMm ((State.requireCyrix_eq_next ..).1 h).2
  case pmvnzb => exact ordinary_writeMm ((State.requireCyrix_eq_next ..).1 h).2
  case pmvlzb => exact ordinary_writeMm ((State.requireCyrix_eq_next ..).1 h).2
  case pmvgezb => exact ordinary_writeMm ((State.requireCyrix_eq_next ..).1 h).2
  case psrlwImm => exact ordinary_mmxShiftImm h
  case psrawImm => exact ordinary_mmxShiftImm h
  case psllwImm => exact ordinary_mmxShiftImm h
  case psrldImm => exact ordinary_mmxShiftImm h
  case psradImm => exact ordinary_mmxShiftImm h
  case pslldImm => exact ordinary_mmxShiftImm h
  case psrlqImm => exact ordinary_mmxShiftImm h
  case psllqImm => exact ordinary_mmxShiftImm h
  case pushEs => exact ordinary_pushSeg ((outcome_eq_next ..).1 h)
  case pushCs => exact ordinary_pushSeg ((outcome_eq_next ..).1 h)
  case pushSs => exact ordinary_pushSeg ((outcome_eq_next ..).1 h)
  case pushDs => exact ordinary_pushSeg ((outcome_eq_next ..).1 h)
  case pushFs => exact ordinary_pushSeg ((outcome_eq_next ..).1 h)
  case pushGs => exact ordinary_pushSeg ((outcome_eq_next ..).1 h)
  case pushReg16 => exact ordinary_push ((outcome_eq_next ..).1 h)
  case pushReg32 => exact ordinary_push ((outcome_eq_next ..).1 h)
  case pushImm8 => exact ordinary_push ((outcome_eq_next ..).1 h)
  case pushImm16 => exact ordinary_push ((outcome_eq_next ..).1 h)
  case pushImm32 => exact ordinary_push ((outcome_eq_next ..).1 h)
  case pushfw => exact ordinary_push ((outcome_eq_next ..).1 h)
  case pushfd => exact ordinary_push ((outcome_eq_next ..).1 h)
  case pushf =>
    simp only [exec, execPushf] at h
    split at h <;> exact ordinary_push ((outcome_eq_next ..).1 h)
  case pushaw => exact ordinary_pushAll ((outcome_eq_next ..).1 h)
  case pushad => exact ordinary_pushAll ((outcome_eq_next ..).1 h)
  case pusha =>
    simp only [exec, execPusha] at h
    split at h <;> exact ordinary_pushAll ((outcome_eq_next ..).1 h)
  case pushRm16 => exact ordinary_pushSrc16 ((outcome_eq_next ..).1 h)
  case pushRm32 => exact ordinary_pushSrc32 ((outcome_eq_next ..).1 h)
  all_goals exact ordinary_writeMm ((State.requireMmx_eq_next ..).1 h).2

/-! ## What admitted stores keep -/

/-- Admitted stores keep the canonical form. -/
theorem AdmittedStores.wf {c : Config} {m m' : Memory} (h : AdmittedStores c m m') (hm : m.wf = true) :
    m'.wf = true := by
  induction h with
  | none => exact hm
  | store v _ _ ih => exact Memory.wf_writeLE _ _ _ _ ih

/-- Admitted stores keep every program byte (R75). -/
theorem AdmittedStores.read_program {c : Config} {m m' : Memory} (h : AdmittedStores c m m') (a : BitVec 32)
    (hp : isProgramByte c a = true) : m'.read a.toNat = m.read a.toNat := by
  induction h with
  | none => rfl
  | store v _ ha ih =>
    rw [Memory.read_writeLE_of_ne, ih]
    intro k hk e
    have := isProgramByte_of_programHit_none (((admission_eq_none ..).1 ha).2.2 rfl) hk
    rw [← BitVec.eq_of_toNat_eq e, hp] at this
    exact absurd this (by decide)

/-- Admitted stores keep every byte of a region the platform refuses to writes (R62). -/
theorem AdmittedStores.read_region {c : Config} {m m' : Memory} (h : AdmittedStores c m m') {first size a : Nat}
    (hd : Denial.region .write first size ∈ c.denied) (hr : inRegion first size a = true) : m'.read a = m.read a := by
  induction h with
  | none => rfl
  | store v _ ha ih =>
    rw [Memory.read_writeLE_of_ne, ih]
    intro k hk e
    have := not_inRegion_of_accessible ((admission_eq_none ..).1 ha).2.1 hd hk
    rw [← e, hr] at this
    exact absurd this (by decide)

/-! ## Steps -/

theorem advance_eq_next (len : Nat) (r : Host.Outcome State Fault Refusal) (t : State) :
    advance len r = .next t ↔ ∃ u, r = .next u ∧ t = u.advancePc len := by
  cases r <;> simp [advance, eq_comm]

/-- What a step that gives a next state has done: nothing at `END_PC`, else one fetched instruction (R330). -/
theorem step_cases {s t : State} (h : step s = .next t) :
    (s.atEnd = true ∧ t = s) ∨
      (s.atEnd = false ∧ ∃ i len u, s.fetchDecode = .instr i len ∧ exec i s = .next u ∧ t = u.advancePc len) := by
  unfold step at h
  split at h
  · next he => cases h; exact .inl ⟨he, rfl⟩
  · next he =>
    refine .inr ⟨by simpa using he, ?_⟩
    split at h
    · next i len hf =>
      obtain ⟨u, hu, rfl⟩ := (advance_eq_next ..).1 h
      exact ⟨i, len, u, hf, hu, rfl⟩
    · cases h
    · cases h

end Sys2Proof.Machine
end

