-- ==== Sys2Proof/Laws/Fetch.lean ====
section
/-!
SUPPORT. What the fetch delivers: the bytes that stand at `pc`, and nothing past the first that cannot be fetched.
-/

namespace Sys2Proof.Machine

theorem State.fetchFrom_succ_ok {s : State} {k n : Nat} {b : Byte} (h : s.fetchByte k = .ok b) :
    s.fetchFrom k (n + 1) = b :: s.fetchFrom (k + 1) n := by
  rw [State.fetchFrom, h]

theorem State.fetchFrom_succ_error {s : State} {k n : Nat} {e : Fault} (h : s.fetchByte k = .error e) :
    s.fetchFrom k (n + 1) = [] := by
  rw [State.fetchFrom, h]

theorem State.length_fetchFrom_le (s : State) (k n : Nat) : (s.fetchFrom k n).length ≤ n := by
  induction n generalizing k with
  | zero => exact le_refl _
  | succ n ih =>
    cases h : s.fetchByte k with
    | ok b => rw [State.fetchFrom_succ_ok h]; simpa using ih (k + 1)
    | error e => rw [State.fetchFrom_succ_error h]; exact Nat.zero_le _

/-- The fetched bytes begin with the bytes that stand at `pc`. -/
theorem State.fetchFrom_append {s : State} {bs : List Byte} {k n : Nat}
    (h : ∀ (j : Nat) (b : Byte), bs[j]? = some b → s.fetchByte (k + j) = .ok b) (hn : bs.length ≤ n) :
    s.fetchFrom k n = bs ++ s.fetchFrom (k + bs.length) (n - bs.length) := by
  induction bs generalizing k n with
  | nil => rfl
  | cons b bs ih =>
    obtain ⟨n, rfl⟩ : ∃ m, n = m + 1 := ⟨n - 1, by simp at hn; omega⟩
    rw [State.fetchFrom_succ_ok (k := k) (h 0 b rfl)]
    rw [ih (k := k + 1) (n := n) (fun j c hj => by
      have := h (j + 1) c (by simpa using hj)
      rwa [show k + (j + 1) = k + 1 + j by omega] at this) (by simpa using hn)]
    simp only [List.cons_append, List.length_cons, Nat.add_sub_add_right]
    rw [show k + 1 + bs.length = k + (bs.length + 1) by omega]

/-- Every byte the fetch delivers can be fetched. -/
theorem State.fetchByte_of_fetchFrom {s : State} {k n j : Nat} {b : Byte} (h : (s.fetchFrom k n)[j]? = some b) :
    s.fetchByte (k + j) = .ok b := by
  induction n generalizing k j with
  | zero => simp [State.fetchFrom] at h
  | succ n ih =>
    cases hk : s.fetchByte k with
    | error e => rw [State.fetchFrom_succ_error hk] at h; simp at h
    | ok c =>
      rw [State.fetchFrom_succ_ok hk] at h
      cases j with
      | zero => simpa [hk] using h
      | succ j =>
        have := ih (k := k + 1) (j := j) (by simpa using h)
        rwa [show k + 1 + j = k + (j + 1) by omega] at this

/-- A byte that cannot be fetched has one cause. -/
theorem State.fetchByte_eq_error {s : State} {k : Nat} {e : Fault} (h : s.fetchByte k = .error e) :
    e = s.fetchFault k := by
  unfold State.fetchByte at h
  dsimp only at h
  split at h
  · cases h
  · cases h; rfl

/-- Only bytes below the top of the code offset space can be fetched (R100). -/
theorem State.fetchByte_ok_lt {s : State} {k : Nat} {b : Byte} (h : s.fetchByte k = .ok b) :
    s.pc.toNat + k < 2 ^ s.cfg.mode.bits := by
  unfold State.fetchByte at h
  dsimp only at h
  split at h
  · next hk => exact hk.1
  · cases h

/-- A fetch that delivers less than was asked for ended at a byte that cannot be fetched. -/
theorem State.fetchByte_error_of_short {s : State} {k n : Nat} (h : (s.fetchFrom k n).length < n) :
    ∃ e, s.fetchByte (k + (s.fetchFrom k n).length) = .error e := by
  induction n generalizing k with
  | zero => omega
  | succ n ih =>
    cases hk : s.fetchByte k with
    | error e => exact ⟨e, by rw [State.fetchFrom_succ_error hk]; exact hk⟩
    | ok b =>
      rw [State.fetchFrom_succ_ok hk, List.length_cons] at h ⊢
      obtain ⟨e, he⟩ := ih (k := k + 1) (by omega)
      exact ⟨e, by rwa [show k + ((s.fetchFrom (k + 1) n).length + 1) = k + 1 + (s.fetchFrom (k + 1) n).length by omega]⟩

/-- The bytes counted are prefixes that can be fetched, and the count ends at its bound, at a byte that cannot be
fetched, or at a byte that is no prefix. -/
theorem State.prefixRun_spec (s : State) (k n : Nat) :
    (∀ (j : Nat) (b : Byte), j < s.prefixRun k n → s.fetchByte (k + j) = .ok b → prefixKind b ≠ none) ∧
    (s.prefixRun k n = n ∨ (∃ e, s.fetchByte (k + s.prefixRun k n) = .error e) ∨
      ∃ b, s.fetchByte (k + s.prefixRun k n) = .ok b ∧ prefixKind b = none) := by
  induction n generalizing k with
  | zero => exact ⟨fun j b hj => absurd hj (Nat.not_lt_zero j), .inl rfl⟩
  | succ n ih =>
    rw [State.prefixRun]
    split
    · next b hb =>
      split
      · next x hx =>
        obtain ⟨h1, h2⟩ := ih (k + 1)
        rw [show k + (s.prefixRun (k + 1) n + 1) = k + 1 + s.prefixRun (k + 1) n by omega]
        refine ⟨fun j c hj hc => ?_, h2.imp_left fun h => by omega⟩
        cases j with
        | zero =>
          rw [Nat.add_zero, hb] at hc
          cases hc
          rw [hx]; exact Option.some_ne_none x
        | succ j => exact h1 j c (by omega) (by rwa [show k + 1 + j = k + (j + 1) by omega])
      · next hx => exact ⟨fun j c hj => absurd hj (Nat.not_lt_zero j), .inr (.inr ⟨b, hb, hx⟩)⟩
    · next e he => exact ⟨fun j c hj => absurd hj (Nat.not_lt_zero j), .inr (.inl ⟨e, he⟩)⟩

/-- Where the decision needs a byte beyond those fetched, that byte cannot be fetched: the fetch reads every prefix
(R103) and as much after them as any instruction has (R127). -/
theorem State.fetchByte_error_of_truncated {s : State} (h : decode s.cfg.mode s.fetched = .rejected .truncated) :
    ∃ e, s.fetchByte s.fetched.length = .error e := by
  obtain ⟨hps, hend⟩ := s.prefixRun_spec 0 s.bytesToTop
  set m := s.prefixRun 0 s.bytesToTop with hm
  have hfe : s.fetched = s.fetchFrom 0 (m + maxRest) := rfl
  rcases Nat.lt_or_ge s.fetched.length (m + maxRest) with hl | hl
  · obtain ⟨e, he⟩ := State.fetchByte_error_of_short (k := 0) (hfe ▸ hl)
    exact ⟨e, by rwa [Nat.zero_add] at he⟩
  · exfalso
    have get : ∀ (j : Nat) (b : Byte), s.fetched[j]? = some b → s.fetchByte j = .ok b := fun j b hj => by
      have := State.fetchByte_of_fetchFrom (hfe ▸ hj)
      rwa [Nat.zero_add] at this
    have h8 : maxRest = 8 := rfl
    have hlt : m < s.fetched.length := by omega
    have hop := get m _ (List.getElem?_eq_getElem hlt)
    simp only [Nat.zero_add] at hps hend
    rcases hend with hend | ⟨e, he⟩ | ⟨b, hb, hno⟩
    · have := State.fetchByte_ok_lt hop
      unfold State.bytesToTop at hend
      omega
    · rw [he] at hop; cases hop
    · rw [hop] at hb
      cases hb
      have split : s.fetched = s.fetched.take m ++ s.fetched[m] :: s.fetched.drop (m + 1) := by
        rw [← List.drop_eq_getElem_cons hlt, List.take_append_drop]
      refine decodeParts_ne_truncated (mode := s.cfg.mode) (ps := s.fetched.take m) (tail := s.fetched.drop (m + 1))
        (fun c hc => ?_) hno (by rw [List.length_drop]; omega) (split ▸ decode_eq_rejected_iff.1 h)
      obtain ⟨j, hj⟩ := List.mem_iff_getElem?.1 hc
      rw [List.getElem?_take] at hj
      split at hj
      · next hjm => exact hps j c hjm (get j c hj)
      · cases hj

/-- The fetched bytes go on after bytes that stand at `pc`, or are the first of them. -/
theorem State.fetched_codeIs {s : State} {bs : List Byte} (h : s.codeIs bs) :
    (∃ rest, s.fetched = bs ++ rest) ∨ ∃ c rest, bs = s.fetched ++ c :: rest := by
  set n := s.prefixRun 0 s.bytesToTop + maxRest with hn
  have hfe : s.fetched = s.fetchFrom 0 n := rfl
  rcases Nat.lt_or_ge n bs.length with hl | hl
  · refine .inr ⟨bs[n], bs.drop (n + 1), ?_⟩
    have hlen : (bs.take n).length = n := by rw [List.length_take]; omega
    have := State.fetchFrom_append (s := s) (bs := bs.take n) (k := 0) (n := n) (fun j b hj => by
      rw [List.getElem?_take] at hj
      split at hj
      · simpa using h j b hj
      · cases hj) (le_of_eq hlen)
    rw [hlen, Nat.sub_self, State.fetchFrom, List.append_nil] at this
    rw [hfe, this, ← List.drop_eq_getElem_cons hl, List.take_append_drop]
  · exact .inl ⟨_, State.fetchFrom_append (k := 0) (fun j b hj => by simpa using h j b hj) hl⟩

/-- The decoder's answer to the fetched bytes is its answer to any bytes that stand at `pc` and are enough. -/
theorem State.decode_fetched {s : State} {bs : List Byte} (h : s.codeIs bs)
    (hd : decode s.cfg.mode bs ≠ .rejected .truncated) : decode s.cfg.mode s.fetched = decode s.cfg.mode bs := by
  rcases State.fetched_codeIs h with ⟨rest, hr⟩ | ⟨c, rest, hr⟩
  · rw [hr, decode_append hd]
  · by_cases ht : decode s.cfg.mode s.fetched = .rejected .truncated
    · obtain ⟨e, he⟩ := State.fetchByte_error_of_truncated ht
      rw [h _ c (by rw [hr]; simp)] at he
      cases he
    · conv_rhs => rw [hr]
      rw [decode_append ht]

/-- Where the decision needs a byte after those that stand at `pc`, and that byte cannot be fetched, they are all that is
fetched. -/
theorem State.fetched_eq_of_truncated {s : State} {bs : List Byte} {e : Fault} (h : s.codeIs bs)
    (hd : decode s.cfg.mode bs = .rejected .truncated) (he : s.fetchByte bs.length = .error e) : s.fetched = bs := by
  rcases State.fetched_codeIs h with ⟨rest, hr⟩ | ⟨c, rest, hr⟩
  · cases rest with
    | nil => rw [hr, List.append_nil]
    | cons b rest =>
      have := State.fetchByte_of_fetchFrom (s := s) (k := 0) (j := bs.length) (b := b)
        (show s.fetched[bs.length]? = some b by rw [hr]; simp)
      rw [Nat.zero_add, he] at this
      cases this
  · by_cases ht : decode s.cfg.mode s.fetched = .rejected .truncated
    · obtain ⟨e, he⟩ := State.fetchByte_error_of_truncated ht
      rw [h _ c (by rw [hr]; simp)] at he
      cases he
    · rw [hr, decode_append ht] at hd
      exact absurd hd ht

theorem State.fetchDecode_of_instr {s : State} {i : Instr} {len : Nat}
    (h : decode s.cfg.mode s.fetched = .instr i len) : s.fetchDecode = .instr i len := by
  rw [State.fetchDecode, h]

theorem State.fetchDecode_of_rejected {s : State} {r : Reject} (h : decode s.cfg.mode s.fetched = .rejected r) :
    s.fetchDecode = s.rejected s.fetched.length r := by
  rw [State.fetchDecode, h]

/-- What a fetched instruction is: the decoder's answer to the bytes that stand at `pc`. -/
theorem State.fetchDecode_eq_instr {s : State} {i : Instr} {len : Nat} (h : s.fetchDecode = .instr i len) :
    decode s.cfg.mode s.fetched = .instr i len := by
  unfold State.fetchDecode at h
  split at h
  · next hd => cases h; exact hd
  · next r hd => cases r <;> cases h

end Sys2Proof.Machine
end

