-- ==== Sys2Proof/Laws/Lanes.lean ====
section
/-!
SUPPORT. Lanes: what each lane of a value given lane by lane is, the scalar functions in terms of integers, and the
shifts in terms of the shifts of bit vectors.
-/

namespace Sys2Proof.Machine

/-! ## Lanes of packed values -/

/-- A field of the lower part of a concatenation. -/
theorem extract_append_lo {w v start len : Nat} (x : BitVec w) (y : BitVec v) (h : start + len ≤ v) :
    (x ++ y).extractLsb' start len = y.extractLsb' start len := by
  refine BitVec.eq_of_getLsbD_eq fun i hi => ?_
  simp only [BitVec.getLsbD_extractLsb', BitVec.getLsbD_append, hi, decide_true, Bool.true_and]
  rw [if_pos (show start + i < v by omega)]

/-- A field of the upper part of a concatenation. -/
theorem extract_append_hi {w v start len : Nat} (x : BitVec w) (y : BitVec v) (h : v ≤ start) :
    (x ++ y).extractLsb' start len = x.extractLsb' (start - v) len := by
  refine BitVec.eq_of_getLsbD_eq fun i hi => ?_
  simp only [BitVec.getLsbD_extractLsb', BitVec.getLsbD_append, hi, decide_true, Bool.true_and]
  rw [if_neg (show ¬ start + i < v by omega), show start + i - v = start - v + i by omega]

theorem laneB_packB (b7 b6 b5 b4 b3 b2 b1 b0 : BitVec 8) :
    laneB (packB b7 b6 b5 b4 b3 b2 b1 b0) 0 = b0 ∧ laneB (packB b7 b6 b5 b4 b3 b2 b1 b0) 1 = b1 ∧
    laneB (packB b7 b6 b5 b4 b3 b2 b1 b0) 2 = b2 ∧ laneB (packB b7 b6 b5 b4 b3 b2 b1 b0) 3 = b3 ∧
    laneB (packB b7 b6 b5 b4 b3 b2 b1 b0) 4 = b4 ∧ laneB (packB b7 b6 b5 b4 b3 b2 b1 b0) 5 = b5 ∧
    laneB (packB b7 b6 b5 b4 b3 b2 b1 b0) 6 = b6 ∧ laneB (packB b7 b6 b5 b4 b3 b2 b1 b0) 7 = b7 := by
  refine ⟨?_, ?_, ?_, ?_, ?_, ?_, ?_, ?_⟩ <;>
    repeat first
      | exact BitVec.extractLsb'_eq_self
      | refine (extract_append_lo _ _ (by decide)).trans ?_
      | refine (extract_append_hi _ _ (by decide)).trans ?_

theorem laneW_packW (w3 w2 w1 w0 : BitVec 16) :
    laneW (packW w3 w2 w1 w0) 0 = w0 ∧ laneW (packW w3 w2 w1 w0) 1 = w1 ∧
    laneW (packW w3 w2 w1 w0) 2 = w2 ∧ laneW (packW w3 w2 w1 w0) 3 = w3 := by
  refine ⟨?_, ?_, ?_, ?_⟩ <;>
    repeat first
      | exact BitVec.extractLsb'_eq_self
      | refine (extract_append_lo _ _ (by decide)).trans ?_
      | refine (extract_append_hi _ _ (by decide)).trans ?_

theorem laneD_packD (d1 d0 : BitVec 32) : laneD (packD d1 d0) 0 = d0 ∧ laneD (packD d1 d0) 1 = d1 := by
  exact ⟨(extract_append_lo d1 d0 (by decide)).trans BitVec.extractLsb'_eq_self,
    (extract_append_hi d1 d0 (by decide)).trans BitVec.extractLsb'_eq_self⟩

/-- Byte lane `i` of a value given lane by lane. -/
theorem laneB_ofLanesB (f : Nat → BitVec 8) {i : Nat} (hi : i < 8) : laneB (ofLanesB f) i = f i := by
  obtain ⟨h0, h1, h2, h3, h4, h5, h6, h7⟩ := laneB_packB (f 7) (f 6) (f 5) (f 4) (f 3) (f 2) (f 1) (f 0)
  unfold ofLanesB
  interval_cases i <;> assumption

/-- Word lane `i` of a value given lane by lane. -/
theorem laneW_ofLanesW (f : Nat → BitVec 16) {i : Nat} (hi : i < 4) : laneW (ofLanesW f) i = f i := by
  obtain ⟨h0, h1, h2, h3⟩ := laneW_packW (f 3) (f 2) (f 1) (f 0)
  unfold ofLanesW
  interval_cases i <;> assumption

/-- Doubleword lane `i` of a value given lane by lane. -/
theorem laneD_ofLanesD (f : Nat → BitVec 32) {i : Nat} (hi : i < 2) : laneD (ofLanesD f) i = f i := by
  obtain ⟨h0, h1⟩ := laneD_packD (f 1) (f 0)
  unfold ofLanesD
  interval_cases i <;> assumption

theorem laneB_mapB (f : BitVec 8 → BitVec 8 → BitVec 8) (d s : BitVec 64) {i : Nat} (hi : i < 8) :
    laneB (mapB f d s) i = f (laneB d i) (laneB s i) := laneB_ofLanesB _ hi

theorem laneW_mapW (f : BitVec 16 → BitVec 16 → BitVec 16) (d s : BitVec 64) {i : Nat} (hi : i < 4) :
    laneW (mapW f d s) i = f (laneW d i) (laneW s i) := laneW_ofLanesW _ hi

theorem laneD_mapD (f : BitVec 32 → BitVec 32 → BitVec 32) (d s : BitVec 64) {i : Nat} (hi : i < 2) :
    laneD (mapD f d s) i = f (laneD d i) (laneD s i) := laneD_ofLanesD _ hi

theorem laneW_shiftW (f : BitVec 16 → Nat → BitVec 16) (d : BitVec 64) (c : Nat) {i : Nat} (hi : i < 4) :
    laneW (shiftW f d c) i = f (laneW d i) c := laneW_ofLanesW _ hi

theorem laneD_shiftD (f : BitVec 32 → Nat → BitVec 32) (d : BitVec 64) (c : Nat) {i : Nat} (hi : i < 2) :
    laneD (shiftD f d c) i = f (laneD d i) c := laneD_ofLanesD _ hi

/-- The low word lanes of a pack come from the destination, the high ones from the source (R160, R161). -/
theorem laneW_packDwords (f : BitVec 32 → BitVec 16) (d s : BitVec 64) {i : Nat} (hi : i < 2) :
    laneW (packDwords f d s) i = f (laneD d i) ∧ laneW (packDwords f d s) (i + 2) = f (laneD s i) := by
  obtain ⟨h0, h1, h2, h3⟩ := laneW_packW (f (laneD s 1)) (f (laneD s 0)) (f (laneD d 1)) (f (laneD d 0))
  unfold packDwords
  interval_cases i
  · exact ⟨h0, h2⟩
  · exact ⟨h1, h3⟩

/-- The low byte lanes of a pack come from the destination, the high ones from the source (R160, R162). -/
theorem laneB_packWords (f : BitVec 16 → BitVec 8) (d s : BitVec 64) {i : Nat} (hi : i < 4) :
    laneB (packWords f d s) i = f (laneW d i) ∧ laneB (packWords f d s) (i + 4) = f (laneW s i) := by
  obtain ⟨h0, h1, h2, h3, h4, h5, h6, h7⟩ := laneB_packB (f (laneW s 3)) (f (laneW s 2)) (f (laneW s 1))
    (f (laneW s 0)) (f (laneW d 3)) (f (laneW d 2)) (f (laneW d 1)) (f (laneW d 0))
  unfold packWords
  interval_cases i
  · exact ⟨h0, h4⟩
  · exact ⟨h1, h5⟩
  · exact ⟨h2, h6⟩
  · exact ⟨h3, h7⟩

/-- An unpack alternates destination and source bytes from lane `o` on (R164). -/
theorem laneB_unpackB (o : Nat) (d s : BitVec 64) {i : Nat} (hi : i < 4) :
    laneB (unpackB o d s) (2 * i) = laneB d (o + i) ∧ laneB (unpackB o d s) (2 * i + 1) = laneB s (o + i) := by
  obtain ⟨h0, h1, h2, h3, h4, h5, h6, h7⟩ := laneB_packB (laneB s (o + 3)) (laneB d (o + 3)) (laneB s (o + 2))
    (laneB d (o + 2)) (laneB s (o + 1)) (laneB d (o + 1)) (laneB s o) (laneB d o)
  unfold unpackB
  interval_cases i
  · exact ⟨h0, h1⟩
  · exact ⟨h2, h3⟩
  · exact ⟨h4, h5⟩
  · exact ⟨h6, h7⟩

/-- An unpack alternates destination and source words from lane `o` on (R164). -/
theorem laneW_unpackW (o : Nat) (d s : BitVec 64) {i : Nat} (hi : i < 2) :
    laneW (unpackW o d s) (2 * i) = laneW d (o + i) ∧ laneW (unpackW o d s) (2 * i + 1) = laneW s (o + i) := by
  obtain ⟨h0, h1, h2, h3⟩ := laneW_packW (laneW s (o + 1)) (laneW d (o + 1)) (laneW s o) (laneW d o)
  unfold unpackW
  interval_cases i
  · exact ⟨h0, h1⟩
  · exact ⟨h2, h3⟩

/-- An unpack of doublewords puts the destination's lane `o` below the source's (R164). -/
theorem laneD_unpackD (o : Nat) (d s : BitVec 64) :
    laneD (unpackD o d s) 0 = laneD d o ∧ laneD (unpackD o d s) 1 = laneD s o :=
  laneD_packD (laneD s o) (laneD d o)

/-! ## Saturation as integers (R15) -/

theorem toInt_satS8 (z : Int) : (satS8 z).toInt = max (-128) (min 127 z) := by
  unfold satS8; rw [BitVec.toInt_ofInt, Int.bmod_def]; split <;> omega

theorem toInt_satS16 (z : Int) : (satS16 z).toInt = max (-32768) (min 32767 z) := by
  unfold satS16; rw [BitVec.toInt_ofInt, Int.bmod_def]; split <;> omega

theorem toNat_satU8 (z : Int) : ((satU8 z).toNat : Int) = max 0 (min 255 z) := by
  unfold satU8; rw [BitVec.toNat_ofInt]; omega

theorem toNat_satU16 (z : Int) : ((satU16 z).toNat : Int) = max 0 (min 65535 z) := by
  unfold satU16; rw [BitVec.toNat_ofInt]; omega

/-! ## Products -/

theorem toInt_mul_bounds (a b : BitVec 16) :
    -(2 ^ 30) ≤ a.toInt * b.toInt ∧ a.toInt * b.toInt ≤ 2 ^ 30 := by
  have ha := BitVec.le_toInt a
  have ha' := BitVec.toInt_lt (x := a)
  have hb := BitVec.le_toInt b
  have hb' := BitVec.toInt_lt (x := b)
  norm_num at ha ha' hb hb'
  constructor <;> nlinarith

/-- The exact product fits a doubleword. -/
theorem toInt_mulS16 (a b : BitVec 16) : (mulS16 a b).toInt = a.toInt * b.toInt := by
  obtain ⟨h1, h2⟩ := toInt_mul_bounds a b
  unfold mulS16; rw [BitVec.toInt_ofInt, Int.bmod_def]; split <;> omega

theorem mulS16_eq (a b : BitVec 16) : mulS16 a b = a.signExtend 32 * b.signExtend 32 := by
  apply BitVec.eq_of_toInt_eq
  rw [toInt_mulS16, BitVec.toInt_mul, BitVec.toInt_signExtend_of_le (by omega), BitVec.toInt_signExtend_of_le (by omega)]
  obtain ⟨h1, h2⟩ := toInt_mul_bounds a b
  rw [Int.bmod_def]; split <;> omega

/-- The rounded high product, by doubleword arithmetic (R202). -/
theorem mulHighRound_eq (a b : BitVec 16) :
    mulHighRound a b = (a.signExtend 32 * b.signExtend 32 + 0x4000).extractLsb' 15 16 := by
  unfold mulHighRound
  rw [← mulS16_eq, BitVec.ofInt_add]
  congr 1

/-- A doubleword lane of PMADDWD, by its number (R250). -/
theorem toNat_laneD_mulAdd (d s : BitVec 64) {i : Nat} (hi : i < 2) :
    ((laneD (mulAdd d s) i).toNat : Int) =
      ((laneW d (2 * i)).toInt * (laneW s (2 * i)).toInt +
        (laneW d (2 * i + 1)).toInt * (laneW s (2 * i + 1)).toInt) % 2 ^ 32 := by
  unfold mulAdd
  interval_cases i
  · rw [(laneD_packD _ _).1, BitVec.toNat_ofInt, Int.add_comm ((laneW d 1).toInt * _),
      Int.toNat_of_nonneg (Int.emod_nonneg _ (by decide))]
    rfl
  · rw [(laneD_packD _ _).2, BitVec.toNat_ofInt, Int.add_comm ((laneW d 3).toInt * _),
      Int.toNat_of_nonneg (Int.emod_nonneg _ (by decide))]
    rfl

/-- The lanes of a zero-extended doubleword (R151). -/
theorem laneD_setWidth (v : BitVec 32) : laneD (v.setWidth 64) 0 = v ∧ laneD (v.setWidth 64) 1 = 0 := by
  refine ⟨BitVec.eq_of_getLsbD_eq fun i hi => ?_, BitVec.eq_of_getLsbD_eq fun i hi => ?_⟩
  · simp only [laneD, BitVec.getLsbD_extractLsb', BitVec.getLsbD_setWidth, Nat.mul_zero, Nat.zero_add, hi,
      decide_true, Bool.true_and, decide_eq_true (show i < 64 by omega)]
  · simp only [laneD, BitVec.getLsbD_extractLsb', BitVec.getLsbD_setWidth]
    rw [BitVec.getLsbD_of_ge v (32 * 1 + i) (by omega)]
    simp

/-! ## Shifts -/

theorem shiftLeft_eq {w : Nat} (x : BitVec w) (c : Nat) : shiftLeft x c = x <<< c := by
  unfold shiftLeft
  apply BitVec.eq_of_toNat_eq
  split
  · simp [BitVec.toNat_shiftLeft, Nat.shiftLeft_eq]
  · next h => rw [BitVec.shiftLeft_eq_zero (by omega)]; rfl

theorem shiftRight_eq {w : Nat} (x : BitVec w) (c : Nat) : shiftRight x c = x >>> c := by
  unfold shiftRight
  apply BitVec.eq_of_toNat_eq
  split
  · have := x.isLt
    rw [BitVec.toNat_ofNat, BitVec.toNat_ushiftRight, Nat.shiftRight_eq_div_pow]
    exact Nat.mod_eq_of_lt (lt_of_le_of_lt (Nat.div_le_self _ _) this)
  · next h => rw [BitVec.ushiftRight_eq_zero (by omega)]; rfl

theorem shiftRightArith_eq {w : Nat} (x : BitVec w) (c : Nat) : shiftRightArith x c = x.sshiftRight c := by
  unfold shiftRightArith
  rw [← BitVec.ofInt_toInt (x := x.sshiftRight c), BitVec.toInt_sshiftRight, Int.shiftRight_eq_div_pow]
  congr 1
  rcases Nat.lt_or_ge c w with h | h
  · rw [Nat.min_eq_left (by omega)]; norm_cast
  · rw [Nat.min_eq_right (by omega)]
    have h1 := BitVec.le_toInt x
    have h2 := BitVec.toInt_lt (x := x)
    have key : ∀ n, w - 1 ≤ n → x.toInt / (2 : Int) ^ n = if x.toInt < 0 then -1 else 0 := by
      intro n hn
      have hp : (2 : Int) ^ (w - 1) ≤ 2 ^ n := pow_le_pow_right₀ (by norm_num) hn
      split
      · exact (Int.ediv_eq_iff_of_pos (by positivity)).2 ⟨by linarith, by linarith⟩
      · exact Int.ediv_eq_zero_of_lt (by omega) (by linarith)
    rw [key (w - 1) (le_refl _)]
    push_cast
    rw [key c (by omega)]

end Sys2Proof.Machine
end

