-- ==== Sys2Proof/Laws/PerInstr.lean ====
section
/-!
SUPPORT. The family `EncodedLength`, one lemma per constructor of `Instr`: the encoder writes one to ten bytes in either
mode, the limit of 30_encoding.md R127.
-/

namespace Sys2Proof.Laws

/-- Every encoding of the instruction has 1 to 10 bytes. -/
def EncodedLength.Statement (i : Instr) : Prop :=
  ∀ mode : Size, 1 ≤ (encode mode i).length ∧ (encode mode i).length ≤ maxLen

theorem addrPrefix_length (mode a : Size) : (addrPrefix mode a).length ≤ 1 := by
  unfold addrPrefix; split <;> simp

theorem opPrefix_length (mode o : Size) : (opPrefix mode o).length ≤ 1 := by
  unfold opPrefix; split <;> simp

theorem segPrefix_length (rm : RmOp) : (segPrefix rm).length ≤ 1 := by
  cases rm with
  | reg r => simp [segPrefix]
  | mem m => simp only [segPrefix]; split <;> simp

theorem rmAddrPrefix_length (mode : Size) (rm : RmOp) : (rmAddrPrefix mode rm).length ≤ 1 := by
  cases rm with
  | reg r => simp [rmAddrPrefix]
  | mem m => exact addrPrefix_length mode m.size

theorem encodeRm_length (reg : BitVec 3) (rm : RmOp) :
    1 ≤ (encodeRm reg rm).length ∧ (encodeRm reg rm).length ≤ 6 := by
  cases rm with
  | reg r => simp [encodeRm]
  | mem m =>
    cases m with
    | addr16 seg base disp => simp [encodeRm, encodeMem, bytes16]
    | addr32 seg base index disp =>
      cases base with
      | none => cases index <;> simp [encodeRm, encodeMem, bytes32]
      | some b => simp only [encodeRm, encodeMem]; split <;> simp [bytes32]

/-- An MMX or Cyrix instruction has at most two prefixes, two opcode bytes and six bytes of operand. -/
theorem encodeMmxRm_length (mode : Size) (op : Byte) (reg : BitVec 3) (rm : RmOp) :
    1 ≤ (encodeMmxRm mode op reg rm).length ∧ (encodeMmxRm mode op reg rm).length ≤ maxLen := by
  have h1 := rmAddrPrefix_length mode rm
  have h2 := segPrefix_length rm
  have h3 := encodeRm_length reg rm
  simp only [encodeMmxRm, List.length_append, List.length_cons, maxLen]
  omega

/-- A push has at most two size prefixes before its own bytes. -/
theorem basePrefixes_append_length (mode o a : Size) (bs : List Byte) (h1 : 1 ≤ bs.length) (h2 : bs.length ≤ 8) :
    1 ≤ (basePrefixes mode o a ++ bs).length ∧ (basePrefixes mode o a ++ bs).length ≤ maxLen := by
  have h3 := opPrefix_length mode o
  have h4 := addrPrefix_length mode a
  simp only [basePrefixes, List.length_append, maxLen]
  omega

/-- A push of an `r/m` operand has a segment prefix at most, one opcode byte and six bytes of operand besides. -/
theorem pushRm_length (mode o a : Size) (rm : RmOp) :
    1 ≤ (basePrefixes mode o a ++ segPrefix rm ++ 0xFF :: encodeRm 6 rm).length ∧
      (basePrefixes mode o a ++ segPrefix rm ++ 0xFF :: encodeRm 6 rm).length ≤ maxLen := by
  have h1 := segPrefix_length rm
  have h2 := encodeRm_length 6 rm
  rw [List.append_assoc]
  refine basePrefixes_append_length mode o a _ ?_ ?_ <;>
    simp only [List.length_append, List.length_cons] <;> omega

theorem EncodedLength.paveb (d : MmReg) (src : RmOp) : EncodedLength.Statement (.paveb d src) :=
  fun _ => encodeMmxRm_length ..

theorem EncodedLength.paddsiw (d : MmReg) (src : RmOp) : EncodedLength.Statement (.paddsiw d src) :=
  fun _ => encodeMmxRm_length ..

theorem EncodedLength.pmagw (d : MmReg) (src : RmOp) : EncodedLength.Statement (.pmagw d src) :=
  fun _ => encodeMmxRm_length ..

theorem EncodedLength.pdistib (d : MmReg) (src : MemOp) : EncodedLength.Statement (.pdistib d src) :=
  fun _ => encodeMmxRm_length ..

theorem EncodedLength.psubsiw (d : MmReg) (src : RmOp) : EncodedLength.Statement (.psubsiw d src) :=
  fun _ => encodeMmxRm_length ..

theorem EncodedLength.pmvzb (d : MmReg) (src : MemOp) : EncodedLength.Statement (.pmvzb d src) :=
  fun _ => encodeMmxRm_length ..

theorem EncodedLength.pmulhrw (d : MmReg) (src : RmOp) : EncodedLength.Statement (.pmulhrw d src) :=
  fun _ => encodeMmxRm_length ..

theorem EncodedLength.pmvnzb (d : MmReg) (src : MemOp) : EncodedLength.Statement (.pmvnzb d src) :=
  fun _ => encodeMmxRm_length ..

theorem EncodedLength.pmvlzb (d : MmReg) (src : MemOp) : EncodedLength.Statement (.pmvlzb d src) :=
  fun _ => encodeMmxRm_length ..

theorem EncodedLength.pmvgezb (d : MmReg) (src : MemOp) : EncodedLength.Statement (.pmvgezb d src) :=
  fun _ => encodeMmxRm_length ..

theorem EncodedLength.pmulhriw (d : MmReg) (src : RmOp) : EncodedLength.Statement (.pmulhriw d src) :=
  fun _ => encodeMmxRm_length ..

theorem EncodedLength.pmachriw (d : MmReg) (src : MemOp) : EncodedLength.Statement (.pmachriw d src) :=
  fun _ => encodeMmxRm_length ..

theorem EncodedLength.punpcklbw (d : MmReg) (src : RmOp) : EncodedLength.Statement (.punpcklbw d src) :=
  fun _ => encodeMmxRm_length ..

theorem EncodedLength.punpcklwd (d : MmReg) (src : RmOp) : EncodedLength.Statement (.punpcklwd d src) :=
  fun _ => encodeMmxRm_length ..

theorem EncodedLength.punpckldq (d : MmReg) (src : RmOp) : EncodedLength.Statement (.punpckldq d src) :=
  fun _ => encodeMmxRm_length ..

theorem EncodedLength.packsswb (d : MmReg) (src : RmOp) : EncodedLength.Statement (.packsswb d src) :=
  fun _ => encodeMmxRm_length ..

theorem EncodedLength.pcmpgtb (d : MmReg) (src : RmOp) : EncodedLength.Statement (.pcmpgtb d src) :=
  fun _ => encodeMmxRm_length ..

theorem EncodedLength.pcmpgtw (d : MmReg) (src : RmOp) : EncodedLength.Statement (.pcmpgtw d src) :=
  fun _ => encodeMmxRm_length ..

theorem EncodedLength.pcmpgtd (d : MmReg) (src : RmOp) : EncodedLength.Statement (.pcmpgtd d src) :=
  fun _ => encodeMmxRm_length ..

theorem EncodedLength.packuswb (d : MmReg) (src : RmOp) : EncodedLength.Statement (.packuswb d src) :=
  fun _ => encodeMmxRm_length ..

theorem EncodedLength.punpckhbw (d : MmReg) (src : RmOp) : EncodedLength.Statement (.punpckhbw d src) :=
  fun _ => encodeMmxRm_length ..

theorem EncodedLength.punpckhwd (d : MmReg) (src : RmOp) : EncodedLength.Statement (.punpckhwd d src) :=
  fun _ => encodeMmxRm_length ..

theorem EncodedLength.punpckhdq (d : MmReg) (src : RmOp) : EncodedLength.Statement (.punpckhdq d src) :=
  fun _ => encodeMmxRm_length ..

theorem EncodedLength.packssdw (d : MmReg) (src : RmOp) : EncodedLength.Statement (.packssdw d src) :=
  fun _ => encodeMmxRm_length ..

theorem EncodedLength.movdLoad (d : MmReg) (src : RmOp) : EncodedLength.Statement (.movdLoad d src) :=
  fun _ => encodeMmxRm_length ..

theorem EncodedLength.movqLoad (d : MmReg) (src : RmOp) : EncodedLength.Statement (.movqLoad d src) :=
  fun _ => encodeMmxRm_length ..

theorem EncodedLength.psrlwImm (d : MmReg) (count : BitVec 8) : EncodedLength.Statement (.psrlwImm d count) :=
  fun _ => by simp [encode, maxLen]

theorem EncodedLength.psrawImm (d : MmReg) (count : BitVec 8) : EncodedLength.Statement (.psrawImm d count) :=
  fun _ => by simp [encode, maxLen]

theorem EncodedLength.psllwImm (d : MmReg) (count : BitVec 8) : EncodedLength.Statement (.psllwImm d count) :=
  fun _ => by simp [encode, maxLen]

theorem EncodedLength.psrldImm (d : MmReg) (count : BitVec 8) : EncodedLength.Statement (.psrldImm d count) :=
  fun _ => by simp [encode, maxLen]

theorem EncodedLength.psradImm (d : MmReg) (count : BitVec 8) : EncodedLength.Statement (.psradImm d count) :=
  fun _ => by simp [encode, maxLen]

theorem EncodedLength.pslldImm (d : MmReg) (count : BitVec 8) : EncodedLength.Statement (.pslldImm d count) :=
  fun _ => by simp [encode, maxLen]

theorem EncodedLength.psrlqImm (d : MmReg) (count : BitVec 8) : EncodedLength.Statement (.psrlqImm d count) :=
  fun _ => by simp [encode, maxLen]

theorem EncodedLength.psllqImm (d : MmReg) (count : BitVec 8) : EncodedLength.Statement (.psllqImm d count) :=
  fun _ => by simp [encode, maxLen]

theorem EncodedLength.pcmpeqb (d : MmReg) (src : RmOp) : EncodedLength.Statement (.pcmpeqb d src) :=
  fun _ => encodeMmxRm_length ..

theorem EncodedLength.pcmpeqw (d : MmReg) (src : RmOp) : EncodedLength.Statement (.pcmpeqw d src) :=
  fun _ => encodeMmxRm_length ..

theorem EncodedLength.pcmpeqd (d : MmReg) (src : RmOp) : EncodedLength.Statement (.pcmpeqd d src) :=
  fun _ => encodeMmxRm_length ..

theorem EncodedLength.emms : EncodedLength.Statement .emms :=
  fun _ => by simp [encode, maxLen]

theorem EncodedLength.movdStore (dst : RmOp) (src : MmReg) : EncodedLength.Statement (.movdStore dst src) :=
  fun _ => encodeMmxRm_length ..

theorem EncodedLength.movqStore (dst : RmOp) (src : MmReg) : EncodedLength.Statement (.movqStore dst src) :=
  fun _ => encodeMmxRm_length ..

theorem EncodedLength.pushFs (o : Size) (a : Size) : EncodedLength.Statement (.pushFs o a) :=
  fun _ => basePrefixes_append_length _ _ _ _ (by decide) (by decide)

theorem EncodedLength.pushGs (o : Size) (a : Size) : EncodedLength.Statement (.pushGs o a) :=
  fun _ => basePrefixes_append_length _ _ _ _ (by decide) (by decide)

theorem EncodedLength.psrlw (d : MmReg) (src : RmOp) : EncodedLength.Statement (.psrlw d src) :=
  fun _ => encodeMmxRm_length ..

theorem EncodedLength.psrld (d : MmReg) (src : RmOp) : EncodedLength.Statement (.psrld d src) :=
  fun _ => encodeMmxRm_length ..

theorem EncodedLength.psrlq (d : MmReg) (src : RmOp) : EncodedLength.Statement (.psrlq d src) :=
  fun _ => encodeMmxRm_length ..

theorem EncodedLength.pmullw (d : MmReg) (src : RmOp) : EncodedLength.Statement (.pmullw d src) :=
  fun _ => encodeMmxRm_length ..

theorem EncodedLength.psubusb (d : MmReg) (src : RmOp) : EncodedLength.Statement (.psubusb d src) :=
  fun _ => encodeMmxRm_length ..

theorem EncodedLength.psubusw (d : MmReg) (src : RmOp) : EncodedLength.Statement (.psubusw d src) :=
  fun _ => encodeMmxRm_length ..

theorem EncodedLength.pand (d : MmReg) (src : RmOp) : EncodedLength.Statement (.pand d src) :=
  fun _ => encodeMmxRm_length ..

theorem EncodedLength.paddusb (d : MmReg) (src : RmOp) : EncodedLength.Statement (.paddusb d src) :=
  fun _ => encodeMmxRm_length ..

theorem EncodedLength.paddusw (d : MmReg) (src : RmOp) : EncodedLength.Statement (.paddusw d src) :=
  fun _ => encodeMmxRm_length ..

theorem EncodedLength.pandn (d : MmReg) (src : RmOp) : EncodedLength.Statement (.pandn d src) :=
  fun _ => encodeMmxRm_length ..

theorem EncodedLength.psraw (d : MmReg) (src : RmOp) : EncodedLength.Statement (.psraw d src) :=
  fun _ => encodeMmxRm_length ..

theorem EncodedLength.psrad (d : MmReg) (src : RmOp) : EncodedLength.Statement (.psrad d src) :=
  fun _ => encodeMmxRm_length ..

theorem EncodedLength.pmulhw (d : MmReg) (src : RmOp) : EncodedLength.Statement (.pmulhw d src) :=
  fun _ => encodeMmxRm_length ..

theorem EncodedLength.psubsb (d : MmReg) (src : RmOp) : EncodedLength.Statement (.psubsb d src) :=
  fun _ => encodeMmxRm_length ..

theorem EncodedLength.psubsw (d : MmReg) (src : RmOp) : EncodedLength.Statement (.psubsw d src) :=
  fun _ => encodeMmxRm_length ..

theorem EncodedLength.por (d : MmReg) (src : RmOp) : EncodedLength.Statement (.por d src) :=
  fun _ => encodeMmxRm_length ..

theorem EncodedLength.paddsb (d : MmReg) (src : RmOp) : EncodedLength.Statement (.paddsb d src) :=
  fun _ => encodeMmxRm_length ..

theorem EncodedLength.paddsw (d : MmReg) (src : RmOp) : EncodedLength.Statement (.paddsw d src) :=
  fun _ => encodeMmxRm_length ..

theorem EncodedLength.pxor (d : MmReg) (src : RmOp) : EncodedLength.Statement (.pxor d src) :=
  fun _ => encodeMmxRm_length ..

theorem EncodedLength.psllw (d : MmReg) (src : RmOp) : EncodedLength.Statement (.psllw d src) :=
  fun _ => encodeMmxRm_length ..

theorem EncodedLength.pslld (d : MmReg) (src : RmOp) : EncodedLength.Statement (.pslld d src) :=
  fun _ => encodeMmxRm_length ..

theorem EncodedLength.psllq (d : MmReg) (src : RmOp) : EncodedLength.Statement (.psllq d src) :=
  fun _ => encodeMmxRm_length ..

theorem EncodedLength.pmaddwd (d : MmReg) (src : RmOp) : EncodedLength.Statement (.pmaddwd d src) :=
  fun _ => encodeMmxRm_length ..

theorem EncodedLength.psubb (d : MmReg) (src : RmOp) : EncodedLength.Statement (.psubb d src) :=
  fun _ => encodeMmxRm_length ..

theorem EncodedLength.psubw (d : MmReg) (src : RmOp) : EncodedLength.Statement (.psubw d src) :=
  fun _ => encodeMmxRm_length ..

theorem EncodedLength.psubd (d : MmReg) (src : RmOp) : EncodedLength.Statement (.psubd d src) :=
  fun _ => encodeMmxRm_length ..

theorem EncodedLength.paddb (d : MmReg) (src : RmOp) : EncodedLength.Statement (.paddb d src) :=
  fun _ => encodeMmxRm_length ..

theorem EncodedLength.paddw (d : MmReg) (src : RmOp) : EncodedLength.Statement (.paddw d src) :=
  fun _ => encodeMmxRm_length ..

theorem EncodedLength.paddd (d : MmReg) (src : RmOp) : EncodedLength.Statement (.paddd d src) :=
  fun _ => encodeMmxRm_length ..

theorem EncodedLength.pushEs (o : Size) (a : Size) : EncodedLength.Statement (.pushEs o a) :=
  fun _ => basePrefixes_append_length _ _ _ _ (by decide) (by decide)

theorem EncodedLength.pushCs (o : Size) (a : Size) : EncodedLength.Statement (.pushCs o a) :=
  fun _ => basePrefixes_append_length _ _ _ _ (by decide) (by decide)

theorem EncodedLength.pushSs (o : Size) (a : Size) : EncodedLength.Statement (.pushSs o a) :=
  fun _ => basePrefixes_append_length _ _ _ _ (by decide) (by decide)

theorem EncodedLength.pushDs (o : Size) (a : Size) : EncodedLength.Statement (.pushDs o a) :=
  fun _ => basePrefixes_append_length _ _ _ _ (by decide) (by decide)

theorem EncodedLength.pushReg16 (a : Size) (r : GpReg) : EncodedLength.Statement (.pushReg16 a r) :=
  fun _ => basePrefixes_append_length _ _ _ _ (by simp) (by simp)

theorem EncodedLength.pushReg32 (a : Size) (r : GpReg) : EncodedLength.Statement (.pushReg32 a r) :=
  fun _ => basePrefixes_append_length _ _ _ _ (by simp) (by simp)

theorem EncodedLength.pushaw (a : Size) : EncodedLength.Statement (.pushaw a) :=
  fun _ => basePrefixes_append_length _ _ _ _ (by decide) (by decide)

theorem EncodedLength.pushad (a : Size) : EncodedLength.Statement (.pushad a) :=
  fun _ => basePrefixes_append_length _ _ _ _ (by decide) (by decide)

theorem EncodedLength.pusha (a : Size) : EncodedLength.Statement (.pusha a) :=
  fun _ => basePrefixes_append_length _ _ _ _ (by decide) (by decide)

theorem EncodedLength.pushImm16 (a : Size) (imm : BitVec 16) : EncodedLength.Statement (.pushImm16 a imm) :=
  fun _ => basePrefixes_append_length _ _ _ _ (by simp) (by simp [bytes16])

theorem EncodedLength.pushImm32 (a : Size) (imm : BitVec 32) : EncodedLength.Statement (.pushImm32 a imm) :=
  fun _ => basePrefixes_append_length _ _ _ _ (by simp) (by simp [bytes32])

theorem EncodedLength.pushImm8 (o : Size) (a : Size) (imm : BitVec 8) : EncodedLength.Statement (.pushImm8 o a imm) :=
  fun _ => basePrefixes_append_length _ _ _ _ (by simp) (by simp)

theorem EncodedLength.pushfw (a : Size) : EncodedLength.Statement (.pushfw a) :=
  fun _ => basePrefixes_append_length _ _ _ _ (by decide) (by decide)

theorem EncodedLength.pushfd (a : Size) : EncodedLength.Statement (.pushfd a) :=
  fun _ => basePrefixes_append_length _ _ _ _ (by decide) (by decide)

theorem EncodedLength.pushf (a : Size) : EncodedLength.Statement (.pushf a) :=
  fun _ => basePrefixes_append_length _ _ _ _ (by decide) (by decide)

theorem EncodedLength.pushRm16 (a : Size) (src : RmOp) : EncodedLength.Statement (.pushRm16 a src) :=
  fun _ => pushRm_length ..

theorem EncodedLength.pushRm32 (a : Size) (src : RmOp) : EncodedLength.Statement (.pushRm32 a src) :=
  fun _ => pushRm_length ..

end Sys2Proof.Laws
end

