-- ==== Sys2Proof/Laws/PushAll.lean ====
section
/-!
SUPPORT. What PUSHAx does (48_push.md R310, R311): its eight slots do not overlap, all eight admissions come first, and
every slot holds its register afterwards.
-/

namespace Sys2Proof.Machine

/-- The slot of a push as a number: the stack pointer minus `n`, mod `2^S` (R291). -/
theorem toNat_lower (w : Size) (old : BitVec 32) (n : Nat) (hn : n ≤ 2 ^ 16) :
    (lower w old n).toNat = (old.toNat + 2 ^ 32 - n) % 2 ^ w.bits := by
  have := old.isLt
  cases w
  · simp only [lower, Size.bits, BitVec.toNat_setWidth, BitVec.extractLsb'_toNat, BitVec.toNat_sub,
      BitVec.toNat_ofNat]
    omega
  · simp only [lower, Size.bits, BitVec.toNat_sub, BitVec.toNat_ofNat]
    omega

/-- Two offsets that differ stay apart as linear addresses (R61). -/
theorem lin_add_ne {c : Config} {x : SegReg} {off off' : BitVec 32} {j j' : Nat} (h : off.toNat + j < 2 ^ 32)
    (h' : off'.toNat + j' < 2 ^ 32) (hne : off.toNat + j ≠ off'.toNat + j') :
    (lin c x off + BitVec.ofNat 32 j).toNat ≠ (lin c x off' + BitVec.ofNat 32 j').toNat := by
  simp only [lin, BitVec.toNat_add, BitVec.toNat_ofNat]
  have := (c.segBase.get x).isLt
  omega

/-- The slots of PUSHAx do not overlap when each lies inside the offset space. -/
theorem slots_disjoint {c : Config} {w : Size} {t : BitVec 32} {n : Nat} (hn : n = 2 ∨ n = 4) {k k' j j' : Nat}
    (hk : k < 8) (hk' : k' < 8) (hj : j < n) (hj' : j' < n) (hkk : k ≠ k')
    (h : (lower w t (n * (k + 1))).toNat + n ≤ 2 ^ w.bits)
    (h' : (lower w t (n * (k' + 1))).toNat + n ≤ 2 ^ w.bits) :
    (lin c .ss (lower w t (n * (k + 1))) + BitVec.ofNat 32 j).toNat ≠
      (lin c .ss (lower w t (n * (k' + 1))) + BitVec.ofNat 32 j').toNat := by
  have hb : 2 ^ w.bits ≤ 2 ^ 32 := by cases w <;> decide
  apply lin_add_ne
  · omega
  · omega
  · have hw : w.bits = 16 ∨ w.bits = 32 := by cases w <;> simp [Size.bits]
    rcases hn with rfl | rfl <;> rw [toNat_lower _ _ _ (by omega), toNat_lower _ _ _ (by omega)] <;>
      have := t.isLt <;> rcases hw with hw | hw <;> rw [hw] <;> omega

/-- The first admission that fails stops PUSHAx (R336). -/
theorem State.admitAll_eq_some {s : State} {w : Size} {t : BitVec 32} {n k : Nat} {e : Fault} (hk : k < 8)
    (hbefore : ∀ j < k, admission s.cfg .ss w (lower w t (n * (j + 1))) n .write = none)
    (h : admission s.cfg .ss w (lower w t (n * (k + 1))) n .write = some e) : s.admitAll w t n = some e := by
  unfold State.admitAll
  rw [List.findSome?_eq_some_iff]
  refine ⟨List.range k, k, (List.range' (k + 1) (7 - k)), ?_, h, fun j hj => hbefore j (List.mem_range.1 hj)⟩
  rw [List.range_eq_range', List.range_eq_range', ← List.range'_succ, show 7 - k + 1 = 8 - k by omega]
  simpa [show k + (8 - k) = 8 by omega] using (List.range'_append (s := 0) (m := k) (n := 8 - k) (step := 1)).symm

theorem State.admitAll_eq_none {s : State} {w : Size} {t : BitVec 32} {n : Nat}
    (h : ∀ k < 8, admission s.cfg .ss w (lower w t (n * (k + 1))) n .write = none) : s.admitAll w t n = none := by
  unfold State.admitAll
  rw [List.findSome?_eq_none_iff]
  exact fun k hk => h k (List.mem_range.1 hk)

theorem State.putAll_succ {wv : Nat} (s : State) (w : Size) (t : BitVec 32) (n : Nat) (v : GpReg → BitVec wv)
    (k : Nat) :
    s.putAll w t n v (k + 1) =
      (s.putAll w t n v k).put .ss (lower w t (n * (k + 1))) n (v (BitVec.ofNat 3 k)) := rfl

/-- The stores of PUSHAx change nothing but memory. -/
theorem State.putAll_eq {wv : Nat} (s : State) (w : Size) (t : BitVec 32) (n : Nat) (v : GpReg → BitVec wv)
    (k : Nat) : s.putAll w t n v k = { s with mem := (s.putAll w t n v k).mem } := by
  induction k with
  | zero => rfl
  | succ k ih => rw [State.putAll_succ]; rw [ih]; rfl

theorem State.putAll_cfg {wv : Nat} (s : State) (w : Size) (t : BitVec 32) (n : Nat) (v : GpReg → BitVec wv)
    (k : Nat) : (s.putAll w t n v k).cfg = s.cfg := by rw [State.putAll_eq]

/-- Bytes outside the slots read as before. -/
theorem State.read_putAll_of_not_covers {wv : Nat} (s : State) (w : Size) (t : BitVec 32) (n : Nat)
    (v : GpReg → BitVec wv) (k a : Nat) (h : ∀ j < k, ¬ covers s.cfg .ss (lower w t (n * (j + 1))) n a) :
    (s.putAll w t n v k).mem.read a = s.mem.read a := by
  induction k with
  | zero => rfl
  | succ k ih =>
    rw [State.putAll_succ, State.read_put_of_not_covers, ih fun j hj => h j (by omega)]
    rw [State.putAll_cfg]
    exact h k (by omega)

/-- Every slot holds its register after the stores. -/
theorem State.holds_putAll {wv : Nat} (s : State) (w : Size) (t : BitVec 32) (n : Nat) (hn : n = 2 ∨ n = 4)
    (v : GpReg → BitVec wv) (k : Nat) (hk : k ≤ 8)
    (ha : ∀ j < 8, admission s.cfg .ss w (lower w t (n * (j + 1))) n .write = none) (i : Nat) (hi : i < k) :
    (s.putAll w t n v k).holds .ss (lower w t (n * (i + 1))) n (v (BitVec.ofNat 3 i)) := by
  induction k with
  | zero => omega
  | succ k ih =>
    rw [State.putAll_succ]
    have hn' : n ≤ 2 ^ 32 := by omega
    by_cases hik : i = k
    · subst hik
      exact State.holds_put _ _ _ _ _ hn'
    · intro j hj
      have hold := ih (by omega) (by omega) j hj
      rw [State.put_cfg]
      rw [State.read_put_of_not_covers]
      · exact hold
      · rw [State.putAll_cfg]
        rintro ⟨j', hj', e⟩
        exact slots_disjoint hn (by omega) (by omega) hj hj' hik
          ((admission_eq_none ..).1 (ha i (by omega))).1 ((admission_eq_none ..).1 (ha k (by omega))).1 e

/-- An instruction whose meaning is PUSHAx has the rule of R310 and R311. -/
theorem PushAllRule.of_pushAll {wv : Nat} {i : Instr} {s : State} {a : Size} {n : Nat} {v : GpReg → BitVec wv}
    (hn : n = 2 ∨ n = 4) (h : exec i s = outcome (s.pushAll a n v)) : PushAllRule i s a n v := by
  refine ⟨fun k e hbefore he => ?_, fun ha => ?_⟩
  · rw [h, State.pushAll]
    rw [State.admitAll_eq_some k.isLt (fun j hj => hbefore ⟨j, by omega⟩ hj) he]
    rfl
  · have ha' : ∀ k < 8, admission s.cfg .ss (stackSize s.cfg a)
        (lower (stackSize s.cfg a) (s.sp (stackSize s.cfg a)) (n * (k + 1))) n .write = none :=
      fun k hk => ha ⟨k, hk⟩
    have hholds := State.holds_putAll s _ (s.sp (stackSize s.cfg a)) n hn v 8 (le_refl _) ha'
    have hread := State.read_putAll_of_not_covers s (stackSize s.cfg a) (s.sp (stackSize s.cfg a)) n v 8
    obtain ⟨m, hm⟩ : ∃ m, s.putAll (stackSize s.cfg a) (s.sp (stackSize s.cfg a)) n v 8 = { s with mem := m } :=
      ⟨_, State.putAll_eq ..⟩
    rw [State.pushAll] at h
    rw [State.admitAll_eq_none ha', hm] at h
    rw [hm] at hholds hread
    refine ⟨_, h, fun k => ?_, State.getR32_setSp_lower { s with mem := m } (stackSize s.cfg a) (8 * n),
      ⟨fun k _ => by simp; rfl, fun k hk => ?_, fun x => by simp [State.getSreg], by simp, by simp,
        fun x hx => ?_, by simp⟩, by simp, by simp⟩
    · have := hholds k k.isLt
      rw [show BitVec.ofNat 3 k.val = BitVec.ofFin k from BitVec.eq_of_toNat_eq (by simp)] at this
      exact State.holds_congr (s := { s with mem := m }) (by simp) (by simp) this
    · have hk' : (4 : GpReg) ≠ k := fun e => hk (by rw [e])
      rw [State.getR32_setSp, if_neg hk']
      rfl
    · rw [State.setSp_mem]
      exact hread x fun j hj hc => hx ⟨⟨j, hj⟩, hc⟩

end Sys2Proof.Machine
end

