-- ==== Sys2Proof/Laws/Rules.lean ====
section
/-!
SUPPORT. From a scalar function to the rule of an instruction: what a lane-by-lane instruction computes is what its
scalar function computes.
-/

namespace Sys2Proof.Machine

theorem MmxRule.of_mapB {mk : MmReg → RmOp → Instr} {f : BitVec 8 → BitVec 8 → BitVec 8}
    {P : BitVec 8 → BitVec 8 → BitVec 8 → Prop} (h : ∀ d src s, exec (mk d src) s = mmxBinary (mapB f) d src s)
    (hP : ∀ a b, P a b (f a b)) : MmxRule mk (LanesB P) :=
  MmxRule.of_mmxBinary (f := fun _ => mapB f) h fun _ _ _ _ hi => by rw [laneB_mapB _ _ _ hi]; exact hP _ _

theorem MmxRule.of_mapW {mk : MmReg → RmOp → Instr} {f : BitVec 16 → BitVec 16 → BitVec 16}
    {P : BitVec 16 → BitVec 16 → BitVec 16 → Prop} (h : ∀ d src s, exec (mk d src) s = mmxBinary (mapW f) d src s)
    (hP : ∀ a b, P a b (f a b)) : MmxRule mk (LanesW P) :=
  MmxRule.of_mmxBinary (f := fun _ => mapW f) h fun _ _ _ _ hi => by rw [laneW_mapW _ _ _ hi]; exact hP _ _

theorem MmxRule.of_mapD {mk : MmReg → RmOp → Instr} {f : BitVec 32 → BitVec 32 → BitVec 32}
    {P : BitVec 32 → BitVec 32 → BitVec 32 → Prop} (h : ∀ d src s, exec (mk d src) s = mmxBinary (mapD f) d src s)
    (hP : ∀ a b, P a b (f a b)) : MmxRule mk (LanesD P) :=
  MmxRule.of_mmxBinary (f := fun _ => mapD f) h fun _ _ _ _ hi => by rw [laneD_mapD _ _ _ hi]; exact hP _ _

/-- A Cyrix instruction over word lanes of its two operands. -/
theorem CyrixRule.of_mapW {dst : MmReg → MmReg} {mk : MmReg → RmOp → Instr}
    {f : Config → BitVec 16 → BitVec 16 → BitVec 16} {P : Config → BitVec 16 → BitVec 16 → BitVec 16 → BitVec 16 → Prop}
    (h : ∀ d src s, exec (mk d src) s =
      s.requireCyrix (s.writeMm (dst d) (mapW (f s.cfg) (s.getMm d)) (s.src64 src)))
    (hP : ∀ c x a b, P c x a b (f c a b)) : CyrixRule State.src64 dst mk (fun c => EachW (P c)) :=
  CyrixRule.of_writeMm (f := fun c _ => mapW (f c)) h fun _ _ _ _ _ hi => by
    rw [laneW_mapW _ _ _ hi]; exact hP ..

/-- A conditional move of byte lanes (R210 to R213). -/
theorem CyrixRule.of_select {mk : MmReg → MemOp → Instr} {p : BitVec 8 → Bool}
    {P : BitVec 8 → BitVec 8 → BitVec 8 → BitVec 8 → Prop} (h : ∀ d src s, exec (mk d src) s = cyrixSelect p d src s)
    (hP : ∀ c a b, P c a b (if p c then b else a)) : CyrixRule State.mem64 id mk (fun _ => EachB P) :=
  CyrixRule.of_writeMm (f := fun _ => selectB p) h fun _ _ _ _ _ hi => by
    unfold selectB; rw [laneB_ofLanesB _ hi]; exact hP ..

/-- The low half of a general register, as `r16[i]` reads it (R22). -/
theorem getR16_eq (s : State) (r : GpReg) : s.getR16 r = (s.getR32 r).setWidth 16 := by
  apply BitVec.eq_of_toNat_eq
  simp [State.getR16, BitVec.extractLsb'_toNat]

end Sys2Proof.Machine
end

