-- ==== Sys2Proof/Laws/Run.lean ====
section
/-!
SUPPORT. Runs: one step and then the rest, the induction over a run packaged once, and that these runs are the host's.
-/

namespace Sys2Proof.Machine

/-- A longer run is a step and a run. -/
theorem run_succ_eq_next (n : Nat) (s t : State) :
    run (n + 1) s = .next t ↔ ∃ u, step s = .next u ∧ run n u = .next t := by
  rw [run]
  cases step s <;> simp

/-- A relation that holds of every state to itself and is carried back over a step holds along every run. -/
theorem run_induction {P : State → State → Prop} (refl : ∀ s, P s s)
    (back : ∀ s u t, step s = .next u → P u t → P s t) (n : Nat) (s t : State) (h : run n s = .next t) : P s t := by
  induction n generalizing s with
  | zero => cases h; exact refl _
  | succ n ih =>
    obtain ⟨u, hu, h⟩ := (run_succ_eq_next n s t).1 h
    exact back s u t hu (ih u h)

/-- The host's runs are these. -/
theorem core_run_eq (n : Nat) (s : State) : Host.Core.run Sys2Proof.core n s = run n s := by
  induction n generalizing s with
  | zero => rfl
  | succ n ih =>
    refine (Host.Core.run.eq_2 Sys2Proof.core s n).trans ?_
    have e : Sys2Proof.core.step s = step s := rfl
    rw [e, run]
    cases step s with
    | next t => exact ih t
    | fault r => rfl
    | refused r => rfl

end Sys2Proof.Machine
end

