-- ==== Sys2Proof/Tests/Slice0.lean ====
section
/-!
SUPPORT. Tests and witnesses. Expected values are the source's worked examples and the derived vectors of
spec/95_test_vectors.md (S1 to S5, V0 to V10, P6), or bytes written out from the encoding rules of spec/30_encoding.md;
none is the model's own answer. The witnesses at the end give, for each statement with hypotheses, concrete states and
operands that meet them.
-/

namespace Sys2Proof.Tests

open Sys2Proof Sys2Proof.Machine

/-! ## States and observations -/

/-- The conventions of 95_test_vectors.md: MODE 32, all bases 0, everything accessible, `pc` 1000h. -/
def lab32 : State :=
  { State.reset with
    pc := 0x1000
    cfg := { Config.reset with mode := .s32, segBase := { es := 0, cs := 0, ss := 0, ds := 0, fs := 0, gs := 0 },
                               stackSegSize := .s32 } }

/-- The same with MODE 16. -/
def lab16 : State := { lab32 with cfg := { lab32.cfg with mode := .s16, stackSegSize := .s16 } }

/-- `mm[0]`, `mm[1]` and `mm[2]` set. -/
def mms (a b c : BitVec 64) : State := ((lab32.setMm 0 a).setMm 1 b).setMm 2 c

/-- Bytes in memory from an address on. -/
def withBytes (s : State) (a : Nat) (bs : List Byte) : State :=
  { s with mem := (bs.zipIdx a).foldl (fun m p => m.write p.2 p.1) s.mem }

/-- Bytes in memory at `pc` (the base of CS is 0 here). -/
def withCode (s : State) (bs : List Byte) : State := withBytes s s.pc.toNat bs

/-- The next state of an outcome. -/
def nextOf : Host.Outcome State Fault Refusal → Option State
  | .next t => some t
  | _ => none

/-- The fault of an outcome. -/
def faultOf : Host.Outcome State Fault Refusal → Option Fault
  | .fault e => some e
  | _ => none

/-- The refusal of an outcome. -/
def refusalOf : Host.Outcome State Fault Refusal → Option Refusal
  | .refused r => some r
  | _ => none

/-- An MMX register after an instruction. -/
def mmAfter (i : Instr) (r : MmReg) (s : State) : Option (BitVec 64) := (nextOf (exec i s)).map (·.getMm r)

/-- `mm[0]` after a two-operand instruction on `mm[0] = d`, `mm[1] = v`. -/
def two (mk : MmReg → RmOp → Instr) (d v : BitVec 64) : Option (BitVec 64) := mmAfter (mk 0 (.reg 1)) 0 (mms d v 0)

/-- `mm[0]` after a shift by an immediate count. -/
def shiftBy (mk : MmReg → BitVec 8 → Instr) (d : BitVec 64) (c : BitVec 8) : Option (BitVec 64) :=
  mmAfter (mk 0 c) 0 (mms d 0 0)

/-- Bytes of memory in a state. -/
def bytesAt (s : State) (a n : Nat) : List Byte := (List.range n).map fun k => s.mem.read (a + k)

/-- ESP and `n` bytes of memory at `a` after an instruction. -/
def pushed (i : Instr) (s : State) (a n : Nat) : Option (BitVec 32 × List Byte) :=
  (nextOf (exec i s)).map fun t => (t.getR32 4, bytesAt t a n)

/-- The absolute memory operand at 2000h. -/
def m2000 : MemOp := .addr32 .ds none none 0x2000

/-- The bytes of a quadword, the least significant first (R65). -/
def bytes64 (v : BitVec 64) : List Byte := (List.range 8).map (byteOf v)

/-- A state for the Cyrix rows with a memory operand: implied register `mm[1] = acc`, `mm[0] = d`, memory `v`. -/
def cyrixMem (acc d v : BitVec 64) : State := withBytes (mms d acc 0) 0x2000 (bytes64 v)

/-! ## Well-formedness: an ill-formed term for each check -/

theorem test_wellFormed_scaledEsp :
    (Instr.paddb 0 (.mem (.addr32 .ds (some 0) (some { reg := 4, scale := 1 }) 0))).wellFormed = false := by decide

theorem test_wellFormed_scaledEsp_memOnly :
    (Instr.pdistib 0 (.addr32 .ds none (some { reg := 4, scale := 0 }) 8)).wellFormed = false := by decide

theorem test_wellFormed_pushRm16_addressSize :
    (Instr.pushRm16 .s32 (.mem (.addr16 .ds .bx 0))).wellFormed = false := by decide

theorem test_wellFormed_pushRm32_addressSize :
    (Instr.pushRm32 .s16 (.mem (.addr32 .ds none none 0))).wellFormed = false := by decide

theorem test_wellFormed_pushRm32_scaledEsp :
    (Instr.pushRm32 .s32 (.mem (.addr32 .ds none (some { reg := 4, scale := 3 }) 0))).wellFormed = false := by decide

theorem test_wellFormed_accepts :
    (Instr.pushRm32 .s32 (.mem (.addr32 .ss (some 4) (some { reg := 5, scale := 3 }) 0))).wellFormed = true ∧
    (Instr.paddb 7 (.mem (.addr16 .gs .abs 0xFFFF))).wellFormed = true := by decide

/-! ## Decoding: every row of R128, bytes written out from the table

Two-operand rows are given ModRM `11 010 101b = D5` (register 2, r/m register 5) or, where only memory is allowed,
`00 010 011b = 13` ([EBX] in 32-bit addressing). -/

theorem test_decode_cyrixRows :
    decode .s32 [0x0F, 0x50, 0xD5] = .instr (.paveb 2 (.reg 5)) 3 ∧
    decode .s32 [0x0F, 0x51, 0xD5] = .instr (.paddsiw 2 (.reg 5)) 3 ∧
    decode .s32 [0x0F, 0x52, 0xD5] = .instr (.pmagw 2 (.reg 5)) 3 ∧
    decode .s32 [0x0F, 0x55, 0xD5] = .instr (.psubsiw 2 (.reg 5)) 3 ∧
    decode .s32 [0x0F, 0x59, 0xD5] = .instr (.pmulhrw 2 (.reg 5)) 3 ∧
    decode .s32 [0x0F, 0x5D, 0xD5] = .instr (.pmulhriw 2 (.reg 5)) 3 := by decide

theorem test_decode_unpackPackRows :
    decode .s32 [0x0F, 0x60, 0xD5] = .instr (.punpcklbw 2 (.reg 5)) 3 ∧
    decode .s32 [0x0F, 0x61, 0xD5] = .instr (.punpcklwd 2 (.reg 5)) 3 ∧
    decode .s32 [0x0F, 0x62, 0xD5] = .instr (.punpckldq 2 (.reg 5)) 3 ∧
    decode .s32 [0x0F, 0x63, 0xD5] = .instr (.packsswb 2 (.reg 5)) 3 ∧
    decode .s32 [0x0F, 0x67, 0xD5] = .instr (.packuswb 2 (.reg 5)) 3 ∧
    decode .s32 [0x0F, 0x68, 0xD5] = .instr (.punpckhbw 2 (.reg 5)) 3 ∧
    decode .s32 [0x0F, 0x69, 0xD5] = .instr (.punpckhwd 2 (.reg 5)) 3 ∧
    decode .s32 [0x0F, 0x6A, 0xD5] = .instr (.punpckhdq 2 (.reg 5)) 3 ∧
    decode .s32 [0x0F, 0x6B, 0xD5] = .instr (.packssdw 2 (.reg 5)) 3 := by decide

theorem test_decode_compareMoveRows :
    decode .s32 [0x0F, 0x64, 0xD5] = .instr (.pcmpgtb 2 (.reg 5)) 3 ∧
    decode .s32 [0x0F, 0x65, 0xD5] = .instr (.pcmpgtw 2 (.reg 5)) 3 ∧
    decode .s32 [0x0F, 0x66, 0xD5] = .instr (.pcmpgtd 2 (.reg 5)) 3 ∧
    decode .s32 [0x0F, 0x74, 0xD5] = .instr (.pcmpeqb 2 (.reg 5)) 3 ∧
    decode .s32 [0x0F, 0x75, 0xD5] = .instr (.pcmpeqw 2 (.reg 5)) 3 ∧
    decode .s32 [0x0F, 0x76, 0xD5] = .instr (.pcmpeqd 2 (.reg 5)) 3 ∧
    decode .s32 [0x0F, 0x6E, 0xD5] = .instr (.movdLoad 2 (.reg 5)) 3 ∧
    decode .s32 [0x0F, 0x6F, 0xD5] = .instr (.movqLoad 2 (.reg 5)) 3 := by decide

theorem test_decode_shiftRows :
    decode .s32 [0x0F, 0xD1, 0xD5] = .instr (.psrlw 2 (.reg 5)) 3 ∧
    decode .s32 [0x0F, 0xD2, 0xD5] = .instr (.psrld 2 (.reg 5)) 3 ∧
    decode .s32 [0x0F, 0xD3, 0xD5] = .instr (.psrlq 2 (.reg 5)) 3 ∧
    decode .s32 [0x0F, 0xE1, 0xD5] = .instr (.psraw 2 (.reg 5)) 3 ∧
    decode .s32 [0x0F, 0xE2, 0xD5] = .instr (.psrad 2 (.reg 5)) 3 ∧
    decode .s32 [0x0F, 0xF1, 0xD5] = .instr (.psllw 2 (.reg 5)) 3 ∧
    decode .s32 [0x0F, 0xF2, 0xD5] = .instr (.pslld 2 (.reg 5)) 3 ∧
    decode .s32 [0x0F, 0xF3, 0xD5] = .instr (.psllq 2 (.reg 5)) 3 := by decide

theorem test_decode_arithmeticRows :
    decode .s32 [0x0F, 0xD5, 0xD5] = .instr (.pmullw 2 (.reg 5)) 3 ∧
    decode .s32 [0x0F, 0xD8, 0xD5] = .instr (.psubusb 2 (.reg 5)) 3 ∧
    decode .s32 [0x0F, 0xD9, 0xD5] = .instr (.psubusw 2 (.reg 5)) 3 ∧
    decode .s32 [0x0F, 0xDC, 0xD5] = .instr (.paddusb 2 (.reg 5)) 3 ∧
    decode .s32 [0x0F, 0xDD, 0xD5] = .instr (.paddusw 2 (.reg 5)) 3 ∧
    decode .s32 [0x0F, 0xE5, 0xD5] = .instr (.pmulhw 2 (.reg 5)) 3 ∧
    decode .s32 [0x0F, 0xE8, 0xD5] = .instr (.psubsb 2 (.reg 5)) 3 ∧
    decode .s32 [0x0F, 0xE9, 0xD5] = .instr (.psubsw 2 (.reg 5)) 3 ∧
    decode .s32 [0x0F, 0xEC, 0xD5] = .instr (.paddsb 2 (.reg 5)) 3 ∧
    decode .s32 [0x0F, 0xED, 0xD5] = .instr (.paddsw 2 (.reg 5)) 3 ∧
    decode .s32 [0x0F, 0xF5, 0xD5] = .instr (.pmaddwd 2 (.reg 5)) 3 ∧
    decode .s32 [0x0F, 0xF8, 0xD5] = .instr (.psubb 2 (.reg 5)) 3 ∧
    decode .s32 [0x0F, 0xF9, 0xD5] = .instr (.psubw 2 (.reg 5)) 3 ∧
    decode .s32 [0x0F, 0xFA, 0xD5] = .instr (.psubd 2 (.reg 5)) 3 ∧
    decode .s32 [0x0F, 0xFC, 0xD5] = .instr (.paddb 2 (.reg 5)) 3 ∧
    decode .s32 [0x0F, 0xFD, 0xD5] = .instr (.paddw 2 (.reg 5)) 3 ∧
    decode .s32 [0x0F, 0xFE, 0xD5] = .instr (.paddd 2 (.reg 5)) 3 := by decide

theorem test_decode_logicalRows :
    decode .s32 [0x0F, 0xDB, 0xD5] = .instr (.pand 2 (.reg 5)) 3 ∧
    decode .s32 [0x0F, 0xDF, 0xD5] = .instr (.pandn 2 (.reg 5)) 3 ∧
    decode .s32 [0x0F, 0xEB, 0xD5] = .instr (.por 2 (.reg 5)) 3 ∧
    decode .s32 [0x0F, 0xEF, 0xD5] = .instr (.pxor 2 (.reg 5)) 3 := by decide

theorem test_decode_memoryOnlyRows :
    decode .s32 [0x0F, 0x54, 0x13] = .instr (.pdistib 2 (.addr32 .ds (some 3) none 0)) 3 ∧
    decode .s32 [0x0F, 0x58, 0x13] = .instr (.pmvzb 2 (.addr32 .ds (some 3) none 0)) 3 ∧
    decode .s32 [0x0F, 0x5A, 0x13] = .instr (.pmvnzb 2 (.addr32 .ds (some 3) none 0)) 3 ∧
    decode .s32 [0x0F, 0x5B, 0x13] = .instr (.pmvlzb 2 (.addr32 .ds (some 3) none 0)) 3 ∧
    decode .s32 [0x0F, 0x5C, 0x13] = .instr (.pmvgezb 2 (.addr32 .ds (some 3) none 0)) 3 ∧
    decode .s32 [0x0F, 0x5E, 0x13] = .instr (.pmachriw 2 (.addr32 .ds (some 3) none 0)) 3 := by decide

/-- `/digit ib` with the register in `rm`: ModRM `11 010 101b = D5`, `11 100 101b = E5`, `11 110 101b = F5`. -/
theorem test_decode_shiftGroups :
    decode .s32 [0x0F, 0x71, 0xD5, 0x11] = .instr (.psrlwImm 5 0x11) 4 ∧
    decode .s32 [0x0F, 0x71, 0xE5, 0x11] = .instr (.psrawImm 5 0x11) 4 ∧
    decode .s32 [0x0F, 0x71, 0xF5, 0x11] = .instr (.psllwImm 5 0x11) 4 ∧
    decode .s32 [0x0F, 0x72, 0xD5, 0x11] = .instr (.psrldImm 5 0x11) 4 ∧
    decode .s32 [0x0F, 0x72, 0xE5, 0x11] = .instr (.psradImm 5 0x11) 4 ∧
    decode .s32 [0x0F, 0x72, 0xF5, 0x11] = .instr (.pslldImm 5 0x11) 4 ∧
    decode .s32 [0x0F, 0x73, 0xD5, 0x11] = .instr (.psrlqImm 5 0x11) 4 ∧
    decode .s32 [0x0F, 0x73, 0xF5, 0x11] = .instr (.psllqImm 5 0x11) 4 := by decide

/-- The store rows: `reg` is the source, `rm` the destination. -/
theorem test_decode_emmsAndStores :
    decode .s32 [0x0F, 0x77] = .instr .emms 2 ∧
    decode .s32 [0x0F, 0x7E, 0xD5] = .instr (.movdStore (.reg 5) 2) 3 ∧
    decode .s32 [0x0F, 0x7F, 0xD5] = .instr (.movqStore (.reg 5) 2) 3 := by decide

theorem test_decode_segmentPushes :
    decode .s16 [0x06] = .instr (.pushEs .s16 .s16) 1 ∧ decode .s32 [0x0E] = .instr (.pushCs .s32 .s32) 1 ∧
    decode .s32 [0x66, 0x16] = .instr (.pushSs .s16 .s32) 2 ∧ decode .s16 [0x67, 0x1E] = .instr (.pushDs .s16 .s32) 2 ∧
    decode .s16 [0x0F, 0xA0] = .instr (.pushFs .s16 .s16) 2 ∧
    decode .s32 [0x66, 0x0F, 0xA8] = .instr (.pushGs .s16 .s32) 3 := by decide

theorem test_decode_registerAndOperandPushes :
    decode .s16 [0x57] = .instr (.pushReg16 .s16 7) 1 ∧ decode .s32 [0x54] = .instr (.pushReg32 .s32 4) 1 ∧
    decode .s16 [0xFF, 0x37] = .instr (.pushRm16 .s16 (.mem (.addr16 .ds .bx 0))) 2 ∧
    decode .s32 [0xFF, 0x74, 0x24, 0x04] = .instr (.pushRm32 .s32 (.mem (.addr32 .ss (some 4) none 4))) 4 := by decide

theorem test_decode_otherPushes :
    decode .s16 [0x60] = .instr (.pushaw .s16) 1 ∧ decode .s32 [0x60] = .instr (.pushad .s32) 1 ∧
    decode .s16 [0x68, 0x34, 0x12] = .instr (.pushImm16 .s16 0x1234) 3 ∧
    decode .s32 [0x68, 0x78, 0x56, 0x34, 0x12] = .instr (.pushImm32 .s32 0x12345678) 5 ∧
    decode .s16 [0x6A, 0x7F] = .instr (.pushImm8 .s16 .s16 0x7F) 2 ∧
    decode .s32 [0x66, 0x9C] = .instr (.pushfw .s32) 2 ∧ decode .s16 [0x66, 0x9C] = .instr (.pushfd .s16) 2 := by decide

/-- The second names are written as the unprefixed byte (R312, R317). -/
theorem test_encode_secondNames :
    encode .s16 (.pusha .s16) = [0x60] ∧ encode .s32 (.pusha .s32) = [0x60] ∧
    encode .s16 (.pushf .s16) = [0x9C] ∧ encode .s32 (.pushf .s16) = [0x67, 0x9C] := by decide

/-- V0: addressing forms. -/
theorem test_decode_addressing :
    decode .s32 [0x0F, 0xFC, 0x08] = .instr (.paddb 1 (.mem (.addr32 .ds (some 0) none 0))) 3 ∧
    decode .s32 [0x0F, 0xFC, 0x44, 0x8B, 0x10] =
      .instr (.paddb 0 (.mem (.addr32 .ds (some 3) (some { reg := 1, scale := 2 }) 0x10))) 5 ∧
    decode .s32 [0x0F, 0xFC, 0x05, 0x00, 0x30, 0x00, 0x00] = .instr (.paddb 0 (.mem (.addr32 .ds none none 0x3000))) 7 ∧
    decode .s32 [0x0F, 0xFC, 0x45, 0xF8] = .instr (.paddb 0 (.mem (.addr32 .ss (some 5) none 0xFFFFFFF8))) 4 ∧
    decode .s32 [0x0F, 0xFC, 0x04, 0x24] = .instr (.paddb 0 (.mem (.addr32 .ss (some 4) none 0))) 4 ∧
    decode .s16 [0x0F, 0x6F, 0x06, 0x34, 0x12] = .instr (.movqLoad 0 (.mem (.addr16 .ds .abs 0x1234))) 5 ∧
    decode .s16 [0x0F, 0x6F, 0x00] = .instr (.movqLoad 0 (.mem (.addr16 .ds .bxSi 0))) 3 ∧
    decode .s16 [0x67, 0x0F, 0x6F, 0x00] = .instr (.movqLoad 0 (.mem (.addr32 .ds (some 0) none 0))) 4 ∧
    decode .s32 [0x26, 0x0F, 0x6F, 0x03] = .instr (.movqLoad 0 (.mem (.addr32 .es (some 3) none 0))) 4 ∧
    decode .s32 [0x0F, 0xFC, 0x04, 0xAD, 0x44, 0x33, 0x22, 0x11] =
      .instr (.paddb 0 (.mem (.addr32 .ds none (some { reg := 5, scale := 2 }) 0x11223344))) 8 := by decide

/-- V0: sizes. `66 50`, and `68` in both modes. -/
theorem test_decode_sizes :
    decode .s16 [0x66, 0x50] = .instr (.pushReg32 .s16 0) 2 ∧ decode .s32 [0x66, 0x50] = .instr (.pushReg16 .s32 0) 2 ∧
    decode .s16 [0x68, 0x78, 0x56, 0x34, 0x12] = .instr (.pushImm16 .s16 0x5678) 3 ∧
    decode .s32 [0x0F, 0x71, 0xF1, 0x04] = .instr (.psllwImm 1 4) 4 := by decide

/-- V0 and V10: rejections. -/
theorem test_decode_rejections :
    decode .s32 [0x0F, 0x58, 0xC1] = .rejected .invalidOpcode ∧ decode .s32 [0x0F, 0x54, 0xC1] = .rejected .invalidOpcode ∧
    decode .s32 [0x0F, 0x73, 0xE0, 0x01] = .rejected .invalidOpcode ∧
    decode .s32 [0x0F, 0x71, 0x10, 0x01] = .rejected .invalidOpcode ∧
    decode .s32 [0x0F, 0x71, 0x10] = .rejected .invalidOpcode ∧
    decode .s32 [0x0F, 0xE3, 0xC1] = .rejected .notInScope ∧ decode .s32 [0xFF, 0x20] = .rejected .notInScope ∧
    decode .s32 [0xEB, 0xFE] = .rejected .notInScope ∧
    decode .s32 [0x66, 0x0F, 0xFC, 0xC1] = .rejected .prefixNotInScope ∧
    decode .s32 [0xF3, 0x0F, 0x6F, 0xC1] = .rejected .prefixNotInScope ∧
    decode .s32 [0x0F, 0xFC] = .rejected .truncated := by decide

/-- The longest instruction has ten bytes (R127): 67, 66, an override, FF, ModRM, SIB, disp32. -/
theorem test_decode_longest :
    decode .s16 [0x67, 0x66, 0x64, 0xFF, 0xB4, 0x88, 0x78, 0x56, 0x34, 0x12] =
      .instr (.pushRm32 .s32 (.mem (.addr32 .fs (some 0) (some { reg := 1, scale := 2 }) 0x12345678))) 10 := by decide

/-- The opcode-table numbering: `0F FC C1` with the first byte in the low bits. -/
theorem test_decodeTableWord : decodeTableWord 24 0xC1FC0F = some (.paddb 0 (.reg 1)) := by decide

/-! ## EMMS, MOVD, MOVQ (V1) -/

theorem test_emms : (nextOf (exec .emms lab32)).map (·.ftw) = some 0xFFFF := by decide

theorem test_movdLoad_register :
    mmAfter (.movdLoad 3 (.reg 0)) 3 ((lab32.setR32 0 0x89ABCDEF).setMm 3 0xFFFFFFFFFFFFFFFF) =
      some 0x0000000089ABCDEF := by decide

theorem test_movdLoad_memory :
    mmAfter (.movdLoad 0 (.mem (.addr32 .ds (some 6) none 0))) 0
      (withBytes (lab32.setR32 6 0x500000) 0x500000 [0x01, 0x0A, 0x80, 0xFF, 0x77]) = some 0x00000000FF800A01 := by decide

theorem test_movdStore_register :
    (nextOf (exec (.movdStore (.reg 3) 1) (mms 0 0x0123456789ABCDEF 0))).map (·.getR32 3) = some 0x89ABCDEF := by decide

theorem test_movdStore_memory :
    (nextOf (exec (.movdStore (.mem m2000) 1) (mms 0 0x0123456789ABCDEF 0))).map (bytesAt · 0x2000 5) =
      some [0xEF, 0xCD, 0xAB, 0x89, 0x00] := by decide

theorem test_movqLoad_memory :
    mmAfter (.movqLoad 0 (.mem m2000)) 0 (withBytes lab32 0x2000 [0x0A, 0x1A, 0x2A, 0x3A, 0x4A, 0x5A, 0x6A, 0x7A]) =
      some 0x7A6A5A4A3A2A1A0A := by decide

theorem test_movqLoad_offsetWrap :
    faultOf (exec (.movqLoad 0 (.mem (.addr32 .ds none none 0xFFFFFFFC))) lab32) =
      some (.offsetWrap .ds 0xFFFFFFFC 8) := by decide

theorem test_movqStore_memory :
    (nextOf (exec (.movqStore (.mem (.addr32 .ds (some 3) none 8)) 2)
      ((mms 0 0 0x1122334455667788).setR32 3 0x2000))).map (bytesAt · 0x2008 8) =
      some [0x88, 0x77, 0x66, 0x55, 0x44, 0x33, 0x22, 0x11] := by decide

theorem test_movqStore_register :
    mmAfter (.movqStore (.reg 5) 2) 5 (mms 0 0 0x1122334455667788) = some 0x1122334455667788 := by decide

/-! ## Pack and unpack (S1, V2) -/

theorem test_packssdw :
    two .packssdw 0x00007FFFFFFF8000 0x00008000FFFF7FFF = some 0x7FFF80007FFF8000 ∧
    two .packssdw 0x0000800000007FFF 0xFFFF7FFFFFFF8000 = some 0x800080007FFF7FFF := by decide

theorem test_packsswb :
    two .packsswb 0x007F0080FF80FF7F 0x7FFF8000000000FF = some 0x7F80007F7F7F8080 := by decide

theorem test_packuswb :
    two .packuswb 0x007F0080FF80FF7F 0x7FFF8000000000FF = some 0xFFFF00FF7F80FFFF := by decide

theorem test_punpckhbw :
    two .punpckhbw 0x7A6A5A4A3A2A1A0A 0x7B6B5B4B3B2B1B0B = some 0x7B7A6B6A5B5A4B4A := by decide

theorem test_punpckhwd :
    two .punpckhwd 0x7A6A5A4A3A2A1A0A 0x7B6B5B4B3B2B1B0B = some 0x7B6B7A6A5B4B5A4A := by decide

theorem test_punpckhdq :
    two .punpckhdq 0x7A6A5A4A3A2A1A0A 0x7B6B5B4B3B2B1B0B = some 0x7B6B5B4B7A6A5A4A := by decide

theorem test_punpcklbw :
    two .punpcklbw 0x7A6A5A4A3A2A1A0A 0x7B6B5B4B3B2B1B0B = some 0x3B3A2B2A1B1A0B0A := by decide

theorem test_punpcklwd :
    two .punpcklwd 0x7A6A5A4A3A2A1A0A 0x7B6B5B4B3B2B1B0B = some 0x3B2B3A2A1B0B1A0A := by decide

theorem test_punpckldq :
    two .punpckldq 0x7A6A5A4A3A2A1A0A 0x7B6B5B4B3B2B1B0B = some 0x3B2B1B0B3A2A1A0A := by decide

/-- V2: PACKUSWB with `PACKUSWB_INPUT = signed`. -/
theorem test_packuswb_signed :
    mmAfter (.packuswb 0 (.reg 1)) 0
      { mms 0x007F0080FF80FF7F 0x7FFF8000000000FF 0 with cfg := { lab32.cfg with packuswbInput := .signed } } =
      some 0xFF0000FF7F800000 := by decide

/-- V2: source and destination the same register. -/
theorem test_punpcklbw_sameRegister :
    mmAfter (.punpcklbw 0 (.reg 0)) 0 (mms 0x7A6A5A4A3A2A1A0A 0 0) = some 0x3A3A2A2A1A1A0A0A := by decide

/-! ## Addition and subtraction (V3) -/

theorem test_paddb :
    two .paddb 0x7F80FF017FFF8000 0x0180010101000001 = some 0x8000000280FF8001 := by decide

theorem test_paddw :
    two .paddw 0x7FFF8000FFFF0001 0x00018000FFFF0002 = some 0x80000000FFFE0003 := by decide

theorem test_paddd :
    two .paddd 0xFFFFFFFF7FFFFFFF 0x0000000100000001 = some 0x0000000080000000 := by decide

theorem test_paddsb :
    two .paddsb 0x7F80FF017FFF8000 0x0180010101000001 = some 0x7F8000027FFF8001 ∧
    two .paddsb 0x7F7F8080FF010000 0x017F80FF01FF0000 = some 0x7F7F808000000000 := by decide

theorem test_paddsw :
    two .paddsw 0x7FFF8000FFFF0001 0x00018000FFFF0002 = some 0x7FFF8000FFFE0003 := by decide

theorem test_paddusb :
    two .paddusb 0x7F80FF017FFF8000 0x0180010101000001 = some 0x80FFFF0280FF8001 := by decide

theorem test_paddusw :
    two .paddusw 0x7FFF8000FFFF0001 0x00018000FFFF0002 = some 0x8000FFFFFFFF0003 ∧
    two .paddusw 0xFFFF000180007FFF 0x0001FFFF80007FFF = some 0xFFFFFFFFFFFFFFFE := by decide

theorem test_psubb :
    two .psubb 0x807F7F8000FF1005 0x01FF80017F010503 = some 0x7F80FF7F81FE0B02 := by decide

theorem test_psubw :
    two .psubw 0x80007FFF00001000 0x0001FFFF00010FFF = some 0x7FFF8000FFFF0001 := by decide

theorem test_psubd :
    two .psubd 0x0000000000000005 0x0000000100000007 = some 0xFFFFFFFFFFFFFFFE := by decide

theorem test_psubsb :
    two .psubsb 0x807F7F8000FF1005 0x01FF80017F010503 = some 0x807F7F8081FE0B02 := by decide

theorem test_psubsw :
    two .psubsw 0x80007FFF00001000 0x0001FFFF00010FFF = some 0x80007FFFFFFF0001 := by decide

theorem test_psubusb :
    two .psubusb 0x807F7F8000FF1005 0x01FF80017F010503 = some 0x7F00007F00FE0B02 := by decide

theorem test_psubusw :
    two .psubusw 0x80007FFF00001000 0x0001FFFF00010FFF = some 0x7FFF000000000001 := by decide

/-! ## Logical (V5) -/

theorem test_pand :
    two .pand 0xFF00FF00F0F0AAAA 0x0FF00FF0FFFF5555 = some 0x0F000F00F0F00000 := by decide

theorem test_pandn :
    two .pandn 0xFF00FF00F0F0AAAA 0x0FF00FF0FFFF5555 = some 0x00F000F00F0F5555 := by decide

theorem test_por :
    two .por 0xFF00FF00F0F0AAAA 0x0FF00FF0FFFF5555 = some 0xFFF0FFF0FFFFFFFF := by decide

theorem test_pxor :
    two .pxor 0xFF00FF00F0F0AAAA 0x0FF00FF0FFFF5555 = some 0xF0F0F0F00F0FFFFF := by decide

/-! ## Comparison (V6) -/

theorem test_pcmpeqb :
    two .pcmpeqb 0x7F80000105FF1234 0x807F000105001234 = some 0x0000FFFFFF00FFFF := by decide

theorem test_pcmpeqw :
    two .pcmpeqw 0x7FFF8000FFFF1234 0x80007FFF00001234 = some 0x000000000000FFFF := by decide

theorem test_pcmpeqd :
    two .pcmpeqd 0x12345678FFFFFFFF 0x12345678FFFFFFFE = some 0xFFFFFFFF00000000 := by decide

theorem test_pcmpgtb :
    two .pcmpgtb 0x7F80000105FF1234 0x807F000105001234 = some 0xFF00000000000000 := by decide

theorem test_pcmpgtw :
    two .pcmpgtw 0x7FFF8000FFFF1234 0x80007FFF00001234 = some 0xFFFF000000000000 := by decide

theorem test_pcmpgtd :
    two .pcmpgtd 0x7FFFFFFF80000000 0x800000007FFFFFFF = some 0xFFFFFFFF00000000 := by decide

/-! ## Multiplication (V7) -/

theorem test_pmaddwd :
    two .pmaddwd 0x0001000200030004 0x0005000600070008 = some 0x0000001100000035 ∧
    two .pmaddwd 0x8000800080008000 0x8000800080008000 = some 0x8000000080000000 := by decide

theorem test_pmulhw :
    two .pmulhw 0x80007FFFFFFF0003 0x80007FFF00020004 = some 0x40003FFFFFFF0000 := by decide

theorem test_pmullw :
    two .pmullw 0x80007FFFFFFF0003 0x80007FFF00020004 = some 0x00000001FFFE000C := by decide

/-! ## Shifts (V8) -/

theorem test_psllw :
    two .psllw 0x8001FFFF7FFF0001 0x0000000000000004 = some 0x0010FFF0FFF00010 ∧
    two .psllw 0x8001FFFF7FFF0001 0x0000000100000000 = some 0x0000000000000000 := by decide

theorem test_pslld :
    two .pslld 0x80000001FFFFFFFE 0x0000000000000008 = some 0x00000100FFFFFE00 ∧
    two .pslld 0x80000001FFFFFFFE 0x0000000000000020 = some 0x0000000000000000 := by decide

theorem test_psllq :
    two .psllq 0x8000000000000001 0x0000000000000020 = some 0x0000000100000000 ∧
    two .psllq 0x8000000000000001 0x0000000000000040 = some 0x0000000000000000 := by decide

theorem test_psraw :
    two .psraw 0x8001FFFF7FFF0001 0x0000000000000001 = some 0xC000FFFF3FFF0000 ∧
    two .psraw 0x8001FFFF7FFF0001 0x0000000100000000 = some 0xFFFFFFFF00000000 := by decide

theorem test_psrad :
    two .psrad 0x80000001FFFFFFFE 0x0000000000000001 = some 0xC0000000FFFFFFFF ∧
    two .psrad 0x80000001FFFFFFFE 0x00000000000000C8 = some 0xFFFFFFFFFFFFFFFF := by decide

theorem test_psrlw :
    two .psrlw 0x8001FFFF7FFF0001 0x000000000000000F = some 0x0001000100000000 ∧
    two .psrlw 0x8001FFFF7FFF0001 0x0000000000000010 = some 0x0000000000000000 := by decide

theorem test_psrld :
    two .psrld 0x80000001FFFFFFFE 0x0000000000000008 = some 0x0080000000FFFFFF ∧
    two .psrld 0x80000001FFFFFFFE 0x0000000000000020 = some 0x0000000000000000 := by decide

theorem test_psrlq :
    two .psrlq 0x8000000000000001 0x000000000000003F = some 0x0000000000000001 ∧
    two .psrlq 0x8000000000000001 0x0000000000000040 = some 0x0000000000000000 := by decide

theorem test_psllwImm :
    shiftBy .psllwImm 0x8001FFFF7FFF0001 4 = some 0x0010FFF0FFF00010 ∧
    shiftBy .psllwImm 0x8001FFFF7FFF0001 15 = some 0x8000800080008000 := by decide

theorem test_pslldImm :
    shiftBy .pslldImm 0x80000001FFFFFFFE 1 = some 0x00000002FFFFFFFC := by decide

theorem test_psllqImm :
    shiftBy .psllqImm 0x0123456789ABCDEF 8 = some 0x23456789ABCDEF00 := by decide

theorem test_psrawImm :
    shiftBy .psrawImm 0x8001FFFF7FFF0001 15 = some 0xFFFFFFFF00000000 := by decide

theorem test_psradImm :
    shiftBy .psradImm 0x80000001FFFFFFFE 8 = some 0xFF800000FFFFFFFF := by decide

theorem test_psrlwImm :
    shiftBy .psrlwImm 0x8001FFFF7FFF0001 1 = some 0x40007FFF3FFF0000 := by decide

theorem test_psrldImm :
    shiftBy .psrldImm 0x80000001FFFFFFFE 31 = some 0x0000000100000001 := by decide

theorem test_psrlqImm :
    shiftBy .psrlqImm 0x0123456789ABCDEF 8 = some 0x000123456789ABCD ∧
    shiftBy .psrlqImm 0x8000000000000001 255 = some 0x0000000000000000 := by decide

/-! ## The Cyrix family (S2, V4) -/

theorem test_paddsiw :
    mmAfter (.paddsiw 0 (.reg 2)) 1 (mms 0x7FFF8000FFFF0001 0 0x00018000FFFF0002) = some 0x7FFF8000FFFE0003 ∧
    mmAfter (.paddsiw 0 (.reg 2)) 0 (mms 0x7FFF8000FFFF0001 0 0x00018000FFFF0002) = some 0x7FFF8000FFFF0001 := by decide

/-- S2: with MM1 as the first operand the result goes to MM0. -/
theorem test_paddsiw_implied :
    mmAfter (.paddsiw 1 (.reg 2)) 0 (mms 0 0x7FFF8000FFFF0001 0x00018000FFFF0002) = some 0x7FFF8000FFFE0003 := by decide

theorem test_psubsiw :
    mmAfter (.psubsiw 0 (.reg 2)) 1 (mms 0x80007FFF00001000 0 0x0001FFFF00010FFF) = some 0x80007FFFFFFF0001 := by decide

theorem test_paveb : two .paveb 0x00FF01FE80037F10 0x00FF02FF80047F20 = some 0x00FF01FE80037F18 := by decide

theorem test_paveb_halfUp :
    mmAfter (.paveb 0 (.reg 1)) 0
      { mms 0x00FF01FE80037F10 0x00FF02FF80047F20 0 with cfg := { lab32.cfg with pavebRound := .halfUp } } =
      some 0x00FF02FF80047F18 := by decide

theorem test_pdistib :
    mmAfter (.pdistib 0 m2000) 1 (cyrixMem 0x00FF80F001020304 0x10FF00800A050001 0x0F00FF0005050100) =
      some 0x01FFFFFF06020405 := by decide

theorem test_pmachriw :
    mmAfter (.pmachriw 0 m2000) 1 (cyrixMem 0x7FFFFFFF00010000 0x80007FFFFFFF4000 0x80007FFF00024000) =
      some 0xFFFF7FFD00012000 := by decide

theorem test_pmagw : two .pmagw 0x0005FFFB80007FFF 0xFFFA00057FFF8001 = some 0xFFFAFFFB80007FFF := by decide

theorem test_pmagw_takeSrc :
    mmAfter (.pmagw 0 (.reg 1)) 0
      { mms 0x0005FFFB80007FFF 0xFFFA00057FFF8001 0 with cfg := { lab32.cfg with pmagwTie := .takeSrc } } =
      some 0xFFFA000580008001 := by decide

theorem test_pmulhrw :
    two .pmulhrw 0x80007FFFFFFF4000 0x80007FFF00024000 = some 0x80007FFE00002000 ∧
    two .pmulhrw 0x0001000100017FFF 0x4000C000BFFF7FFF = some 0x00010000FFFF7FFE := by decide

/-- The case C4 of 90_conflicts.md. -/
theorem test_pmulhrw_conflict : two .pmulhrw 0x8000800000000000 0x80007FFF00000000 = some 0x8000800100000000 := by decide

theorem test_pmulhriw :
    mmAfter (.pmulhriw 3 (.reg 1)) 2 ((mms 0 0x80007FFF00024000 0).setMm 3 0x80007FFFFFFF4000) =
      some 0x80007FFE00002000 := by decide

theorem test_pmvzb :
    mmAfter (.pmvzb 0 m2000) 0 (cyrixMem 0x0001807F00FF0080 0x1111111111111111 0x2222222222222222) =
      some 0x2211111122112211 := by decide

theorem test_pmvnzb :
    mmAfter (.pmvnzb 0 m2000) 0 (cyrixMem 0x0001807F00FF0080 0x1111111111111111 0x2222222222222222) =
      some 0x1122222211221122 := by decide

theorem test_pmvlzb :
    mmAfter (.pmvlzb 0 m2000) 0 (cyrixMem 0x0001807F00FF0080 0x1111111111111111 0x2222222222222222) =
      some 0x1111221111221122 := by decide

theorem test_pmvgezb :
    mmAfter (.pmvgezb 0 m2000) 0 (cyrixMem 0x0001807F00FF0080 0x1111111111111111 0x2222222222222222) =
      some 0x2222112222112211 := by decide

/-! ## The tag word and absent features (R27, R119) -/

theorem test_tagWord :
    (nextOf (exec (.paddb 0 (.reg 1)) lab32)).map (·.ftw) = some 0x0000 ∧
    (nextOf (exec (.paddb 0 (.reg 1)) { lab32 with cfg := { lab32.cfg with mmxSetsFtw := false } })).map (·.ftw) =
      some 0x5555 := by decide

theorem test_absentFeatures :
    faultOf (exec (.paddb 0 (.reg 1)) { lab32 with cfg := { lab32.cfg with hasMmx := false } }) = some .invalidOpcode ∧
    faultOf (exec (.paddsiw 0 (.reg 2)) { lab32 with cfg := { lab32.cfg with hasCyrix := false } }) =
      some .invalidOpcode := by decide

/-! ## Pushes (V9) -/

/-- General registers as in the PUSHAW row, with SP 0100h. -/
def regs16 : State :=
  { lab16 with r32 := #v[0xAAAA1111, 0xBBBB2222, 0xCCCC3333, 0xDDDD4444, 0x99990100, 0xEEEE5555, 0x12346666, 0x56787777]
               flags := 0x246 }

/-- General registers as in the PUSHAD row, with ESP 1000h. -/
def regs32 : State :=
  { lab32 with r32 := #v[0x11111111, 0x22222222, 0x33333333, 0x44444444, 0x1000, 0x55555555, 0x66666666, 0x77777777]
               flags := 0x246 }

theorem test_pushReg16 :
    pushed (.pushReg16 .s16 3) regs16 0xFE 2 = some (0x999900FE, [0x44, 0x44]) ∧
    pushed (.pushReg16 .s16 4) regs16 0xFE 2 = some (0x999900FE, [0x00, 0x01]) := by decide

theorem test_pushReg16_wrap :
    pushed (.pushReg16 .s16 3) (regs16.setR32 4 0x99990000) 0xFFFE 2 = some (0x9999FFFE, [0x44, 0x44]) ∧
    faultOf (exec (.pushReg16 .s16 3) (regs16.setR32 4 0x99990001)) = some (.offsetWrap .ss 0xFFFF 2) := by decide

theorem test_pushReg32 :
    pushed (.pushReg32 .s32 0) regs32 0xFFC 4 = some (0xFFC, [0x11, 0x11, 0x11, 0x11]) ∧
    pushed (.pushReg32 .s32 4) regs32 0xFFC 4 = some (0xFFC, [0x00, 0x10, 0x00, 0x00]) := by decide

/-- R290: `67 53` in 16-bit mode, with each source of the stack address size. -/
theorem test_stackAddressSize :
    pushed (.pushReg16 .s32 3) (regs16.setR32 4 0x00010100) 0x100FE 2 = some (0x000100FE, [0x44, 0x44]) ∧
    pushed (.pushReg16 .s32 3)
      { regs16.setR32 4 0x00010100 with cfg := { lab16.cfg with stackAddrSizeFrom := .stackSegment } } 0xFE 2 =
      some (0x000100FE, [0x44, 0x44]) := by decide

theorem test_pushRm16 :
    pushed (.pushRm16 .s16 (.mem (.addr16 .ds .bx 0))) (withBytes (regs16.setR32 3 0x200) 0x200 [0xCD, 0xAB]) 0xFE 2 =
      some (0x999900FE, [0xCD, 0xAB]) := by decide

theorem test_pushRm32 :
    pushed (.pushRm32 .s32 (.mem (.addr32 .ss (some 4) none 0))) (withBytes regs32 0x1000 [0xEF, 0xBE, 0xAD, 0xDE])
      0xFFC 4 = some (0xFFC, [0xEF, 0xBE, 0xAD, 0xDE]) := by decide

/-- Segment registers with the values of V9. -/
def segs (s : State) : State :=
  { s with sreg := { es := 0xB800, cs := 0xF000, ss := 0x002B, ds := 0x0023, fs := 0x1234, gs := 0x4321 } }

theorem test_pushEs : pushed (.pushEs .s16 .s16) (segs regs16) 0xFE 2 = some (0x999900FE, [0x00, 0xB8]) := by decide

theorem test_pushCs : pushed (.pushCs .s16 .s16) (segs regs16) 0xFE 2 = some (0x999900FE, [0x00, 0xF0]) := by decide

theorem test_pushSs : pushed (.pushSs .s16 .s32) (segs regs32) 0xFFE 2 = some (0xFFE, [0x2B, 0x00]) := by decide

theorem test_pushDs : pushed (.pushDs .s16 .s16) (segs regs16) 0xFE 2 = some (0x999900FE, [0x23, 0x00]) := by decide

/-- V9: with operand size 32 the stack pointer moves by 4 and one free value is drawn. -/
theorem test_pushDs_fourBytes :
    (nextOf (exec (.pushDs .s32 .s32) (segs regs32))).map (fun t => (t.getR32 4, t.draws)) = some (0xFFC, 1) := by decide

theorem test_pushFs : pushed (.pushFs .s16 .s16) (segs regs16) 0xFE 2 = some (0x999900FE, [0x34, 0x12]) := by decide

theorem test_pushGs : pushed (.pushGs .s16 .s16) (segs regs16) 0xFE 2 = some (0x999900FE, [0x21, 0x43]) := by decide

theorem test_pushImm8 :
    pushed (.pushImm8 .s32 .s32 0xFF) regs32 0xFFC 4 = some (0xFFC, [0xFF, 0xFF, 0xFF, 0xFF]) ∧
    pushed (.pushImm8 .s16 .s16 0x7F) regs16 0xFE 2 = some (0x999900FE, [0x7F, 0x00]) := by decide

/-- V9: `66 6A 80` in 16-bit mode, a 4-byte push through SP. -/
theorem test_pushImm8_operandSize :
    pushed (.pushImm8 .s32 .s16 0x80) (regs16.setR32 4 0x999901E4) 0x1E0 4 =
      some (0x999901E0, [0x80, 0xFF, 0xFF, 0xFF]) := by decide

theorem test_pushImm16 : pushed (.pushImm16 .s16 0x1234) regs16 0xFE 2 = some (0x999900FE, [0x34, 0x12]) := by decide

theorem test_pushImm32 :
    pushed (.pushImm32 .s32 0x12345678) regs32 0xFFC 4 = some (0xFFC, [0x78, 0x56, 0x34, 0x12]) := by decide

theorem test_pushaw :
    pushed (.pushaw .s16) regs16 0xF0 16 = some (0x999900F0,
      [0x77, 0x77, 0x66, 0x66, 0x55, 0x55, 0x00, 0x01, 0x44, 0x44, 0x33, 0x33, 0x22, 0x22, 0x11, 0x11]) := by decide

/-- P6 (c): SP wraps between two of the eight writes, or one write crosses the end. -/
theorem test_pushaw_wrap :
    (nextOf (exec (.pushaw .s16) (regs16.setR32 4 0x99990006))).map (·.getR32 4) = some 0x9999FFF6 ∧
    faultOf (exec (.pushaw .s16) (regs16.setR32 4 0x99990005)) = some (.offsetWrap .ss 0xFFFF 2) := by decide

theorem test_pushad :
    pushed (.pushad .s32) regs32 0xFE0 32 = some (0xFE0,
      [0x77, 0x77, 0x77, 0x77, 0x66, 0x66, 0x66, 0x66, 0x55, 0x55, 0x55, 0x55, 0x00, 0x10, 0x00, 0x00,
       0x44, 0x44, 0x44, 0x44, 0x33, 0x33, 0x33, 0x33, 0x22, 0x22, 0x22, 0x22, 0x11, 0x11, 0x11, 0x11]) := by decide

/-- V10: the fifth write of PUSHAD refused by the platform. -/
theorem test_pushad_fault :
    faultOf (exec (.pushad .s32) { regs32 with cfg := { lab32.cfg with denied := [.exact .write 0xFEC 4] } }) =
      some (.memoryFault 0xFEC 4 .write) := by decide

theorem test_pusha :
    (nextOf (exec (.pusha .s16) regs16)).map (·.getR32 4) = some 0x999900F0 ∧
    (nextOf (exec (.pusha .s32) regs32)).map (·.getR32 4) = some 0xFE0 := by decide

theorem test_pushfw : pushed (.pushfw .s16) regs16 0xFE 2 = some (0x999900FE, [0x46, 0x02]) := by decide

theorem test_pushfd : pushed (.pushfd .s32) regs32 0xFFC 4 = some (0xFFC, [0x46, 0x02, 0x00, 0x00]) := by decide

theorem test_pushf :
    pushed (.pushf .s16) regs16 0xFE 2 = some (0x999900FE, [0x46, 0x02]) ∧
    pushed (.pushf .s32) regs32 0xFFC 4 = some (0xFFC, [0x46, 0x02, 0x00, 0x00]) := by decide

/-! ## Steps (V10, P6) -/

/-- 16-bit mode with `pc` FFFEh. -/
def top16 (bs : List Byte) : State := withCode { lab16 with pc := 0xFFFE } bs

/-- An instruction that ends exactly at the top: only `pc` wraps. -/
theorem test_step_endsAtTop :
    (nextOf (step (top16 [0x0F, 0x77]))).map (fun t => (t.pc, t.ftw)) = some (0x0000, 0xFFFF) := by decide

theorem test_step_fetchWrap : faultOf (step (top16 [0x0F, 0xFC])) = some .fetchWrap := by decide

/-- The platform does not let the byte at 1002h (or 1003h) be fetched. -/
def noFetch (a : Nat) (bs : List Byte) : State :=
  withCode { lab32 with cfg := { lab32.cfg with denied := [.region .fetch a 1] } } bs

theorem test_step_fetchFault :
    faultOf (step (noFetch 0x1002 [0x0F, 0xFC])) = some (.memoryFault 0x1002 1 .fetch) := by decide

/-- The cause is decided by the ModRM byte, the immediate is never fetched. -/
theorem test_step_groupBeforeImmediate :
    faultOf (step (noFetch 0x1003 [0x0F, 0x71, 0x10])) = some .invalidOpcode := by decide

theorem test_step_storeFault :
    faultOf (step (withCode
      { lab32.setR32 3 0x3000 with cfg := { lab32.cfg with denied := [.region .write 0x3007 1] } } [0x0F, 0x7F, 0x03])) =
      some (.memoryFault 0x3000 8 .write) := by decide

theorem test_step_codeWrite :
    faultOf (step (withCode
      { lab32.setR32 3 0xFFA with cfg := { lab32.cfg with program := some { first := 0x1000, endPc := 0x1003 } } }
      [0x0F, 0x7F, 0x03])) = some (.codeWrite 0x1000) := by decide

/-- P6 (a): one completed step, then a refusal. -/
theorem test_step_notInScope :
    (nextOf (step (withCode lab32 [0x0F, 0xFC, 0xC1, 0xEB, 0xFB]))).map (·.pc) = some 0x1003 ∧
    refusalOf (step { withCode lab32 [0x0F, 0xFC, 0xC1, 0xEB, 0xFB] with pc := 0x1003 }) = some .notInScope := by decide

theorem test_step_prefixNotInScope :
    refusalOf (step (withCode lab32 [0xF3, 0x0F, 0x6F, 0xC1])) = some .prefixNotInScope := by decide

/-- Seventeen operand-size prefixes. -/
def prefixes17 : List Byte := List.replicate 17 0x66

/-- The scan reads every prefix and then needs one more byte (R103, R336): its fetch fault comes before the refusal,
whether the platform refuses it or it lies past the top of the offset space. -/
theorem test_step_longPrefixRun_fetchFault :
    faultOf (step (noFetch 0x1011 prefixes17)) = some (.memoryFault 0x1011 1 .fetch) ∧
    faultOf (step (withCode { lab16 with pc := 0xFFEF } prefixes17)) = some .fetchWrap := by decide

/-- Once that byte is no prefix the refusal is decided, and no further byte is fetched. -/
theorem test_step_longPrefixRun_refused :
    refusalOf (step (noFetch 0x1012 (prefixes17 ++ [0xFF]))) = some .prefixNotInScope := by decide

/-- A run that has reached `END_PC` stays (R372, log entry 6). -/
theorem test_step_atEnd :
    let s := { withCode lab32 [0x0F, 0x77] with cfg := { lab32.cfg with program := some { first := 0xFFE, endPc := 0x1000 } } }
    nextOf (step s) = some s := by decide

/-- The first step after reset runs the instruction placed at F000:FFF0. -/
theorem test_withFetchWord :
    (nextOf (step (State.reset.withFetchWord 16 0x770F))).map (fun t => (t.ftw, t.pc)) = some (0xFFFF, 0xFFF2) := by decide

theorem test_reset :
    State.reset.pc = 0xFFF0 ∧ State.reset.cfg.segBase.cs = 0xFFFF0000 ∧ State.reset.sreg.cs = 0xF000 ∧
    State.reset.flags = 2 ∧ State.reset.ftw = 0x5555 := by decide

/-! ## Witnesses: states and operands that meet the hypotheses of the statements -/

theorem exists_next {o : Host.Outcome State Fault Refusal} (h : (nextOf o).isSome = true) : ∃ t, o = .next t := by
  cases o with
  | next t => exact ⟨t, rfl⟩
  | fault e => cases h
  | refused r => cases h

theorem exists_fault {o : Host.Outcome State Fault Refusal} {e : Fault} (h : faultOf o = some e) : o = .fault e := by
  cases o with
  | next t => cases h
  | fault e' => cases h; rfl
  | refused r => cases h

/-- The bytes at `pc`, from a run of the fetch. -/
theorem codeIs_of_fetchFrom {s : State} {bs : List Byte} (h : s.fetchFrom 0 bs.length = bs) : s.codeIs bs :=
  fun k b hk => by simpa using State.fetchByte_of_fetchFrom (s := s) (k := 0) (n := bs.length) (by rw [h]; exact hk)

/-! ### Encoding -/

theorem witness_DecodeOfEncode :
    (Instr.paddb 7 (.mem (.addr16 .gs .abs 0xFFFF))).wellFormed = true ∧ (Instr.pusha .s16).wellFormed = true ∧
    (Instr.pushRm32 .s32 (.mem (.addr32 .ss (some 4) (some { reg := 5, scale := 3 }) 0))).wellFormed = true := by decide

theorem witness_DecodedInstructionsAreShortAndWellFormed :
    decode .s32 [0x53] = .instr (.pushReg32 .s32 3) 1 ∧
    decode .s16 [0x67, 0x66, 0x64, 0xFF, 0xB4, 0x88, 0x78, 0x56, 0x34, 0x12] =
      .instr (.pushRm32 .s32 (.mem (.addr32 .fs (some 0) (some { reg := 1, scale := 2 }) 0x12345678))) 10 := by decide

theorem witness_DecodeReadsNothingBeyondTheInstruction :
    decode .s32 [0x0F, 0x77, 0x90] = .instr .emms 2 := by decide

theorem witness_AcceptedPrefixesSelectSizesAndSegment :
    (∀ b ∈ ([0x67, 0x2E, 0x66] : List Byte), b = 0x66 ∨ b = 0x67 ∨ ∃ x, b = segByte x) ∧
    ([0x67, 0x2E, 0x66] : List Byte).Nodup ∧
    (∀ x y, segByte x ∈ ([0x67, 0x2E, 0x66] : List Byte) → segByte y ∈ ([0x67, 0x2E, 0x66] : List Byte) → x = y) ∧
    prefixKind 0x0F = none := by
  refine ⟨fun b hb => ?_, by decide, fun x y => by cases x <;> cases y <;> decide, by decide⟩
  simp only [List.mem_cons, List.not_mem_nil, or_false] at hb
  rcases hb with rfl | rfl | rfl
  · exact .inr (.inl rfl)
  · exact .inr (.inr ⟨.cs, rfl⟩)
  · exact .inl rfl

/-- One witness for each of the three reasons to refuse. -/
theorem witness_RefusedPrefixes :
    prefixKind 0x0F = none ∧ (∀ b ∈ ([0xF0] : List Byte), prefixKind b ≠ none) ∧
    (∃ b ∈ ([0xF0] : List Byte), b = 0xF0 ∨ b = 0xF2 ∨ b = 0xF3) ∧
    (∀ b ∈ ([0x66, 0x66] : List Byte), prefixKind b ≠ none) ∧ ¬ ([0x66, 0x66] : List Byte).Nodup ∧
    (∀ b ∈ ([0x26, 0x65] : List Byte), prefixKind b ≠ none) ∧
    (∃ x y, x ≠ y ∧ segByte x ∈ ([0x26, 0x65] : List Byte) ∧ segByte y ∈ ([0x26, 0x65] : List Byte)) :=
  ⟨by decide, by decide, by decide, by decide, by decide, by decide, .es, .gs, by decide⟩

theorem mmxRow_ne_none {op : Byte} (h : (mmxRow op).isSome = true) : mmxRow op ≠ none := by
  intro e; rw [e] at h; cases h

theorem witness_OperandSizePrefixRefusedOnMmx : mmxRow 0x50 ≠ none ∧ mmxRow 0x77 ≠ none ∧ mmxRow 0xFE ≠ none :=
  ⟨mmxRow_ne_none (by decide), mmxRow_ne_none (by decide), mmxRow_ne_none (by decide)⟩

theorem witness_MemoryOnlyRowsRefuseRegisters : modField 0xC0 = 3 ∧ modField 0xFF = 3 := by decide

/-- A memory form, and unlisted digits at the edges of the listed ones, in each group. -/
theorem witness_ShiftGroupsHaveNoOtherForms :
    modField 0xBF ≠ 3 ∧
    (∀ b ∈ ([0xC8, 0xD8, 0xE8, 0xF8] : List Byte), regField b ≠ 2 ∧ regField b ≠ 4 ∧ regField b ≠ 6) ∧
    regField 0xE0 ≠ 2 ∧ regField 0xE0 ≠ 6 := by decide

theorem witness_UnlistedOpcodesAreNotInScope :
    prefixKind 0x58 = none ∧
    (0x58 : Byte) ∉ ([0x06, 0x0E, 0x0F, 0x16, 0x1E, 0x50, 0x51, 0x52, 0x53, 0x54, 0x55, 0x56, 0x57, 0x60, 0x68, 0x6A,
      0x9C, 0xFF] : List Byte) ∧
    (0x53 : Byte) ≠ 0xA0 ∧ (0x53 : Byte) ≠ 0xA8 ∧ (0x53 : Byte) ∉ mmxTable.map Prod.fst ∧
    regField 0x28 ≠ 6 ∧ regField 0x38 ≠ 6 := by decide

theorem witness_NoArithmeticQuadwordShift : regField 0xE0 = 4 ∧ regField 0x27 = 4 := by decide

theorem witness_SecondNamesFollowTheMode : State.reset.cfg.mode = .s16 ∧ lab32.cfg.mode = .s32 := by decide

/-- An overridden operand, and one of each default segment, in both address sizes. -/
theorem witness_SegmentOfDecodedOperand :
    (∃ m r, decodeMem .s32 (some .gs) 0 5 [0, 0, 0, 0] = .ok (m, r)) ∧
    (∃ m r, decodeMem .s32 none 0 4 [0x24] = .ok (m, r)) ∧ (∃ m r, decodeMem .s32 none 0 0 [] = .ok (m, r)) ∧
    (∃ m r, decodeMem .s16 none 1 6 [0x80] = .ok (m, r)) ∧ (∃ m r, decodeMem .s16 none 0 6 [0, 0] = .ok (m, r)) :=
  ⟨⟨_, _, rfl⟩, ⟨_, _, rfl⟩, ⟨_, _, rfl⟩, ⟨_, _, rfl⟩, ⟨_, _, rfl⟩⟩

theorem witness_DisplacementForms :
    (5 : BitVec 3) ≠ 6 ∧ (7 : BitVec 3) ≠ 6 ∧ (3 : BitVec 3) ≠ 4 ∧ (6 : BitVec 3) ≠ 5 ∧ rmField 0x24 ≠ 5 := by decide

/-! ### Steps and runs -/

/-- EMMS at `pc`. -/
def emmsAt : State := withCode lab32 [0x0F, 0x77]

theorem witness_StepRunsDecodedInstruction :
    emmsAt.atEnd = false ∧ emmsAt.codeIs [0x0F, 0x77] ∧ decode emmsAt.cfg.mode [0x0F, 0x77] = .instr .emms 2 :=
  ⟨by decide, codeIs_of_fetchFrom (by decide), by decide⟩

theorem witness_StepRunsEncodedInstruction :
    emmsAt.atEnd = false ∧ Instr.emms.wellFormed = true ∧ emmsAt.codeIs (encode emmsAt.cfg.mode .emms) :=
  ⟨by decide, by decide, codeIs_of_fetchFrom (by decide)⟩

/-- One witness for each rejection, one of them a run of prefixes longer than any instruction. -/
theorem witness_StepStopsOnRejectedBytes :
    ((withCode lab32 [0x0F, 0x54, 0xC1]).codeIs [0x0F, 0x54, 0xC1] ∧
      decode .s32 [0x0F, 0x54, 0xC1] = .rejected .invalidOpcode) ∧
    ((withCode lab32 [0xEB]).codeIs [0xEB] ∧ decode .s32 [0xEB] = .rejected .notInScope) ∧
    ((withCode lab32 (prefixes17 ++ [0x50])).codeIs (prefixes17 ++ [0x50]) ∧
      decode .s32 (prefixes17 ++ [0x50]) = .rejected .prefixNotInScope) ∧
    (withCode lab32 [0xEB]).atEnd = false :=
  ⟨⟨codeIs_of_fetchFrom (by decide), by decide⟩, ⟨codeIs_of_fetchFrom (by decide), by decide⟩,
    ⟨codeIs_of_fetchFrom (by decide), by decide⟩, by decide⟩

/-- The missing byte lies past the top of the offset space, or the platform refuses it; with no byte, with two, and with
seventeen prefixes. -/
theorem witness_StepFaultsOnUnfetchableByte :
    ((top16 [0x0F, 0xFC]).codeIs [0x0F, 0xFC] ∧ decode .s16 [0x0F, 0xFC] = .rejected .truncated ∧
      2 ^ Size.s16.bits ≤ (top16 [0x0F, 0xFC]).pc.toNat + 2) ∧
    ((noFetch 0x1002 [0x0F, 0xFC]).codeIs [0x0F, 0xFC] ∧ decode .s32 [0x0F, 0xFC] = .rejected .truncated ∧
      accessible (noFetch 0x1002 [0x0F, 0xFC]).cfg (lin (noFetch 0x1002 []).cfg .cs 0x1002) 1 .fetch = false) ∧
    ((noFetch 0x1011 prefixes17).codeIs prefixes17 ∧ decode .s32 prefixes17 = .rejected .truncated ∧
      accessible (noFetch 0x1011 prefixes17).cfg (lin (noFetch 0x1011 prefixes17).cfg .cs 0x1011) 1 .fetch = false) ∧
    ((noFetch 0x1000 []).codeIs [] ∧ decode .s32 [] = .rejected .truncated ∧ (noFetch 0x1000 []).atEnd = false) :=
  ⟨⟨codeIs_of_fetchFrom (by decide), by decide, by decide⟩, ⟨codeIs_of_fetchFrom (by decide), by decide, by decide⟩,
    ⟨codeIs_of_fetchFrom (by decide), by decide, by decide⟩, codeIs_of_fetchFrom (by decide), by decide, by decide⟩

/-- EMMS, with `END_PC` right after it. -/
def shortRun : State :=
  { emmsAt with cfg := { lab32.cfg with program := some { first := 0x1000, endPc := 0x1002 } } }

theorem witness_EndedRunsStay : ∃ t, ReachesEnd shortRun 1 t :=
  ⟨{ shortRun with ftw := 0xFFFF, pc := 0x1002 }, by unfold ReachesEnd; exact ⟨rfl, by decide⟩⟩

theorem inv_emmsAt : emmsAt.Inv := ⟨by decide, by decide⟩

theorem witness_StepKeepsInvariant : emmsAt.Inv ∧ ∃ t, step emmsAt = .next t :=
  ⟨inv_emmsAt, exists_next (by decide)⟩

theorem witness_StepKeepsSegmentsFlagsParameters : ∃ t, step emmsAt = .next t := exists_next (by decide)

/-- The first and the last byte of the program. -/
theorem witness_RunsKeepProgramBytes :
    (∃ t, run 1 shortRun = .next t) ∧ isProgramByte shortRun.cfg 0x1000 = true ∧
    isProgramByte shortRun.cfg 0x1001 = true ∧ isProgramByte shortRun.cfg 0x1002 = false :=
  ⟨exists_next (by decide), by decide, by decide, by decide⟩

/-- EMMS, with writes refused from 3000h to 3FFFh. -/
def protectedRun : State :=
  { emmsAt with cfg := { lab32.cfg with denied := [.region .write 0x3000 0x1000] } }

theorem witness_RunsKeepWriteProtectedRegions :
    (∃ t, run 1 protectedRun = .next t) ∧ Denial.region .write 0x3000 0x1000 ∈ protectedRun.cfg.denied ∧
    0x3000 ≤ 0x3000 ∧ 0x3FFF < 0x3000 + 0x1000 :=
  ⟨exists_next (by decide), by decide, by decide, by decide⟩

/-- Instructions of one and of ten bytes, and one after which `pc` wraps. -/
theorem witness_StepMovesPcForward :
    (withCode lab32 [0x53]).atEnd = false ∧ (∃ t, step (withCode lab32 [0x53]) = .next t) ∧
    (∃ t, step (withCode lab16 [0x67, 0x66, 0x64, 0xFF, 0xB4, 0x88, 0x78, 0x56, 0x34, 0x12]) = .next t) ∧
    (∃ t, step (top16 [0x0F, 0x77]) = .next t) :=
  ⟨by decide, exists_next (by decide), exists_next (by decide), exists_next (by decide)⟩

/-- Two states that differ in their MMX registers, memory, flags and tag word. -/
theorem witness_FaultsDoNotDependOnData :
    lab32.r32 = (withBytes { mms 1 2 3 with flags := 0, ftw := 0 } 0 [7]).r32 ∧
    lab32.cfg = (withBytes { mms 1 2 3 with flags := 0, ftw := 0 } 0 [7]).cfg ∧
    exec (.movqLoad 0 (.mem (.addr32 .ds none none 0xFFFFFFFC))) lab32 = .fault (.offsetWrap .ds 0xFFFFFFFC 8) :=
  ⟨by decide, by decide, exists_fault (by decide)⟩

/-- Instructions that change an MMX register, ESP, the destination of MOVD, and memory. -/
theorem witness_RegistersWrittenOnlyAsListed :
    (∃ t, exec (.paddb 0 (.reg 1)) (mms 1 1 0) = .next t ∧ t.getMm 0 ≠ (mms 1 1 0).getMm 0) ∧
    (∃ t, exec (.pushReg32 .s32 0) regs32 = .next t ∧ t.getR32 4 ≠ regs32.getR32 4) ∧
    (∃ t, exec (.movdStore (.reg 3) 0) (mms 5 0 0) = .next t ∧ t.getR32 3 ≠ (mms 5 0 0).getR32 3) ∧
    (∃ t, exec (.movqStore (.mem m2000) 0) (mms 5 0 0) = .next t ∧ t.mem.read 0x2000 ≠ (mms 5 0 0).mem.read 0x2000) :=
  ⟨⟨_, rfl, by decide⟩, ⟨_, rfl, by decide⟩, ⟨_, rfl, by decide⟩, ⟨_, rfl, by decide⟩⟩

theorem witness_TagWordRule :
    (∃ t, exec .emms lab32 = .next t) ∧ (∃ t, exec (.paddb 0 (.reg 1)) lab32 = .next t) ∧ Instr.set (.paddb 0 (.reg 1)) ≠ .base ∧
    (∃ t, exec (.pushReg32 .s32 0) lab32 = .next t) ∧ Instr.set (.pushReg32 .s32 0) = .base :=
  ⟨exists_next (by decide), exists_next (by decide), by decide, exists_next (by decide), by decide⟩

/-! ### Operations -/

/-- The last bytes of an offset space and the first access past it; a refused access; reads and writes; a write whose
second byte is the first of the program, and one right below the program. -/
theorem witness_AdmissionOrder :
    (2 ^ Size.s16.bits < (0xFFFF : BitVec 32).toNat + 2 ∧ (0xFFFE : BitVec 32).toNat + 2 ≤ 2 ^ Size.s16.bits) ∧
    (2 ^ Size.s32.bits < (0xFFFFFFF9 : BitVec 32).toNat + 8 ∧ (0xFFFFFFF8 : BitVec 32).toNat + 8 ≤ 2 ^ Size.s32.bits) ∧
    accessible protectedRun.cfg (lin protectedRun.cfg .ds 0x2FFF) 2 .write = false ∧
    accessible protectedRun.cfg (lin protectedRun.cfg .ds 0x2FFE) 2 .write = true ∧
    accessible protectedRun.cfg (lin protectedRun.cfg .ds 0x3000) 2 .read = true ∧
    (isProgramByte shortRun.cfg (lin shortRun.cfg .ds 0xFFF + BitVec.ofNat 32 1) = true ∧
      ∀ i < 1, isProgramByte shortRun.cfg (lin shortRun.cfg .ds 0xFFF + BitVec.ofNat 32 i) = false) ∧
    (∀ j < 2, isProgramByte shortRun.cfg (lin shortRun.cfg .ds 0xFFE + BitVec.ofNat 32 j) = false) := by decide

theorem witness_ProgramBytes :
    lab32.cfg.program = none ∧ shortRun.cfg.program = some { first := 0x1000, endPc := 0x1002 } ∧
    (0x1000 : BitVec 32).toNat ≤ (0x1002 : BitVec 32).toNat ∧ (0x1002 : BitVec 32).toNat < 2 ^ shortRun.cfg.mode.bits ∧
    (0xFFFF : BitVec 32).toNat < 2 ^ Size.s16.bits := by decide

/-- The bytes right below and right above the eight. -/
theorem witness_StoreThenLoad :
    (∀ k < 8, 0x1FFF ≠ ((0x2000 : BitVec 32) + BitVec.ofNat 32 k).toNat) ∧
    (∀ k < 8, 0x2008 ≠ ((0x2000 : BitVec 32) + BitVec.ofNat 32 k).toNat) := by decide

/-- For 8, 4 and 2 bytes: the last offset that is admitted and the first that is not. -/
theorem witness_SourceOperands :
    admission lab32.cfg .ds .s32 (lab32.effAddr (.addr32 .ds none none 0xFFFFFFF9)) 8 .read =
      some (.offsetWrap .ds 0xFFFFFFF9 8) ∧
    admission lab32.cfg .ds .s32 (lab32.effAddr (.addr32 .ds none none 0xFFFFFFF8)) 8 .read = none ∧
    admission lab32.cfg .ds .s32 (lab32.effAddr (.addr32 .ds none none 0xFFFFFFFD)) 4 .read =
      some (.offsetWrap .ds 0xFFFFFFFD 4) ∧
    admission lab32.cfg .ds .s32 (lab32.effAddr (.addr32 .ds none none 0xFFFFFFFC)) 4 .read = none ∧
    admission lab32.cfg .ds .s16 (lab32.effAddr (.addr16 .ds .abs 0xFFFF)) 2 .read = some (.offsetWrap .ds 0xFFFF 2) ∧
    admission lab32.cfg .ds .s16 (lab32.effAddr (.addr16 .ds .abs 0xFFFE)) 2 .read = none := by decide

/-- The two sources of the stack address size, and both sizes. -/
theorem witness_StackSlot :
    32 ≤ 32 ∧ lab32.cfg.stackAddrSizeFrom = .addressSizeAttribute ∧
    ({ lab32.cfg with stackAddrSizeFrom := .stackSegment } : Config).stackAddrSizeFrom = .stackSegment ∧
    stackSize lab32.cfg .s16 = .s16 ∧ stackSize lab32.cfg .s32 = .s32 := by decide

/-! ### The MMX and Cyrix families -/

/-- Without MMX. -/
def noMmx : State := { lab32 with cfg := { lab32.cfg with hasMmx := false } }

/-- Without the Cyrix extensions. -/
def noCyrix : State := { lab32 with cfg := { lab32.cfg with hasCyrix := false } }

/-- What meets the hypotheses of an `MmxRule`: MMX absent; a source whose read faults; sources that can be read, a
register and the last quadword of the offset space. -/
def MmxRuleCases : Prop :=
  noMmx.cfg.hasMmx = false ∧ lab32.cfg.hasMmx = true ∧
  lab32.src64 (.mem (.addr32 .ds none none 0xFFFFFFF9)) = .error (.offsetWrap .ds 0xFFFFFFF9 8) ∧
  (∃ v, lab32.src64 (.mem (.addr32 .ds none none 0xFFFFFFF8)) = .ok v) ∧
  (mms 0 0x100000000 0).src64 (.reg 1) = .ok 0x100000000

theorem mmxRuleCases : MmxRuleCases := ⟨by decide, by decide, rfl, ⟨_, rfl⟩, rfl⟩

theorem witness_EmmsRule : noMmx.cfg.hasMmx = false ∧ lab32.cfg.hasMmx = true := by decide

theorem witness_MovLoadRules :
    MmxRuleCases ∧ lab32.src32 (.mem (.addr32 .ds none none 0xFFFFFFFD)) = .error (.offsetWrap .ds 0xFFFFFFFD 4) ∧
    (∃ v, lab32.src32 (.mem (.addr32 .ds none none 0xFFFFFFFC)) = .ok v) :=
  ⟨mmxRuleCases, rfl, _, rfl⟩

theorem witness_MovStoreRules :
    noMmx.cfg.hasMmx = false ∧ lab32.cfg.hasMmx = true ∧
    admission lab32.cfg .ds .s32 (lab32.effAddr (.addr32 .ds none none 0xFFFFFFFD)) 4 .write =
      some (.offsetWrap .ds 0xFFFFFFFD 4) ∧
    admission lab32.cfg .ds .s32 (lab32.effAddr (.addr32 .ds none none 0xFFFFFFFC)) 4 .write = none ∧
    admission lab32.cfg .ds .s32 (lab32.effAddr (.addr32 .ds none none 0xFFFFFFF9)) 8 .write =
      some (.offsetWrap .ds 0xFFFFFFF9 8) ∧
    admission lab32.cfg .ds .s32 (lab32.effAddr (.addr32 .ds none none 0xFFFFFFF8)) 8 .write = none := by decide

theorem witness_PackRules :
    MmxRuleCases ∧ lab32.cfg.packuswbInput = .unsigned ∧
    ({ lab32.cfg with packuswbInput := .signed } : Config).packuswbInput = .signed :=
  ⟨mmxRuleCases, rfl, rfl⟩

theorem witness_UnpackRules : MmxRuleCases := mmxRuleCases

theorem witness_WrappingAdditionRules : MmxRuleCases := mmxRuleCases

theorem witness_SaturatingAdditionRules : MmxRuleCases := mmxRuleCases

theorem witness_WrappingSubtractionRules : MmxRuleCases := mmxRuleCases

theorem witness_SaturatingSubtractionRules : MmxRuleCases := mmxRuleCases

theorem witness_LogicalRules : MmxRuleCases := mmxRuleCases

theorem witness_ComparisonRules : MmxRuleCases := mmxRuleCases

theorem witness_MultiplicationRules : MmxRuleCases := mmxRuleCases

theorem witness_ShiftByOperandRules : MmxRuleCases := mmxRuleCases

theorem witness_ShiftByImmediateRules : noMmx.cfg.hasMmx = false ∧ lab32.cfg.hasMmx = true := by decide

/-- What meets the hypotheses of a `CyrixRule`, for both kinds of second operand. -/
def CyrixRuleCases : Prop :=
  ¬ Config.cyrixOn noMmx.cfg ∧ ¬ Config.cyrixOn noCyrix.cfg ∧ Config.cyrixOn lab32.cfg ∧
  lab32.src64 (.mem (.addr32 .ds none none 0xFFFFFFF9)) = .error (.offsetWrap .ds 0xFFFFFFF9 8) ∧
  (∃ v, lab32.src64 (.reg 7) = .ok v) ∧
  lab32.mem64 (.addr32 .ds none none 0xFFFFFFF9) = .error (.offsetWrap .ds 0xFFFFFFF9 8) ∧
  (∃ v, lab32.mem64 (.addr32 .ds none none 0xFFFFFFF8) = .ok v)

theorem cyrixRuleCases : CyrixRuleCases :=
  ⟨fun h => absurd h.1 (by decide), fun h => absurd h.2 (by decide), ⟨rfl, rfl⟩, rfl, ⟨_, rfl⟩, rfl, _, rfl⟩

/-- With each rounding and each tie, and words of smaller, larger and equal magnitude. -/
theorem witness_CyrixFirstOperandRules :
    CyrixRuleCases ∧ lab32.cfg.pavebRound = .floor ∧
    ({ lab32.cfg with pavebRound := .halfUp } : Config).pavebRound = .halfUp ∧ lab32.cfg.pmagwTie = .keepDest ∧
    ({ lab32.cfg with pmagwTie := .takeSrc } : Config).pmagwTie = .takeSrc ∧
    (0x8000 : BitVec 16).toInt.natAbs > (0x7FFF : BitVec 16).toInt.natAbs ∧
    (0x8001 : BitVec 16).toInt.natAbs = (0x7FFF : BitVec 16).toInt.natAbs :=
  ⟨cyrixRuleCases, rfl, rfl, rfl, rfl, by decide, by decide⟩

theorem witness_CyrixImpliedRegisterRules : CyrixRuleCases := cyrixRuleCases

theorem witness_CyrixAccumulationRules : CyrixRuleCases := cyrixRuleCases

theorem witness_CyrixConditionalMoveRules : CyrixRuleCases := cyrixRuleCases

/-! ### The PUSH family -/

/-- Stack pointers at which pushes of 2 and 4 bytes just fit, wrap to the top, or cross the end. -/
theorem witness_PushRegisterRules :
    admission lab16.cfg .ss (stackSize lab16.cfg .s16) ((regs16.setR32 4 2).slot .s16 2) 2 .write = none ∧
    admission lab16.cfg .ss (stackSize lab16.cfg .s16) ((regs16.setR32 4 0).slot .s16 2) 2 .write = none ∧
    admission lab16.cfg .ss (stackSize lab16.cfg .s16) ((regs16.setR32 4 1).slot .s16 2) 2 .write =
      some (.offsetWrap .ss 0xFFFF 2) ∧
    admission lab32.cfg .ss (stackSize lab32.cfg .s32) ((regs32.setR32 4 4).slot .s32 4) 4 .write = none ∧
    admission lab32.cfg .ss (stackSize lab32.cfg .s32) ((regs32.setR32 4 3).slot .s32 4) 4 .write =
      some (.offsetWrap .ss 0xFFFFFFFF 4) := by decide

theorem witness_PushOperandRules :
    lab32.src16 (.mem (.addr16 .ds .abs 0xFFFF)) = .error (.offsetWrap .ds 0xFFFF 2) ∧
    (∃ v, lab32.src16 (.mem (.addr16 .ds .abs 0xFFFE)) = .ok v) ∧
    lab32.src32 (.mem (.addr32 .ds none none 0xFFFFFFFD)) = .error (.offsetWrap .ds 0xFFFFFFFD 4) ∧
    (∃ v, lab32.src32 (.mem (.addr32 .ds none none 0xFFFFFFFC)) = .ok v) ∧
    admission lab32.cfg .ss (stackSize lab32.cfg .s32) (regs32.slot .s32 4) 4 .write = none ∧
    admission lab32.cfg .ss (stackSize lab32.cfg .s32) ((regs32.setR32 4 3).slot .s32 4) 4 .write =
      some (.offsetWrap .ss 0xFFFFFFFF 4) :=
  ⟨rfl, ⟨_, rfl⟩, rfl, ⟨_, rfl⟩, by decide, by decide⟩

theorem witness_PushSegmentRules :
    admission lab32.cfg .ss (stackSize lab32.cfg .s32) (regs32.slot .s32 4) 4 .write = none ∧
    admission lab32.cfg .ss (stackSize lab32.cfg .s32) ((regs32.setR32 4 3).slot .s32 4) 4 .write =
      some (.offsetWrap .ss 0xFFFFFFFF 4) ∧
    admission lab16.cfg .ss (stackSize lab16.cfg .s16) (regs16.slot .s16 2) 2 .write = none ∧
    admission lab16.cfg .ss (stackSize lab16.cfg .s16) ((regs16.setR32 4 1).slot .s16 2) 2 .write =
      some (.offsetWrap .ss 0xFFFF 2) := by decide

theorem witness_PushImmediateRules :
    admission lab32.cfg .ss (stackSize lab32.cfg .s32) (regs32.slot .s32 4) 4 .write = none ∧
    admission lab32.cfg .ss (stackSize lab32.cfg .s32) ((regs32.setR32 4 3).slot .s32 4) 4 .write =
      some (.offsetWrap .ss 0xFFFFFFFF 4) ∧
    admission lab16.cfg .ss (stackSize lab16.cfg .s16) (regs16.slot .s16 2) 2 .write = none ∧
    admission lab16.cfg .ss (stackSize lab16.cfg .s16) ((regs16.setR32 4 1).slot .s16 2) 2 .write =
      some (.offsetWrap .ss 0xFFFF 2) := by decide

/-- Eight admitted slots; the first slot stopped; the third and the eighth stopped after the ones before it were
admitted. -/
theorem witness_PushAllRules :
    (∀ k : Fin 8, admission lab16.cfg .ss (stackSize lab16.cfg .s16) (regs16.slot .s16 (2 * (k.val + 1))) 2 .write =
      none) ∧
    admission lab16.cfg .ss (stackSize lab16.cfg .s16) ((regs16.setR32 4 1).slot .s16 2) 2 .write =
      some (.offsetWrap .ss 0xFFFF 2) ∧
    ((∀ j : Fin 2, admission lab16.cfg .ss (stackSize lab16.cfg .s16)
        ((regs16.setR32 4 5).slot .s16 (2 * (j.val + 1))) 2 .write = none) ∧
      admission lab16.cfg .ss (stackSize lab16.cfg .s16) ((regs16.setR32 4 5).slot .s16 6) 2 .write =
        some (.offsetWrap .ss 0xFFFF 2)) ∧
    ((∀ j : Fin 7, admission lab32.cfg .ss (stackSize lab32.cfg .s32)
        ((regs32.setR32 4 31).slot .s32 (4 * (j.val + 1))) 4 .write = none) ∧
      admission lab32.cfg .ss (stackSize lab32.cfg .s32) ((regs32.setR32 4 31).slot .s32 32) 4 .write =
        some (.offsetWrap .ss 0xFFFFFFFF 4)) ∧
    regs16.cfg.mode = .s16 ∧ regs32.cfg.mode = .s32 := by decide

theorem witness_PushFlagsRules :
    regs16.cfg.mode = .s16 ∧ regs32.cfg.mode = .s32 ∧
    admission lab32.cfg .ss (stackSize lab32.cfg .s32) (regs32.slot .s32 4) 4 .write = none ∧
    admission lab32.cfg .ss (stackSize lab32.cfg .s32) ((regs32.setR32 4 3).slot .s32 4) 4 .write =
      some (.offsetWrap .ss 0xFFFFFFFF 4) ∧
    admission lab16.cfg .ss (stackSize lab16.cfg .s16) (regs16.slot .s16 2) 2 .write = none ∧
    admission lab16.cfg .ss (stackSize lab16.cfg .s16) ((regs16.setR32 4 1).slot .s16 2) 2 .write =
      some (.offsetWrap .ss 0xFFFF 2) := by decide

end Sys2Proof.Tests
end

section
/-!
PROOFS. The decoder's answers that say PSRAQ does not exist (47_shift.md R280): what an unprefixed two-byte opcode
decodes to when its row is a shift group without the digit, and when the map has no row for it.
-/

namespace Sys2Proof.Proofs.Shift

open Sys2Proof Sys2Proof.Machine

/-- Without prefixes both size attributes are the mode (R104, R105). -/
theorem decodeParts_unprefixed_0F (mode : Size) (bs : List Byte) :
    decodeParts mode (0x0F :: bs) = decodeTwoByte .empty mode mode bs :=
  (decodeParts_overrideBytes mode false false none 0x0F bs rfl).trans (decodeOpcode_0F ..)

theorem decodeTwoByte_of_mmxRow_eq_none {op : Byte} (hop : isMmxOpcode op) (hrow : mmxRow op = none) (p : Prefixes)
    (o a : Size) (rest : List Byte) : decodeTwoByte p o a (op :: rest) = .error .notInScope := by
  obtain ⟨hFs, hGs⟩ := hop
  rw [decodeTwoByte, if_neg hFs, if_neg hGs, hrow]

/-- R130: for an unlisted digit the `mod` field does not matter, since a memory form is excluded as well. -/
theorem decodeMmxRow_shiftGroup_of_unlisted {g : BitVec 3 → Option (MmReg → BitVec 8 → Instr)} {modrm : Byte}
    (hdigit : g (regField modrm) = none) (a : Size) (ovr : Option SegReg) (rest : List Byte) :
    decodeMmxRow a ovr (.shiftGroup g) (modrm :: rest) = .error .invalidOpcode := by
  by_cases hmod : modField modrm = 3
  · exact (if_pos hmod).trans (by simp [hdigit])
  · exact if_neg hmod

theorem decode_shiftGroup_of_unlisted {op modrm : Byte} {g : BitVec 3 → Option (MmReg → BitVec 8 → Instr)}
    (hop : isMmxOpcode op) (hrow : mmxRow op = some (.shiftGroup g)) (hdigit : g (regField modrm) = none)
    (mode : Size) (rest : List Byte) :
    decode mode (0x0F :: op :: modrm :: rest) = .rejected .invalidOpcode := by
  rw [decode_eq_rejected_iff, decodeParts_unprefixed_0F, decodeTwoByte_mmx hop hrow rfl,
    decodeMmxRow_shiftGroup_of_unlisted hdigit]

theorem decode_of_mmxRow_eq_none {op : Byte} (hop : isMmxOpcode op) (hrow : mmxRow op = none) (mode : Size)
    (rest : List Byte) : decode mode (0x0F :: op :: rest) = .rejected .notInScope := by
  rw [decode_eq_rejected_iff, decodeParts_unprefixed_0F, decodeTwoByte_of_mmxRow_eq_none hop hrow]

/-- R280: the quadword group lists no digit 4, where the word and doubleword groups have PSRAW and PSRAD. -/
theorem shiftGroupQ_four : shiftGroupQ 4 = none := rfl

/-- Settles O11: `0F 73` is the quadword shift group, which lacks digit 4, and `0F E3` has no row. -/
theorem noArithmeticQuadwordShift : Obligations.NoArithmeticQuadwordShift := by
  intro mode modrm rest
  constructor
  · intro hdigit
    have hunlisted : shiftGroupQ (regField modrm) = none := by rw [hdigit, shiftGroupQ_four]
    exact decode_shiftGroup_of_unlisted ⟨by decide, by decide⟩ rfl hunlisted mode rest
  · exact decode_of_mmxRow_eq_none ⟨by decide, by decide⟩ rfl mode (modrm :: rest)

end Sys2Proof.Proofs.Shift
end

section
/-!
PROOFS. Two spellings of one push (48_push.md R307, R312, R317): what the decoder answers for each, behind the
operand-size override where the size is not the mode's, and that the two answers have one meaning.
-/

namespace Sys2Proof.Proofs.Push

open Sys2Proof Sys2Proof.Machine

/-! ## The decoder on pushes without address-size override -/

@[simp] theorem opPrefix_self (mode : Size) : opPrefix mode mode = [] := if_pos rfl

@[simp] theorem opPrefix_other (mode : Size) : opPrefix mode mode.other = [0x66] := by cases mode <;> rfl

/-- A push decodes from its opcode behind the operand-size override its size needs, if any (R104). -/
theorem decode_opPrefix {mode o : Size} {op : Byte} {tail rest : List Byte} {i : Instr} (hop : prefixKind op = none)
    (h : ∀ p : Prefixes, decodeOpcode p o mode op (tail ++ rest) = .ok (i, rest)) :
    decode mode (opPrefix mode o ++ op :: (tail ++ rest)) =
      .instr i ((opPrefix mode o).length + (tail.length + 1)) := by
  simpa [basePrefixes, addrPrefix] using
    decode_basePrefixes (mode := mode) (a := mode) (sg := none) hop rest fun p _ => h p

/-- `50+r` is the row's five bits and the register number (R128). -/
theorem pushReg_byte (r : GpReg) : 0x50 + r.setWidth 8 = (0b01010#5 ++ r : Byte) := by revert r; decide

/-- `F0+r` is the ModRM byte of a register operand with the digit 6 of PUSH (R107, R128). -/
theorem pushRm_modrm (r : GpReg) : 0xF0 + r.setWidth 8 = modrmByte 3 6 r := by revert r; decide

theorem decodeOpcode_pushReg_s16 (p : Prefixes) (a : Size) (r : GpReg) (bs : List Byte) :
    decodeOpcode p .s16 a (0b01010#5 ++ r) bs = .ok (.pushReg16 a r, bs) := by
  obtain ⟨h0F, h06, h0E, h16, h1E, hrow, hr, -⟩ := pushReg_opcode r
  rw [decodeOpcode, if_neg h0F, if_neg h06, if_neg h0E, if_neg h16, if_neg h1E, if_pos hrow, hr]

theorem decodeOpcode_pushReg_s32 (p : Prefixes) (a : Size) (r : GpReg) (bs : List Byte) :
    decodeOpcode p .s32 a (0b01010#5 ++ r) bs = .ok (.pushReg32 a r, bs) := by
  obtain ⟨h0F, h06, h0E, h16, h1E, hrow, hr, -⟩ := pushReg_opcode r
  rw [decodeOpcode, if_neg h0F, if_neg h06, if_neg h0E, if_neg h16, if_neg h1E, if_pos hrow, hr]

theorem decodeOpcode_FF (p : Prefixes) (o a : Size) (bs : List Byte) :
    decodeOpcode p o a 0xFF bs = decodeGroupFF o a p.seg bs := rfl

theorem decodeOpcode_68 (p : Prefixes) (o a : Size) (bs : List Byte) :
    decodeOpcode p o a 0x68 bs = decodePushImm o a bs := rfl

theorem decodeOpcode_6A (p : Prefixes) (o a : Size) (ib : Byte) (bs : List Byte) :
    decodeOpcode p o a 0x6A (ib :: bs) = .ok (.pushImm8 o a ib, bs) := rfl

/-- R112: with a register operand no segment override is looked at. -/
theorem decodeGroupFF_reg_s16 (a : Size) (ovr : Option SegReg) (r : GpReg) (bs : List Byte) :
    decodeGroupFF .s16 a ovr (modrmByte 3 6 r :: bs) = .ok (.pushRm16 a (.reg r), bs) := by
  simp [decodeGroupFF, decodeRm]

theorem decodeGroupFF_reg_s32 (a : Size) (ovr : Option SegReg) (r : GpReg) (bs : List Byte) :
    decodeGroupFF .s32 a ovr (modrmByte 3 6 r :: bs) = .ok (.pushRm32 a (.reg r), bs) := by
  simp [decodeGroupFF, decodeRm]

theorem decodePushImm_s16 (a : Size) (v : BitVec 16) (bs : List Byte) :
    decodePushImm .s16 a (bytes16 v ++ bs) = .ok (.pushImm16 a v, bs) := by simp [decodePushImm]

theorem decodePushImm_s32 (a : Size) (v : BitVec 32) (bs : List Byte) :
    decodePushImm .s32 a (bytes32 v ++ bs) = .ok (.pushImm32 a v, bs) := by simp [decodePushImm]

/-- R312: the byte `60` is the form of the operand size. -/
theorem decodeOpcode_60 (p : Prefixes) (o a : Size) (bs : List Byte) :
    decodeOpcode p o a 0x60 bs = .ok ((Instr.pusha a).sized o, bs) := by cases o <;> rfl

/-- R317: the byte `9C` is the form of the operand size. -/
theorem decodeOpcode_9C (p : Prefixes) (o a : Size) (bs : List Byte) :
    decodeOpcode p o a 0x9C bs = .ok ((Instr.pushf a).sized o, bs) := by cases o <;> rfl

/-! ## Redundant encodings (R307) -/

/-- Code that begins with an instruction of `m` bytes and code that begins with one of `n` bytes, whose meanings agree
in the state. -/
def SameEffect (mode : Size) (s : State) (bs : List Byte) (m : Nat) (cs : List Byte) (n : Nat) : Prop :=
  ∃ i j, decode mode bs = .instr i m ∧ decode mode cs = .instr j n ∧ exec i s = exec j s

theorem exec_pushReg16_eq_pushRm16 (a : Size) (r : GpReg) (s : State) :
    exec (.pushReg16 a r) s = exec (.pushRm16 a (.reg r)) s := rfl

theorem exec_pushReg32_eq_pushRm32 (a : Size) (r : GpReg) (s : State) :
    exec (.pushReg32 a r) s = exec (.pushRm32 a (.reg r)) s := rfl

theorem exec_pushImm8_eq_pushImm16 (a : Size) (ib : Byte) (s : State) :
    exec (.pushImm8 .s16 a ib) s = exec (.pushImm16 a (ib.signExtend 16)) s := rfl

theorem exec_pushImm8_eq_pushImm32 (a : Size) (ib : Byte) (s : State) :
    exec (.pushImm8 .s32 a ib) s = exec (.pushImm32 a (ib.signExtend 32)) s := rfl

theorem sameEffect_pushReg (mode o : Size) (r : GpReg) (rest : List Byte) (s : State) :
    SameEffect mode s (opPrefix mode o ++ (0x50 + r.setWidth 8) :: rest) ((opPrefix mode o).length + 1)
      (opPrefix mode o ++ 0xFF :: (0xF0 + r.setWidth 8) :: rest) ((opPrefix mode o).length + 2) := by
  obtain ⟨-, -, -, -, -, -, -, hop⟩ := pushReg_opcode r
  rw [pushReg_byte, pushRm_modrm]
  cases o with
  | s16 =>
    exact ⟨_, _, decode_opPrefix (tail := []) hop fun p => decodeOpcode_pushReg_s16 p ..,
      decode_opPrefix (tail := [modrmByte 3 6 r]) rfl fun p =>
        (decodeOpcode_FF p ..).trans (decodeGroupFF_reg_s16 ..),
      exec_pushReg16_eq_pushRm16 ..⟩
  | s32 =>
    exact ⟨_, _, decode_opPrefix (tail := []) hop fun p => decodeOpcode_pushReg_s32 p ..,
      decode_opPrefix (tail := [modrmByte 3 6 r]) rfl fun p =>
        (decodeOpcode_FF p ..).trans (decodeGroupFF_reg_s32 ..),
      exec_pushReg32_eq_pushRm32 ..⟩

theorem sameEffect_pushImm_s16 (mode : Size) (ib : Byte) (rest : List Byte) (s : State) :
    SameEffect mode s (opPrefix mode .s16 ++ 0x6A :: ib :: rest) ((opPrefix mode .s16).length + 2)
      (opPrefix mode .s16 ++ 0x68 :: (bytes16 (ib.signExtend 16) ++ rest)) ((opPrefix mode .s16).length + 3) :=
  ⟨_, _, decode_opPrefix (tail := [ib]) rfl fun p => decodeOpcode_6A p ..,
    decode_opPrefix (tail := bytes16 _) rfl fun p => (decodeOpcode_68 p ..).trans (decodePushImm_s16 ..),
    exec_pushImm8_eq_pushImm16 ..⟩

theorem sameEffect_pushImm_s32 (mode : Size) (ib : Byte) (rest : List Byte) (s : State) :
    SameEffect mode s (opPrefix mode .s32 ++ 0x6A :: ib :: rest) ((opPrefix mode .s32).length + 2)
      (opPrefix mode .s32 ++ 0x68 :: (bytes32 (ib.signExtend 32) ++ rest)) ((opPrefix mode .s32).length + 5) :=
  ⟨_, _, decode_opPrefix (tail := [ib]) rfl fun p => decodeOpcode_6A p ..,
    decode_opPrefix (tail := bytes32 _) rfl fun p => (decodeOpcode_68 p ..).trans (decodePushImm_s32 ..),
    exec_pushImm8_eq_pushImm32 ..⟩

/-- Settles O12: the register forms at the mode's size and at the other one, then the immediate forms at each operand
size in each mode. -/
theorem redundantPushEncodings : Obligations.RedundantPushEncodings := by
  intro mode r ib rest s
  have hreg := sameEffect_pushReg mode mode r rest s
  have hregOther := sameEffect_pushReg mode mode.other r rest s
  rw [opPrefix_self] at hreg
  rw [opPrefix_other] at hregOther
  exact ⟨hreg, hregOther, sameEffect_pushImm_s16 .s16 ib rest s, sameEffect_pushImm_s32 .s32 ib rest s,
    sameEffect_pushImm_s16 .s32 ib rest s, sameEffect_pushImm_s32 .s16 ib rest s⟩

/-! ## PUSHA and PUSHF (R312, R317) -/

theorem encode_pusha (mode : Size) : encode mode (.pusha mode) = [0x60] := by
  simp [encode, basePrefixes, addrPrefix]

theorem encode_pushf (mode : Size) : encode mode (.pushf mode) = [0x9C] := by
  simp [encode, basePrefixes, addrPrefix]

theorem decode_60 (mode o : Size) (rest : List Byte) :
    decode mode (opPrefix mode o ++ 0x60 :: rest) =
      .instr ((Instr.pusha mode).sized o) ((opPrefix mode o).length + 1) :=
  decode_opPrefix (tail := []) rfl fun p => decodeOpcode_60 p ..

theorem decode_9C (mode o : Size) (rest : List Byte) :
    decode mode (opPrefix mode o ++ 0x9C :: rest) =
      .instr ((Instr.pushf mode).sized o) ((opPrefix mode o).length + 1) :=
  decode_opPrefix (tail := []) rfl fun p => decodeOpcode_9C p ..

/-- R312: the second name acts as the form of the mode's size. -/
theorem exec_pusha (a : Size) (s : State) : exec (.pusha a) s = exec ((Instr.pusha a).sized s.cfg.mode) s := by
  change execPusha a s = _
  unfold execPusha
  cases s.cfg.mode <;> rfl

/-- R317: the second name acts as the form of the mode's size. -/
theorem exec_pushf (a : Size) (s : State) : exec (.pushf a) s = exec ((Instr.pushf a).sized s.cfg.mode) s := by
  change execPushf a s = _
  unfold execPushf
  cases s.cfg.mode <;> rfl

/-- Settles O13: each byte at both operand sizes in both modes, then the second names in the two modes. -/
theorem secondNamesFollowTheMode : Obligations.SecondNamesFollowTheMode := by
  intro a s rest
  refine ⟨fun mode => ⟨encode_pusha mode, encode_pushf mode⟩,
    decode_60 .s16 .s16 rest, decode_60 .s32 .s32 rest, decode_60 .s16 .s32 rest, decode_60 .s32 .s16 rest,
    decode_9C .s16 .s16 rest, decode_9C .s32 .s32 rest, decode_9C .s16 .s32 rest, decode_9C .s32 .s16 rest,
    fun hmode => ?_, fun hmode => ?_⟩
  · rw [exec_pusha, exec_pushf, hmode]
    exact ⟨rfl, rfl⟩
  · rw [exec_pusha, exec_pushf, hmode]
    exact ⟨rfl, rfl⟩

end Sys2Proof.Proofs.Push
end

section
/-!
PROOFS. Decode of encode (30_encoding.md R101 to R128): each shape of instruction decodes from its encoding, whatever
bytes follow.
-/

namespace Sys2Proof.Proofs.Encoding

open Sys2Proof Sys2Proof.Machine Sys2Proof.Proofs.Push

/-- A push without a segment override decodes from its size prefixes and opcode when the opcode's decoding does. -/
theorem decode_basePrefixes_noSegment {mode o a : Size} {op : Byte} {tail rest : List Byte} {i : Instr}
    (hop : prefixKind op = none)
    (h : ∀ p : Prefixes, decodeOpcode p o a op (tail ++ rest) = .ok (i, rest)) :
    decode mode (basePrefixes mode o a ++ op :: tail ++ rest) =
      .instr i (basePrefixes mode o a ++ op :: tail).length := by
  simpa using decode_basePrefixes (mode := mode) (sg := none) hop rest fun p _ => h p

/-- `FF /6` decodes to the push of its operand at the operand size (R120, R128). -/
theorem decodeGroupFF_encodeRm {o a : Size} {rm : RmOp} (hrm : (rm.wellFormed && rm.fits a) = true) (rest : List Byte) :
    decodeGroupFF o a (segOverride rm) (encodeRm 6 rm ++ rest) =
      .ok (match o with | .s16 => .pushRm16 a rm | .s32 => .pushRm32 a rm, rest) := by
  obtain ⟨hw, hf⟩ := (Bool.and_eq_true _ _).mp hrm
  obtain ⟨modrm, tail, hbytes, hdigit, hdecode⟩ := decodeRm_encodeRm a 6 rm hw hf rest
  rw [hbytes]
  cases o <;> simp [decodeGroupFF, hdigit, hdecode]

/-- A push of an `r/m` operand decodes from its encoding. -/
theorem decode_pushRm {o a : Size} {rm : RmOp} (hrm : (rm.wellFormed && rm.fits a) = true) (mode : Size)
    (rest : List Byte) :
    decode mode (basePrefixes mode o a ++ segPrefix rm ++ 0xFF :: encodeRm 6 rm ++ rest) =
      .instr (match o with | .s16 => .pushRm16 a rm | .s32 => .pushRm32 a rm)
        (basePrefixes mode o a ++ segPrefix rm ++ 0xFF :: encodeRm 6 rm).length := by
  rw [segPrefix_eq]
  refine decode_basePrefixes rfl rest fun p hseg => ?_
  rw [decodeOpcode_FF, hseg, decodeGroupFF_encodeRm hrm]

/-- Settles O1: pushes by their opcode, shift groups by their digit, and the other rows of the two-byte map by whether
their operand may be a register. -/
theorem decodeOfEncode : Obligations.DecodeOfEncode := by
  intro mode i rest hwf
  cases i
  case emms => exact decode_of_decodeParts (bs := [0x0F, 0x77]) rfl
  case psrlwImm | psrawImm | psllwImm | psrldImm | psradImm | pslldImm | psrlqImm | psllqImm =>
    exact decode_shiftImm ⟨by decide, by decide⟩ rfl rfl rest
  case pdistib | pmvzb | pmvnzb | pmvlzb | pmvgezb | pmachriw =>
    exact decode_encodeMmxMem ⟨by decide, by decide⟩ rfl hwf rest
  case pushFs | pushGs => exact decode_basePrefixes_noSegment (tail := [_]) rfl fun _ => rfl
  case pushEs | pushCs | pushSs | pushDs => exact decode_basePrefixes_noSegment (tail := []) rfl fun _ => rfl
  case pushReg16 a r =>
    obtain ⟨-, -, -, -, -, -, -, hop⟩ := pushReg_opcode r
    exact decode_basePrefixes_noSegment (tail := []) hop fun p => decodeOpcode_pushReg_s16 p ..
  case pushReg32 a r =>
    obtain ⟨-, -, -, -, -, -, -, hop⟩ := pushReg_opcode r
    exact decode_basePrefixes_noSegment (tail := []) hop fun p => decodeOpcode_pushReg_s32 p ..
  case pushaw | pushad | pusha =>
    exact decode_basePrefixes_noSegment (tail := []) rfl fun p => decodeOpcode_60 p ..
  case pushfw | pushfd | pushf =>
    exact decode_basePrefixes_noSegment (tail := []) rfl fun p => decodeOpcode_9C p ..
  case pushImm16 a imm =>
    exact decode_basePrefixes_noSegment rfl fun p => (decodeOpcode_68 p ..).trans (decodePushImm_s16 ..)
  case pushImm32 a imm =>
    exact decode_basePrefixes_noSegment rfl fun p => (decodeOpcode_68 p ..).trans (decodePushImm_s32 ..)
  case pushImm8 o a imm =>
    exact decode_basePrefixes_noSegment (tail := [imm]) rfl fun p => decodeOpcode_6A p ..
  case movdStore => exact decode_encodeMmxRm (f := fun r m => .movdStore m r) ⟨by decide, by decide⟩ rfl hwf rest
  case movqStore => exact decode_encodeMmxRm (f := fun r m => .movqStore m r) ⟨by decide, by decide⟩ rfl hwf rest
  case pushRm16 => exact decode_pushRm (o := .s16) hwf mode rest
  case pushRm32 => exact decode_pushRm (o := .s32) hwf mode rest
  all_goals exact decode_encodeMmxRm ⟨by decide, by decide⟩ rfl hwf rest

/-! ## What any bytes decode to -/

theorem decode_eq_instr_iff {mode : Size} {bs : List Byte} {i : Instr} {len : Nat} :
    decode mode bs = .instr i len ↔ ∃ r, decodeParts mode bs = .ok (i, r) ∧ bs.length - r.length = len := by
  unfold decode
  split
  · next j r hparts => simp [hparts]
  · next e hparts => simp [hparts]

/-- A decoded instruction is well formed, its bytes are the first `len` of those given, 1 to 10 of them, and followed by
any others they decode to it again. -/
theorem decode_instr_bytes {mode : Size} {bs : List Byte} {i : Instr} {len : Nat} (h : decode mode bs = .instr i len) :
    i.wellFormed = true ∧ ∃ c r, bs = c ++ r ∧ c.length = len ∧ 1 ≤ len ∧ len ≤ 10 ∧
      ∀ rest, decode mode (c ++ rest) = .instr i len := by
  obtain ⟨r, hparts, rfl⟩ := decode_eq_instr_iff.1 h
  obtain ⟨hwf, c, rfl, hpos, hmax, hagain⟩ := decodeParts_ok hparts
  have hlen : (c ++ r).length - r.length = c.length := by simp
  rw [hlen]
  exact ⟨hwf, c, r, rfl, rfl, hpos, hmax, fun rest => decode_of_decodeParts (hagain rest)⟩

/-- Settles O3: the bounds hold of the instruction's own bytes, which begin the bytes given. -/
theorem decodedInstructionsAreShortAndWellFormed : Obligations.DecodedInstructionsAreShortAndWellFormed := by
  intro mode bs i len h
  obtain ⟨hwf, c, r, rfl, rfl, hpos, hmax, -⟩ := decode_instr_bytes h
  exact ⟨hwf, hpos, hmax, by simp⟩

/-- Settles O4: the first `len` bytes are the instruction's own. -/
theorem decodeReadsNothingBeyondTheInstruction : Obligations.DecodeReadsNothingBeyondTheInstruction := by
  intro mode bs rest i len h
  obtain ⟨-, c, r, rfl, rfl, -, -, hagain⟩ := decode_instr_bytes h
  rw [List.take_left]
  exact hagain rest

/-- Settles O2: the model evaluated on the sixteen byte sequences. -/
theorem wordsFromTheOpcodeMap : Obligations.WordsFromTheOpcodeMap := by
  unfold Obligations.WordsFromTheOpcodeMap
  decide

end Sys2Proof.Proofs.Encoding
end

section
/-!
PROOFS. Prefixes (30_encoding.md R102 to R105): the scan as a fold over the kinds of the bytes read, when the
fold is accepted, and what it then holds.
-/

namespace Sys2Proof.Proofs.Scan

open Sys2Proof Sys2Proof.Machine

/-! ## Prefixes by kind -/

theorem prefixKind_eq_opsize {b : Byte} : prefixKind b = some .opsize ↔ b = 0x66 := by revert b; decide

theorem prefixKind_eq_addrsize {b : Byte} : prefixKind b = some .addrsize ↔ b = 0x67 := by revert b; decide

theorem prefixKind_segByte (x : SegReg) : prefixKind (segByte x) = some (.segment x) := by cases x <;> rfl

theorem prefixKind_eq_segment {b : Byte} {x : SegReg} : prefixKind b = some (.segment x) ↔ b = segByte x := by
  revert b; cases x <;> decide

/-- LOCK, REPNE and REP (R102, R103). -/
theorem prefixKind_eq_unaccepted {b : Byte} : prefixKind b = some .unaccepted ↔ b = 0xF0 ∨ b = 0xF2 ∨ b = 0xF3 := by
  revert b; decide

theorem segByte_injective {x y : SegReg} (h : segByte x = segByte y) : x = y := by
  have hkind := prefixKind_segByte x
  rw [h, prefixKind_segByte] at hkind
  cases hkind; rfl

/-- The kinds of the prefixes in a list of bytes, in its order. -/
def prefixKinds (ps : List Byte) : List PrefixKind := ps.filterMap prefixKind

theorem mem_prefixKinds {ps : List Byte} {k : PrefixKind} : k ∈ prefixKinds ps ↔ ∃ b ∈ ps, prefixKind b = some k :=
  List.mem_filterMap

/-- The scan adds up the kinds of the prefixes, however many there are (R103). -/
theorem scanPrefixes_append {ps : List Byte} {op : Byte} (hps : ∀ b ∈ ps, prefixKind b ≠ none)
    (hop : prefixKind op = none) (p : Prefixes) (rest : List Byte) :
    scanPrefixes p (ps ++ op :: rest) = .ok ((prefixKinds ps).foldl Prefixes.add p, op :: rest) := by
  induction ps generalizing p with
  | nil => rw [List.nil_append, scanPrefixes, hop]; rfl
  | cons b ps ih =>
    obtain ⟨k, hk⟩ := Option.ne_none_iff_exists'.1 (hps b (List.mem_cons_self ..))
    rw [List.cons_append, scanPrefixes, hk, prefixKinds, List.filterMap_cons_some hk, List.foldl_cons]
    exact ih (fun c hc => hps c (List.mem_cons_of_mem _ hc)) (p.add k)

/-! ## Which prefixes are accepted together -/

/-- Two prefixes R103 does not accept together: a size override twice, or two segment overrides. -/
def Clash : PrefixKind → PrefixKind → Prop
  | .opsize, .opsize => True
  | .addrsize, .addrsize => True
  | .segment _, .segment _ => True
  | _, _ => False

theorem clash_symm {k k' : PrefixKind} (h : Clash k k') : Clash k' k := by
  cases k <;> cases k' <;> exact h

/-- A kind R103 does not accept after the prefixes read so far. -/
def Bars (p : Prefixes) : PrefixKind → Prop
  | .opsize => p.opsize = true
  | .addrsize => p.addrsize = true
  | .segment _ => p.seg.isSome = true
  | .unaccepted => True

theorem add_refused_eq_false {p : Prefixes} {k : PrefixKind} :
    (p.add k).refused = false ↔ p.refused = false ∧ ¬ Bars p k := by
  cases k <;> simp [Prefixes.add, Bars]

theorem bars_add {p : Prefixes} {k k' : PrefixKind} :
    Bars (p.add k) k' ↔ Bars p k' ∨ Clash k k' := by
  cases k <;> cases k' <;> simp [Prefixes.add, Bars, Clash]

/-- Prefixes are accepted when none is barred by what was read before them and no two clash (R103). -/
theorem foldl_add_refused_eq_false {ks : List PrefixKind} {p : Prefixes} :
    (ks.foldl Prefixes.add p).refused = false ↔
      p.refused = false ∧ (∀ k ∈ ks, ¬ Bars p k) ∧ ks.Pairwise fun k k' => ¬ Clash k k' := by
  induction ks generalizing p with
  | nil => simp
  | cons k ks ih =>
    simp only [List.foldl_cons, ih, add_refused_eq_false, bars_add, not_or, List.forall_mem_cons, List.pairwise_cons]
    constructor
    · rintro ⟨⟨hp, hk⟩, hrest, hpair⟩
      exact ⟨hp, ⟨hk, fun c hc => (hrest c hc).1⟩, fun c hc => (hrest c hc).2, hpair⟩
    · rintro ⟨hp, ⟨hk, hbars⟩, hclash, hpair⟩
      exact ⟨⟨hp, hk⟩, fun c hc => ⟨hbars c hc, hclash c hc⟩, hpair⟩

theorem bars_empty {k : PrefixKind} : Bars .empty k ↔ k = .unaccepted := by
  cases k <;> simp [Bars, Prefixes.empty]

theorem empty_refused : Prefixes.empty.refused = false := rfl

/-- R103 for a whole run of prefixes: none is F0, F2 or F3, and no two clash. -/
theorem accepted_iff {ks : List PrefixKind} :
    (ks.foldl Prefixes.add .empty).refused = false ↔
      PrefixKind.unaccepted ∉ ks ∧ ks.Pairwise fun k k' => ¬ Clash k k' := by
  simp only [foldl_add_refused_eq_false, empty_refused, bars_empty, true_and]
  exact and_congr_left' ⟨fun h hk => h _ hk rfl, fun h k hk e => h (e ▸ hk)⟩

theorem pairwise_not_clash_prefixKinds {ps : List Byte} :
    (prefixKinds ps).Pairwise (fun k k' => ¬ Clash k k') ↔
      ps.Pairwise fun b b' => ∀ k, prefixKind b = some k → ∀ k', prefixKind b' = some k' → ¬ Clash k k' :=
  List.pairwise_filterMap

/-! ## What accepted prefixes select -/

theorem foldl_add_opsize {ks : List PrefixKind} {p : Prefixes} :
    (ks.foldl Prefixes.add p).opsize = true ↔ p.opsize = true ∨ PrefixKind.opsize ∈ ks := by
  induction ks generalizing p with
  | nil => simp
  | cons k ks ih => cases k <;> simp [ih, Prefixes.add]

theorem foldl_add_addrsize {ks : List PrefixKind} {p : Prefixes} :
    (ks.foldl Prefixes.add p).addrsize = true ↔ p.addrsize = true ∨ PrefixKind.addrsize ∈ ks := by
  induction ks generalizing p with
  | nil => simp
  | cons k ks ih => cases k <;> simp [ih, Prefixes.add]

theorem foldl_add_seg_isSome {ks : List PrefixKind} {p : Prefixes} :
    (ks.foldl Prefixes.add p).seg.isSome = true ↔ p.seg.isSome = true ∨ ∃ x, PrefixKind.segment x ∈ ks := by
  induction ks generalizing p with
  | nil => simp
  | cons k ks ih => cases k <;> simp [ih, Prefixes.add]

theorem mem_of_foldl_add_seg {ks : List PrefixKind} {p : Prefixes} {x : SegReg}
    (h : (ks.foldl Prefixes.add p).seg = some x) : p.seg = some x ∨ PrefixKind.segment x ∈ ks := by
  induction ks generalizing p with
  | nil => exact .inl h
  | cons k ks ih =>
    rcases ih h with hk | hks
    · cases k with
      | segment y => cases hk; exact .inr (List.mem_cons_self ..)
      | opsize | addrsize | unaccepted => exact .inl hk
    · exact .inr (List.mem_cons_of_mem _ hks)

/-- The segment of the scan is the one override that is there. -/
theorem foldl_add_seg_of_unique {ks : List PrefixKind}
    (hone : ∀ x y, PrefixKind.segment x ∈ ks → PrefixKind.segment y ∈ ks → x = y) (x : SegReg) :
    (ks.foldl Prefixes.add .empty).seg = some x ↔ PrefixKind.segment x ∈ ks := by
  constructor
  · intro h
    exact (mem_of_foldl_add_seg h).resolve_left (by simp [Prefixes.empty])
  · intro hx
    obtain ⟨y, hy⟩ := Option.isSome_iff_exists.1 ((foldl_add_seg_isSome (p := .empty)).2 (.inr ⟨x, hx⟩))
    have hmem := (mem_of_foldl_add_seg hy).resolve_left (by simp [Prefixes.empty])
    rw [hy, hone x y hx hmem]

theorem opsize_mem_prefixKinds {ps : List Byte} : PrefixKind.opsize ∈ prefixKinds ps ↔ 0x66 ∈ ps := by
  simp [mem_prefixKinds, prefixKind_eq_opsize]

theorem addrsize_mem_prefixKinds {ps : List Byte} : PrefixKind.addrsize ∈ prefixKinds ps ↔ 0x67 ∈ ps := by
  simp [mem_prefixKinds, prefixKind_eq_addrsize]

theorem segment_mem_prefixKinds {ps : List Byte} {x : SegReg} :
    PrefixKind.segment x ∈ prefixKinds ps ↔ segByte x ∈ ps := by
  simp [mem_prefixKinds, prefixKind_eq_segment]

theorem decodeParts_prefixes {ps : List Byte} {op : Byte} (hps : ∀ b ∈ ps, prefixKind b ≠ none)
    (hop : prefixKind op = none) (mode : Size) (rest : List Byte) :
    decodeParts mode (ps ++ op :: rest) =
      let p := (prefixKinds ps).foldl Prefixes.add .empty
      if p.refused then .error .prefixNotInScope
      else decodeOpcode p (sizeAttr mode p.opsize) (sizeAttr mode p.addrsize) op rest := by
  rw [decodeParts, scanPrefixes_append hps hop]

/-- Bytes among the size prefixes and the overrides that are none twice and hold one override at most do not clash. -/
theorem not_clash_of_distinct {b b' : Byte} {k k' : PrefixKind} (hk : prefixKind b = some k)
    (hk' : prefixKind b' = some k') (hne : b ≠ b') (hseg : ∀ x y, b = segByte x → b' = segByte y → x = y) :
    ¬ Clash k k' := by
  intro hclash
  cases k <;> cases k' <;> try exact hclash
  case opsize => exact hne ((prefixKind_eq_opsize.1 hk).trans (prefixKind_eq_opsize.1 hk').symm)
  case addrsize => exact hne ((prefixKind_eq_addrsize.1 hk).trans (prefixKind_eq_addrsize.1 hk').symm)
  case segment x y =>
    have hb := prefixKind_eq_segment.1 hk
    have hb' := prefixKind_eq_segment.1 hk'
    exact hne (by rw [hb, hb', hseg x y hb hb'])

/-- Settles O5: the prefixes are accepted because no two clash, and the fold over their kinds holds each one that is
there. -/
theorem acceptedPrefixesSelectSizesAndSegment : Obligations.AcceptedPrefixesSelectSizesAndSegment := by
  intro mode ps op rest hkinds hnodup hone hop
  have hkind : ∀ b ∈ ps, ∃ k, prefixKind b = some k ∧ k ≠ .unaccepted := by
    intro b hb
    rcases hkinds b hb with rfl | rfl | ⟨x, rfl⟩
    · exact ⟨.opsize, rfl, by decide⟩
    · exact ⟨.addrsize, rfl, by decide⟩
    · exact ⟨.segment x, prefixKind_segByte x, by simp⟩
  have hps : ∀ b ∈ ps, prefixKind b ≠ none := fun b hb => by
    obtain ⟨k, hk, -⟩ := hkind b hb
    simp [hk]
  have haccepted : ((prefixKinds ps).foldl Prefixes.add .empty).refused = false := by
    refine accepted_iff.2 ⟨fun hmem => ?_, pairwise_not_clash_prefixKinds.2 ?_⟩
    · obtain ⟨b, hb, hk⟩ := mem_prefixKinds.1 hmem
      obtain ⟨k, hk', hne⟩ := hkind b hb
      rw [hk] at hk'
      cases hk'
      exact hne rfl
    · refine hnodup.imp_of_mem fun {b b'} hb hb' hne k hk k' hk' => not_clash_of_distinct hk hk' hne ?_
      rintro x y rfl rfl
      exact hone x y hb hb'
  have hopsize : ((prefixKinds ps).foldl Prefixes.add .empty).opsize = true ↔ 0x66 ∈ ps := by
    rw [foldl_add_opsize, opsize_mem_prefixKinds]; simp [Prefixes.empty]
  have haddrsize : ((prefixKinds ps).foldl Prefixes.add .empty).addrsize = true ↔ 0x67 ∈ ps := by
    rw [foldl_add_addrsize, addrsize_mem_prefixKinds]; simp [Prefixes.empty]
  refine ⟨_, ?_, hopsize, fun x => ?_⟩
  · rw [decodeParts_prefixes hps hop]
    simp only [haccepted, sizeAttr, hopsize, haddrsize, Bool.false_eq_true, if_false]
  · rw [foldl_add_seg_of_unique, segment_mem_prefixKinds]
    simpa only [segment_mem_prefixKinds] using hone

/-- Accepted prefixes hold no LOCK, REPNE or REP, no byte twice, and no two overrides (R103). -/
theorem distinct_of_accepted {ps : List Byte} (hps : ∀ b ∈ ps, prefixKind b ≠ none)
    (h : ((prefixKinds ps).foldl Prefixes.add .empty).refused = false) :
    (∀ b ∈ ps, ¬ (b = 0xF0 ∨ b = 0xF2 ∨ b = 0xF3)) ∧ ps.Nodup ∧
      ∀ x y, segByte x ∈ ps → segByte y ∈ ps → x = y := by
  obtain ⟨hun, hpair⟩ := accepted_iff.1 h
  rw [pairwise_not_clash_prefixKinds] at hpair
  have hnot : ∀ b ∈ ps, ¬ (b = 0xF0 ∨ b = 0xF2 ∨ b = 0xF3) := fun b hb hbad =>
    hun (mem_prefixKinds.2 ⟨b, hb, prefixKind_eq_unaccepted.2 hbad⟩)
  refine ⟨hnot, hpair.imp_of_mem ?_, fun x y hx hy => ?_⟩
  · rintro b b' hb - hnoclash rfl
    obtain ⟨k, hk⟩ := Option.ne_none_iff_exists'.1 (hps b hb)
    have := hnoclash k hk k hk
    cases k with
    | unaccepted => exact hnot b hb (prefixKind_eq_unaccepted.1 hk)
    | opsize | addrsize | segment => exact this trivial
  · by_contra hne
    have hbytes : segByte x ≠ segByte y := fun e => hne (segByte_injective e)
    have hsymm : Std.Symm fun b b' : Byte =>
        ∀ k, prefixKind b = some k → ∀ k', prefixKind b' = some k' → ¬ Clash k k' :=
      ⟨fun _ _ hbb k hk k' hk' hclash => hbb k' hk' k hk (clash_symm hclash)⟩
    exact hpair.forall hx hy hbytes _ (prefixKind_segByte x) _ (prefixKind_segByte y) trivial

/-- Settles O6: accepted prefixes would have none of the three faults. -/
theorem refusedPrefixes : Obligations.RefusedPrefixes := by
  intro mode ps op rest hps hop hbad
  rw [decode_eq_rejected_iff, decodeParts_prefixes hps hop]
  refine if_pos ?_
  by_contra hrefused
  obtain ⟨hlock, hnodup, hone⟩ := distinct_of_accepted hps (by simpa using hrefused)
  rcases hbad with ⟨b, hb, hb'⟩ | hdup | ⟨x, y, hne, hx, hy⟩
  · exact hlock b hb hb'
  · exact hdup hnodup
  · exact hne (hone x y hx hy)

end Sys2Proof.Proofs.Scan
end

section
/-!
PROOFS. What the opcode map leaves out (30_encoding.md R103, R129 to R131), and the memory operands the decoder delivers
(R105, R113 to R116).
-/

namespace Sys2Proof.Proofs.OpcodeMap

open Sys2Proof Sys2Proof.Machine Sys2Proof.Proofs.Shift

/-! ## MMX rows -/

/-- A0 and A8 are PUSH FS and PUSH GS, which are no rows of the MMX map. -/
theorem isMmxOpcode_of_mmxRow {op : Byte} (h : mmxRow op ≠ none) : isMmxOpcode op :=
  ⟨fun e => h (e ▸ rfl), fun e => h (e ▸ rfl)⟩

/-- Settles O7: the row of the opcode is known, and the refusal comes before anything after it is read. -/
theorem operandSizePrefixRefusedOnMmx : Obligations.OperandSizePrefixRefusedOnMmx := by
  intro mode op rest hrow
  obtain ⟨row, hrow'⟩ := Option.ne_none_iff_exists'.1 hrow
  obtain ⟨hFs, hGs⟩ := isMmxOpcode_of_mmxRow hrow
  have hscan := decodeParts_overrideBytes mode true false none 0x0F (op :: rest) rfl
  rw [decode_eq_rejected_iff]
  refine hscan.trans ?_
  rw [decodeOpcode_0F, decodeTwoByte, if_neg hFs, if_neg hGs, hrow']
  rfl

/-- An MMX row behind an address-size and a segment override, of which either may be missing. -/
theorem decodeParts_mmxRow {mode a : Size} {x : Option SegReg} {op : Byte} {row : TwoByteRow}
    (hrow : mmxRow op = some row) (bs : List Byte) :
    decodeParts mode (addrPrefix mode a ++ (x.map segByte).toList ++ 0x0F :: op :: bs) = decodeMmxRow a x row bs := by
  have hop : isMmxOpcode op := isMmxOpcode_of_mmxRow (by simp [hrow])
  have hscan := decodeParts_overrideBytes mode false (decide (a ≠ mode)) x 0x0F (op :: bs) rfl
  rw [decodeOpcode_0F, decodeTwoByte_mmx hop hrow rfl, sizeAttr_decide_ne] at hscan
  rwa [addrPrefix_eq]

/-- R129: a register operand in a row that takes memory only. -/
theorem decodeMmxRow_regMem_register {f : BitVec 3 → MemOp → Instr} {modrm : Byte} (hmod : modField modrm = 3)
    (a : Size) (ovr : Option SegReg) (rest : List Byte) :
    decodeMmxRow a ovr (.regMem f) (modrm :: rest) = .error .invalidOpcode :=
  if_pos hmod

/-- Settles O8: each of the six opcodes has a row that takes memory only. -/
theorem memoryOnlyRowsRefuseRegisters : Obligations.MemoryOnlyRowsRefuseRegisters := by
  intro mode a x op modrm rest hop hmod
  have hrow : ∃ f, mmxRow op = some (.regMem f) := by
    rcases hop with rfl | rfl | rfl | rfl | rfl | rfl <;> exact ⟨_, rfl⟩
  obtain ⟨f, hrow⟩ := hrow
  rw [decode_eq_rejected_iff, decodeParts_mmxRow hrow, decodeMmxRow_regMem_register hmod]

/-- R130: a memory form in a shift group is excluded whatever its digit. -/
theorem decode_shiftGroup_memory {op modrm : Byte} {g : BitVec 3 → Option (MmReg → BitVec 8 → Instr)}
    (hrow : mmxRow op = some (.shiftGroup g)) (hmod : modField modrm ≠ 3) (mode : Size) (rest : List Byte) :
    decode mode (0x0F :: op :: modrm :: rest) = .rejected .invalidOpcode := by
  have hop : isMmxOpcode op := isMmxOpcode_of_mmxRow (by simp [hrow])
  rw [decode_eq_rejected_iff, decodeParts_unprefixed_0F, decodeTwoByte_mmx hop hrow rfl]
  exact if_neg hmod

/-- A shift group answers an invalid opcode where the operand is in memory or the digit has no row (R130). -/
theorem decode_shiftGroup_excluded {op modrm : Byte} {g : BitVec 3 → Option (MmReg → BitVec 8 → Instr)}
    (hrow : mmxRow op = some (.shiftGroup g)) (h : modField modrm ≠ 3 ∨ g (regField modrm) = none) (mode : Size)
    (rest : List Byte) : decode mode (0x0F :: op :: modrm :: rest) = .rejected .invalidOpcode := by
  rcases h with hmod | hdigit
  · exact decode_shiftGroup_memory hrow hmod mode rest
  · exact decode_shiftGroup_of_unlisted (isMmxOpcode_of_mmxRow (by simp [hrow])) hrow hdigit mode rest

theorem shiftGroupW_eq_none {digit : BitVec 3} (h : digit ≠ 2 ∧ digit ≠ 4 ∧ digit ≠ 6) : shiftGroupW digit = none := by
  obtain ⟨h2, h4, h6⟩ := h
  rw [shiftGroupW, if_neg h2, if_neg h4, if_neg h6]

theorem shiftGroupD_eq_none {digit : BitVec 3} (h : digit ≠ 2 ∧ digit ≠ 4 ∧ digit ≠ 6) : shiftGroupD digit = none := by
  obtain ⟨h2, h4, h6⟩ := h
  rw [shiftGroupD, if_neg h2, if_neg h4, if_neg h6]

theorem shiftGroupQ_eq_none {digit : BitVec 3} (h : digit ≠ 2 ∧ digit ≠ 6) : shiftGroupQ digit = none := by
  obtain ⟨h2, h6⟩ := h
  rw [shiftGroupQ, if_neg h2, if_neg h6]

/-- Settles O9: each group with the digits it lists. -/
theorem shiftGroupsHaveNoOtherForms : Obligations.ShiftGroupsHaveNoOtherForms := by
  rintro mode op modrm rest (⟨rfl | rfl, h⟩ | ⟨rfl, h⟩)
  · exact decode_shiftGroup_excluded rfl (h.imp_right shiftGroupW_eq_none) mode rest
  · exact decode_shiftGroup_excluded rfl (h.imp_right shiftGroupD_eq_none) mode rest
  · exact decode_shiftGroup_excluded rfl (h.imp_right shiftGroupQ_eq_none) mode rest

/-! ## Opcodes outside the map -/

/-- The first opcode bytes of the map (R106, R128). -/
def oneByteOpcodes : List Byte :=
  [0x06, 0x0E, 0x0F, 0x16, 0x1E, 0x50, 0x51, 0x52, 0x53, 0x54, 0x55, 0x56, 0x57, 0x60, 0x68, 0x6A, 0x9C, 0xFF]

/-- The eight bytes `50+r` are those whose upper five bits are the row's. -/
theorem mem_oneByteOpcodes {op : Byte} :
    op ∈ oneByteOpcodes ↔ op = 0x0F ∨ op = 0x06 ∨ op = 0x0E ∨ op = 0x16 ∨ op = 0x1E ∨
      op.extractLsb' 3 5 = 0b01010 ∨ op = 0x60 ∨ op = 0x68 ∨ op = 0x6A ∨ op = 0x9C ∨ op = 0xFF := by
  revert op; decide

theorem decodeOpcode_unlisted {op : Byte} (h : op ∉ oneByteOpcodes) (p : Prefixes) (o a : Size) (bs : List Byte) :
    decodeOpcode p o a op bs = .error .notInScope := by
  simp only [mem_oneByteOpcodes, not_or] at h
  obtain ⟨h0F, h06, h0E, h16, h1E, h50, h60, h68, h6A, h9C, hFF⟩ := h
  rw [decodeOpcode.eq_def, if_neg h0F, if_neg h06, if_neg h0E, if_neg h16, if_neg h1E, if_neg h50, if_neg h60,
    if_neg h68, if_neg h6A, if_neg h9C, if_neg hFF]

/-- Without prefixes both size attributes are the mode (R104, R105). -/
theorem decodeParts_unprefixed {op : Byte} (hop : prefixKind op = none) (mode : Size) (bs : List Byte) :
    decodeParts mode (op :: bs) = decodeOpcode .empty mode mode op bs :=
  decodeParts_overrideBytes mode false false none op bs hop

theorem mmxRow_eq_none {op : Byte} (h : op ∉ mmxTable.map Prod.fst) : mmxRow op = none := by
  cases hrow : mmxRow op with
  | none => rfl
  | some row => exact absurd (List.mem_map_of_mem (mem_of_lookup hrow)) h

/-- Settles O10: the one-byte map, the two-byte map, and the group of `FF`. -/
theorem unlistedOpcodesAreNotInScope : Obligations.UnlistedOpcodesAreNotInScope := by
  intro mode op rest
  refine ⟨fun hop hlist => ?_, fun hFs hGs htable => ?_, fun hdigit => ?_⟩
  · rw [decode_eq_rejected_iff, decodeParts_unprefixed hop, decodeOpcode_unlisted hlist]
  · exact decode_of_mmxRow_eq_none ⟨hFs, hGs⟩ (mmxRow_eq_none htable) mode rest
  · rw [decode_eq_rejected_iff, decodeParts_unprefixed rfl]
    exact if_neg hdigit

/-! ## Memory operands -/

theorem defaultSeg_eq (base : Base16) :
    base.defaultSeg = if base = .bp ∨ base = .bpSi ∨ base = .bpDi then .ss else .ds := by
  cases base <;> rfl

theorem defaultSeg32_eq (base : Option GpReg) :
    defaultSeg32 base = if base = some 4 ∨ base = some 5 then .ss else .ds := by
  cases base <;> simp [defaultSeg32]

/-- Settles O14: the size, the index and the segment are what every decoded operand has (`goodMem`). -/
theorem segmentOfDecodedOperand : Obligations.SegmentOfDecodedOperand := by
  intro a ovr mod rm bs rest m h
  obtain ⟨⟨hwf, hsize, hseg⟩, -⟩ := (reads_decodeMem a ovr mod rm).ok _ _ _ h
  refine ⟨hsize, hwf, fun x hx => by rw [hseg, hx, Option.getD_some], fun hnone => ?_⟩
  rw [hnone, Option.getD_none] at hseg
  cases m with
  | addr16 seg base disp => exact hseg.trans (defaultSeg_eq base)
  | addr32 seg base index disp => exact hseg.trans (defaultSeg32_eq base)

/-! ## Displacements (R113, R115, R133) -/

/-- The register sum depends on `mod` only where `rm = 6`, which is the absolute form for `mod = 0`. -/
theorem base16OfRm_one (rm : BitVec 3) : base16OfRm 1 rm = base16OfRm 2 rm := by
  revert rm; decide

theorem base16OfRm_zero {rm : BitVec 3} (h : rm ≠ 6) : base16OfRm 0 rm = base16OfRm 2 rm := by
  revert rm; decide

theorem base16OfRm_ne_abs {mod : BitVec 2} {rm : BitVec 3} (h : rm = 6 → mod ≠ 0) : base16OfRm mod rm ≠ .abs := by
  revert mod rm; decide

theorem takeDisp16_one {base : Base16} (hb : base ≠ .abs) (d : Byte) (rest : List Byte) :
    takeDisp16 1 base (d :: rest) = takeDisp16 2 base (bytes16 (d.signExtend 16) ++ rest) := by
  simp [takeDisp16, hb]

theorem takeDisp16_zero {base : Base16} (hb : base ≠ .abs) (rest : List Byte) :
    takeDisp16 0 base rest = takeDisp16 2 base (bytes16 0 ++ rest) := by
  simp [takeDisp16, hb]

theorem takeDisp32_one (b : GpReg) (d : Byte) (rest : List Byte) :
    takeDisp32 1 (some b) (d :: rest) = takeDisp32 2 (some b) (bytes32 (d.signExtend 32) ++ rest) := by
  simp [takeDisp32]

theorem takeDisp32_zero (b : GpReg) (rest : List Byte) :
    takeDisp32 0 (some b) rest = takeDisp32 2 (some b) (bytes32 0 ++ rest) := by
  simp [takeDisp32]

/-- Only `rm = 5` with `mod = 0` names no base register (R113). -/
theorem baseOfRm_some {mod : BitVec 2} {rm : BitVec 3} (h : rm = 5 → mod ≠ 0) : baseOfRm mod rm = some rm :=
  if_neg fun ⟨hrm, hmod⟩ => h hrm hmod

/-- A byte displacement after the same base and index. -/
theorem finishMem32_one (ovr : Option SegReg) (rm : BitVec 3) (index : Option SibIndex) (d : Byte) (rest : List Byte) :
    finishMem32 ovr 1 (baseOfRm 1 rm) index (d :: rest) =
      finishMem32 ovr 2 (baseOfRm 2 rm) index (bytes32 (d.signExtend 32) ++ rest) := by
  rw [baseOfRm_some (by simp), baseOfRm_some (by simp), finishMem32, finishMem32, takeDisp32_one]

/-- No displacement after the same base and index. -/
theorem finishMem32_zero {rm : BitVec 3} (hrm : rm ≠ 5) (ovr : Option SegReg) (index : Option SibIndex)
    (rest : List Byte) :
    finishMem32 ovr 0 (baseOfRm 0 rm) index rest = finishMem32 ovr 2 (baseOfRm 2 rm) index (bytes32 0 ++ rest) := by
  rw [baseOfRm_some fun h => absurd h hrm, baseOfRm_some fun h => absurd h hrm, finishMem32, finishMem32,
    takeDisp32_zero]

theorem decodeMem32_noSib {rm : BitVec 3} (hrm : rm ≠ 4) (ovr : Option SegReg) (mod : BitVec 2) (bs : List Byte) :
    decodeMem .s32 ovr mod rm bs = finishMem32 ovr mod (baseOfRm mod rm) none bs := if_neg hrm

theorem decodeMem32_sib (ovr : Option SegReg) (mod : BitVec 2) (sib : Byte) (bs : List Byte) :
    decodeMem .s32 ovr mod 4 (sib :: bs) = finishMem32 ovr mod (baseOfRm mod (rmField sib)) (indexOfSib sib) bs := rfl

theorem decodeMem16_one (ovr : Option SegReg) (rm : BitVec 3) (d : Byte) (rest : List Byte) :
    decodeMem .s16 ovr 1 rm (d :: rest) = decodeMem .s16 ovr 2 rm (bytes16 (d.signExtend 16) ++ rest) := by
  simp only [decodeMem, decodeMem16]
  rw [base16OfRm_one, takeDisp16_one (base16OfRm_ne_abs (by simp))]

theorem decodeMem16_zero {rm : BitVec 3} (hrm : rm ≠ 6) (ovr : Option SegReg) (rest : List Byte) :
    decodeMem .s16 ovr 0 rm rest = decodeMem .s16 ovr 2 rm (bytes16 0 ++ rest) := by
  simp only [decodeMem, decodeMem16]
  rw [base16OfRm_zero hrm, takeDisp16_zero (base16OfRm_ne_abs (by simp))]

/-- Settles O15: 16-bit addressing, 32-bit addressing without a SIB byte, and with one. -/
theorem displacementForms : Obligations.DisplacementForms := by
  intro ovr rm sib d rest
  refine ⟨decodeMem16_one ovr rm d rest, fun h6 => decodeMem16_zero h6 ovr rest, fun h4 => ?_, fun h4 h5 => ?_, ?_,
    fun h5 => ?_⟩
  · rw [decodeMem32_noSib h4, decodeMem32_noSib h4, finishMem32_one]
  · rw [decodeMem32_noSib h4, decodeMem32_noSib h4, finishMem32_zero h5]
  · rw [List.cons_append, decodeMem32_sib, decodeMem32_sib, finishMem32_one]
  · rw [List.cons_append, decodeMem32_sib, decodeMem32_sib, finishMem32_zero h5]

end Sys2Proof.Proofs.OpcodeMap
end

section
/-!
PROOFS. Steps and runs: what a step does with the bytes at `pc` (60_exceptions.md R330 to R332), and what every step,
and so every run, keeps.
-/

namespace Sys2Proof.Proofs.Step

open Sys2Proof Sys2Proof.Machine

/-! ## One step, by what the decoder answers -/

theorem step_of_fetched_instr {s : State} {i : Instr} {len : Nat} (hend : s.atEnd = false)
    (hf : s.fetchDecode = .instr i len) : step s = advance len (exec i s) := by
  rw [step, hend, hf]; rfl

theorem step_of_fetched_fault {s : State} {e : Fault} (hend : s.atEnd = false) (hf : s.fetchDecode = .fault e) :
    step s = .fault e := by
  rw [step, hend, hf]; rfl

theorem step_of_fetched_refused {s : State} {r : Refusal} (hend : s.atEnd = false) (hf : s.fetchDecode = .refused r) :
    step s = .refused r := by
  rw [step, hend, hf]; rfl

/-- A step runs the instruction that stands at `pc`. -/
theorem step_of_decode_instr {s : State} {bs : List Byte} {i : Instr} {len : Nat} (hend : s.atEnd = false)
    (hcode : s.codeIs bs) (hd : decode s.cfg.mode bs = .instr i len) : step s = advance len (exec i s) := by
  refine step_of_fetched_instr hend (State.fetchDecode_of_instr ?_)
  rw [State.decode_fetched hcode (by simp [hd]), hd]

/-- A rejection that the bytes at `pc` decide is the rejection of what is fetched. -/
theorem fetchDecode_of_decode_rejected {s : State} {bs : List Byte} {r : Reject} (hcode : s.codeIs bs)
    (hd : decode s.cfg.mode bs = .rejected r) (hr : r ≠ .truncated) :
    s.fetchDecode = s.rejected s.fetched.length r := by
  refine State.fetchDecode_of_rejected ?_
  rw [State.decode_fetched hcode (by simp [hd, hr]), hd]

/-- A step stops with the fault of the byte that the decision needs and that cannot be fetched. -/
theorem step_of_decode_truncated {s : State} {bs : List Byte} {e : Fault} (hend : s.atEnd = false)
    (hcode : s.codeIs bs) (hd : decode s.cfg.mode bs = .rejected .truncated) (he : s.fetchByte bs.length = .error e) :
    step s = .fault e := by
  have hall : s.fetched = bs := State.fetched_eq_of_truncated hcode hd he
  refine step_of_fetched_fault hend ?_
  rw [State.fetchDecode_of_rejected (hall.symm ▸ hd), hall, State.fetchByte_eq_error he]
  rfl

/-- Settles O16: the decoder's answer to the bytes at `pc` is its answer to what the step fetches. -/
theorem stepRunsDecodedInstruction : Obligations.StepRunsDecodedInstruction := by
  intro s bs i len hend hcode hd
  rw [step_of_decode_instr hend hcode hd]
  cases exec i s <;> rfl

/-- R312, R317: what the decoder reads from an instruction's encoding has the instruction's own meaning. -/
theorem exec_sized (i : Instr) (s : State) : exec (i.sized s.cfg.mode) s = exec i s := by
  cases i
  case pusha a => exact (Push.exec_pusha a s).symm
  case pushf a => exact (Push.exec_pushf a s).symm
  all_goals rfl

/-- Settles O17: the encoding decodes to the instruction (O1), which the step runs. -/
theorem stepRunsEncodedInstruction : Obligations.StepRunsEncodedInstruction := by
  intro s i hend hwf hcode
  have hdecode := Encoding.decodeOfEncode s.cfg.mode i [] hwf
  rw [List.append_nil] at hdecode
  rw [step_of_decode_instr hend hcode hdecode, exec_sized]
  cases exec i s <;> rfl

/-- Settles O18: each rejection has its outcome, however much more is fetched. -/
theorem stepStopsOnRejectedBytes : Obligations.StepStopsOnRejectedBytes := by
  intro s bs hend hcode
  exact ⟨fun hd => step_of_fetched_fault hend (fetchDecode_of_decode_rejected hcode hd (by decide)),
    fun hd => step_of_fetched_refused hend (fetchDecode_of_decode_rejected hcode hd (by decide)),
    fun hd => step_of_fetched_refused hend (fetchDecode_of_decode_rejected hcode hd (by decide))⟩

/-- Past the top of the code offset space no byte can be fetched (R31, R100). -/
theorem fetchByte_past_top {s : State} {k : Nat} (h : 2 ^ s.cfg.mode.bits ≤ s.pc.toNat + k) :
    s.fetchByte k = .error .fetchWrap := by
  rw [State.fetchByte, if_neg fun hk => absurd hk.1 (by omega), State.fetchFault, if_neg (by omega)]

/-- A byte the platform refuses to fetch (R62). -/
theorem fetchByte_denied {s : State} {k : Nat} (h : s.pc.toNat + k < 2 ^ s.cfg.mode.bits)
    (hdenied : accessible s.cfg (lin s.cfg .cs (s.pc + BitVec.ofNat 32 k)) 1 .fetch = false) :
    s.fetchByte k = .error (.memoryFault (lin s.cfg .cs (s.pc + BitVec.ofNat 32 k)) 1 .fetch) := by
  rw [State.fetchByte, if_neg fun hk => by simp [hdenied] at hk, State.fetchFault, if_pos h]

/-- Settles O19: each cause makes the fetch of the next byte fail, with its fault. -/
theorem stepFaultsOnUnfetchableByte : Obligations.StepFaultsOnUnfetchableByte := by
  intro s bs hend hcode hd
  exact ⟨fun htop => step_of_decode_truncated hend hcode hd (fetchByte_past_top htop),
    fun htop hdenied => step_of_decode_truncated hend hcode hd (fetchByte_denied htop hdenied)⟩

/-! ## What every step keeps -/

/-- Memory reached by admitted stores from memory reached by admitted stores. -/
theorem admittedStores_trans {c : Config} {m m' m'' : Memory} (h : AdmittedStores c m m')
    (h' : AdmittedStores c m' m'') : AdmittedStores c m m'' := by
  induction h' with
  | none => exact h
  | store v _ ha ih => exact .store v ih ha

/-- A step keeps the segment registers, the flags and the parameters, and reaches memory by admitted stores alone. -/
structure Keeps (s t : State) : Prop where
  sreg_eq : t.sreg = s.sreg
  flags_eq : t.flags = s.flags
  cfg_eq : t.cfg = s.cfg
  stores : AdmittedStores s.cfg s.mem t.mem

theorem keeps_refl (s : State) : Keeps s s := ⟨rfl, rfl, rfl, .none⟩

theorem keeps_trans {s u t : State} (h : Keeps s u) (h' : Keeps u t) : Keeps s t where
  sreg_eq := h'.sreg_eq.trans h.sreg_eq
  flags_eq := h'.flags_eq.trans h.flags_eq
  cfg_eq := h'.cfg_eq.trans h.cfg_eq
  stores := admittedStores_trans h.stores (h.cfg_eq ▸ h'.stores)

theorem step_keeps {s t : State} (h : step s = .next t) : Keeps s t := by
  rcases step_cases h with ⟨-, rfl⟩ | ⟨-, i, len, u, -, hexec, rfl⟩
  · exact keeps_refl t
  · obtain ⟨hcfg, hflags, hsreg, -, hstores⟩ := exec_ordinary hexec
    exact ⟨hsreg, hflags, hcfg, hstores⟩

/-- However long a run is, it keeps what a step keeps. -/
theorem run_keeps {n : Nat} {s t : State} (h : run n s = .next t) : Keeps s t :=
  run_induction keeps_refl (fun _ _ _ hstep hrest => keeps_trans (step_keeps hstep) hrest) n s t h

/-- Settles O23: three of the things every step keeps. -/
theorem stepKeepsSegmentsFlagsParameters : Obligations.StepKeepsSegmentsFlagsParameters := by
  intro s t h
  obtain ⟨hsreg, hflags, hcfg, -⟩ := step_keeps h
  exact ⟨hsreg, hflags, hcfg⟩

/-- Settles O24: a run reaches memory by admitted stores, of which none hits a program byte. -/
theorem runsKeepProgramBytes : Obligations.RunsKeepProgramBytes := by
  intro n s t a hrun hprogram
  exact (run_keeps hrun).stores.read_program a hprogram

/-- Settles O25: a run reaches memory by admitted stores, of which none touches the region. -/
theorem runsKeepWriteProtectedRegions : Obligations.RunsKeepWriteProtectedRegions := by
  intro n s t first size a hrun hdenied hfirst hlast
  exact (run_keeps hrun).stores.read_region hdenied (by simp [inRegion, hfirst, hlast])

/-! ## `pc` -/

theorem toNat_advancePc_pc (s : State) (len : Nat) :
    (s.advancePc len).pc.toNat = (s.pc.toNat + len) % 2 ^ s.cfg.mode.bits := by
  rw [State.advancePc_pc, BitVec.toNat_ofNat]
  refine Nat.mod_eq_of_lt (lt_of_lt_of_le (Nat.mod_lt _ (Nat.two_pow_pos _)) ?_)
  cases s.cfg.mode <;> decide

/-- Before `END_PC` a completed step moves `pc` past an instruction that the decoder answered. -/
theorem step_pc {s t : State} (hend : s.atEnd = false) (h : step s = .next t) :
    ∃ i len, decode s.cfg.mode s.fetched = .instr i len ∧
      t.pc.toNat = (s.pc.toNat + len) % 2 ^ s.cfg.mode.bits := by
  rcases step_cases h with ⟨hend', -⟩ | ⟨-, i, len, u, hfetch, hexec, rfl⟩
  · rw [hend] at hend'; cases hend'
  · have hkeep := exec_ordinary hexec
    refine ⟨i, len, State.fetchDecode_eq_instr hfetch, ?_⟩
    rw [toNat_advancePc_pc, hkeep.pc_eq, hkeep.cfg_eq]

/-- Settles O26: the length is that of a decoded instruction (O3). -/
theorem stepMovesPcForward : Obligations.StepMovesPcForward := by
  intro s t hend h
  obtain ⟨i, len, hdecode, hpc⟩ := step_pc hend h
  obtain ⟨-, hpos, hmax, -⟩ := Encoding.decodedInstructionsAreShortAndWellFormed _ _ _ _ hdecode
  exact ⟨len, hpos, hmax, hpc⟩

/-- Settles O21: admitted stores keep the canonical form, and `pc` is taken modulo the code offset space. -/
theorem stepKeepsInvariant : Obligations.StepKeepsInvariant := by
  intro s t hinv h
  have hkeep := step_keeps h
  refine ⟨hkeep.stores.wf hinv.mem_wf, ?_⟩
  cases hend : s.atEnd with
  | true =>
    rw [step, hend] at h
    cases h
    exact hinv.pc_lt
  | false =>
    obtain ⟨i, len, -, hpc⟩ := step_pc hend h
    rw [hpc, hkeep.cfg_eq]
    exact Nat.mod_lt _ (Nat.two_pow_pos _)

/-- Settles O22: the memory lists nothing, and FFF0h is below 2^16. -/
theorem resetHasInvariant : Obligations.ResetHasInvariant :=
  ⟨State.reset_wf, by decide⟩

/-! ## Ended runs -/

theorem step_atEnd {s : State} (h : s.atEnd = true) : step s = .next s := if_pos h

theorem run_atEnd {s : State} (h : s.atEnd = true) (n : Nat) : run n s = .next s := by
  induction n with
  | zero => rfl
  | succ n ih => exact (run_succ_eq_next n s s).2 ⟨s, step_atEnd h, ih⟩

/-- A run that completes goes on as the run from where it came to. -/
theorem run_add {n : Nat} {s t : State} (h : run n s = .next t) (k : Nat) : run (n + k) s = run k t := by
  induction n generalizing s with
  | zero => cases h; rw [Nat.zero_add]
  | succ n ih =>
    obtain ⟨u, hstep, hrest⟩ := (run_succ_eq_next n s t).1 h
    rw [Nat.add_right_comm, run, hstep]
    exact ih hrest

/-- Settles O20: the rest of the run starts, and stays, at `END_PC`. -/
theorem endedRunsStay : Obligations.EndedRunsStay := by
  rintro s t n m ⟨hrun, hend⟩ hle
  obtain ⟨k, rfl⟩ := Nat.exists_eq_add_of_le hle
  rw [run_add hrun, run_atEnd hend]

end Sys2Proof.Proofs.Step
end

section
/-!
PROOFS. The shapes of meaning, said once over the 88 instructions: a written MMX register, EMMS, a store, or a push.
What can stop an instruction (60_exceptions.md R330, R331) and what it can change (10_state.md) follow by shape.
-/

namespace Sys2Proof.Proofs.Meaning

open Sys2Proof Sys2Proof.Machine

/-! ## Faults that do not depend on data (R331) -/

/-- An operation whose faults depend on the general registers and the parameters alone. -/
def FaultsByAddress {α : Type} (op : State → Except Fault α) : Prop :=
  ∀ (s s' : State) (e : Fault), s.r32 = s'.r32 → s.cfg = s'.cfg → op s = .error e → op s' = .error e

theorem getR32_congr {s s' : State} (hr : s.r32 = s'.r32) (k : GpReg) : s.getR32 k = s'.getR32 k := by
  simp only [State.getR32, hr]

theorem getR16_congr {s s' : State} (hr : s.r32 = s'.r32) (k : GpReg) : s.getR16 k = s'.getR16 k := by
  simp only [State.getR16, getR32_congr hr]

theorem effAddr_congr {s s' : State} (hr : s.r32 = s'.r32) (m : MemOp) : s.effAddr m = s'.effAddr m := by
  cases m with
  | addr16 seg base disp => cases base <;> simp only [State.effAddr, State.sum16, getR16_congr hr]
  | addr32 seg base index disp =>
    cases base <;> cases index <;> simp only [State.effAddr, State.base32, State.index32, getR32_congr hr]

theorem sp_congr {s s' : State} (hr : s.r32 = s'.r32) (w : Size) : s.sp w = s'.sp w := by
  cases w <;> simp only [State.sp, getR16_congr hr, getR32_congr hr]

theorem faultsByAddress_ok {α : Type} (v : State → α) : FaultsByAddress fun s => .ok (v s) :=
  fun _ _ _ _ _ h => by cases h

/-- A second operation whose faults do not depend on the first one's value either. -/
theorem faultsByAddress_bind {α β : Type} {op : State → Except Fault α} (hop : FaultsByAddress op)
    {k : State → α → Except Fault β}
    (hk : ∀ s s' v v' e, s.r32 = s'.r32 → s.cfg = s'.cfg → k s v = .error e → k s' v' = .error e) :
    FaultsByAddress fun s => (op s).bind (k s) := by
  intro s s' e hr hc h
  dsimp only at h ⊢
  cases hs : op s with
  | error e' =>
    rw [hs] at h
    rw [hop s s' e' hr hc hs]
    exact h
  | ok v =>
    cases hs' : op s' with
    | error e' => rw [hop s' s e' hr.symm hc.symm hs'] at hs; cases hs
    | ok v' =>
      rw [hs] at h
      exact hk s s' v v' e hr hc h

theorem faultsByAddress_map {α β : Type} {op : State → Except Fault α} (hop : FaultsByAddress op) (f : State → α → β) :
    FaultsByAddress fun s => (op s).map (f s) := by
  have hmap : (fun s => (op s).map (f s)) = fun s => (op s).bind fun v => .ok (f s v) := by
    funext s; cases op s <;> rfl
  rw [hmap]
  exact faultsByAddress_bind hop fun _ _ _ _ _ _ _ h => by cases h

theorem faultsByAddress_loadOp (m : MemOp) (n : Nat) : FaultsByAddress fun s => s.loadOp m n := by
  intro s s' e hr hc h
  have hstop := (State.load_eq_error ..).1 h
  rw [effAddr_congr hr, hc] at hstop
  exact (State.load_eq_error ..).2 hstop

theorem faultsByAddress_src64 (src : RmOp) : FaultsByAddress fun s => s.src64 src := by
  cases src with
  | reg r => exact faultsByAddress_ok _
  | mem m => exact faultsByAddress_loadOp m 8

theorem faultsByAddress_src32 (src : RmOp) : FaultsByAddress fun s => s.src32 src := by
  cases src with
  | reg r => exact faultsByAddress_ok _
  | mem m => exact faultsByAddress_loadOp m 4

theorem faultsByAddress_src16 (src : RmOp) : FaultsByAddress fun s => s.src16 src := by
  cases src with
  | reg r => exact faultsByAddress_ok _
  | mem m => exact faultsByAddress_loadOp m 2

theorem faultsByAddress_storeOp {w : Nat} (m : MemOp) (n : Nat) (v : State → BitVec w) :
    FaultsByAddress fun s => s.store m.seg m.size (s.effAddr m) n (v s) := by
  intro s s' e hr hc h
  have hstop := (State.store_eq_error ..).1 h
  rw [effAddr_congr hr, hc] at hstop
  exact (State.store_eq_error ..).2 hstop

theorem faultsByAddress_dst32 (v : State → BitVec 32) (dst : RmOp) : FaultsByAddress fun s => s.dst32 (v s) dst := by
  cases dst with
  | reg r => exact faultsByAddress_ok _
  | mem m => exact faultsByAddress_storeOp m 4 v

theorem faultsByAddress_dst64 (v : State → BitVec 64) (dst : RmOp) : FaultsByAddress fun s => s.dst64 (v s) dst := by
  cases dst with
  | reg r => exact faultsByAddress_ok _
  | mem m => exact faultsByAddress_storeOp m 8 v

theorem writeMm_eq_map (s : State) (d : MmReg) (f : BitVec 64 → BitVec 64) (r : Except Fault (BitVec 64)) :
    s.writeMm d f r = r.map fun v => (s.setMm d (f v)).mmxDone := by
  cases r <;> rfl

theorem faultsByAddress_writeMm {value : State → Except Fault (BitVec 64)} (hv : FaultsByAddress value) (d : MmReg)
    (f : State → BitVec 64 → BitVec 64) : FaultsByAddress fun s => s.writeMm d (f s) (value s) := by
  simp only [writeMm_eq_map]
  exact faultsByAddress_map hv _

/-! ## Pushes -/

theorem push_eq_error {w : Nat} {s : State} {a : Size} {n : Nat} {v : BitVec w} {e : Fault} :
    s.push a n v = .error e ↔ admission s.cfg .ss (stackSize s.cfg a) (s.slot a n) n .write = some e := by
  rw [State.push_eq]; split <;> simp_all

theorem push_eq_ok {w : Nat} {s t : State} {a : Size} {n : Nat} {v : BitVec w} (h : s.push a n v = .ok t) :
    t = (s.put .ss (s.slot a n) n v).setSp (stackSize s.cfg a) (s.slot a n) := by
  rw [State.push_eq] at h
  split at h
  · cases h
  · cases h; rfl

theorem slot_congr {s s' : State} (hr : s.r32 = s'.r32) (hc : s.cfg = s'.cfg) (a : Size) (n : Nat) :
    s.slot a n = s'.slot a n := by
  simp only [State.slot, hc, sp_congr hr]

theorem getR32_setSp_of_ne (s : State) (w : Size) (v : BitVec 32) {k : GpReg} (hk : k ≠ 4) :
    (s.setSp w v).getR32 k = s.getR32 k := by
  rw [State.getR32_setSp, if_neg hk.symm]

/-- An operation of the PUSH family: its faults do not depend on data, and it changes memory, ESP and the counter of
free values alone. -/
structure PushLike (op : State → Except Fault State) : Prop where
  faults : FaultsByAddress op
  mm_eq : ∀ s t, op s = .ok t → t.mm = s.mm
  ftw_eq : ∀ s t, op s = .ok t → t.ftw = s.ftw
  r32_eq : ∀ s t, op s = .ok t → ∀ k, k ≠ 4 → t.getR32 k = s.getR32 k

/-- A push of a value that may fault when it is read. -/
theorem pushLike_bind {w : Nat} {value : State → Except Fault (BitVec w)} (hv : FaultsByAddress value) (a : Size)
    (n : Nat) : PushLike fun s => (value s).bind fun v => s.push a n v := by
  have hpushed : ∀ s t, ((value s).bind fun v => s.push a n v) = .ok t →
      ∃ v : BitVec w, t = (s.put .ss (s.slot a n) n v).setSp (stackSize s.cfg a) (s.slot a n) := by
    intro s t h
    cases hs : value s with
    | error e => rw [hs] at h; cases h
    | ok v => rw [hs] at h; exact ⟨v, push_eq_ok h⟩
  refine ⟨faultsByAddress_bind hv fun s s' v v' e hr hc h => ?_, fun s t h => ?_, fun s t h => ?_, fun s t h k hk => ?_⟩
  · rw [push_eq_error] at h ⊢
    rwa [slot_congr hr hc, hc] at h
  · obtain ⟨v, rfl⟩ := hpushed s t h
    simp
  · obtain ⟨v, rfl⟩ := hpushed s t h
    simp
  · obtain ⟨v, rfl⟩ := hpushed s t h
    rw [getR32_setSp_of_ne _ _ _ hk, State.getR32_put]

theorem pushLike_push {w : Nat} (a : Size) (n : Nat) (v : State → BitVec w) : PushLike fun s => s.push a n (v s) :=
  pushLike_bind (faultsByAddress_ok v) a n

theorem pushLike_pushSrc16 (a : Size) (src : RmOp) : PushLike fun s => s.pushSrc16 a (s.src16 src) := by
  have hbind : (fun s : State => s.pushSrc16 a (s.src16 src)) = fun s => (s.src16 src).bind fun v => s.push a 2 v := by
    funext s; cases s.src16 src <;> rfl
  rw [hbind]
  exact pushLike_bind (faultsByAddress_src16 src) a 2

theorem pushLike_pushSrc32 (a : Size) (src : RmOp) : PushLike fun s => s.pushSrc32 a (s.src32 src) := by
  have hbind : (fun s : State => s.pushSrc32 a (s.src32 src)) = fun s => (s.src32 src).bind fun v => s.push a 4 v := by
    funext s; cases s.src32 src <;> rfl
  rw [hbind]
  exact pushLike_bind (faultsByAddress_src32 src) a 4

/-- Drawing a free value first changes no register, and no fault depends on the counter (R297). -/
theorem pushLike_pushSeg (x : SegReg) (o a : Size) : PushLike fun s => s.pushSeg x o a := by
  cases o with
  | s16 => exact pushLike_push a 2 fun s => s.getSreg x
  | s32 =>
    obtain ⟨hfaults, hmm, hftw, hr32⟩ :=
      pushLike_push a 4 fun s => Config.freeUpperWord (s.draws - 1) ++ s.getSreg x
    exact ⟨fun s s' e => hfaults { s with draws := s.draws + 1 } { s' with draws := s'.draws + 1 } e,
      fun s t => hmm { s with draws := s.draws + 1 } t, fun s t => hftw { s with draws := s.draws + 1 } t,
      fun s t => hr32 { s with draws := s.draws + 1 } t⟩

theorem pushAll_eq_error {w : Nat} {s : State} {a : Size} {n : Nat} {v : GpReg → BitVec w} {e : Fault} :
    s.pushAll a n v = .error e ↔ s.admitAll (stackSize s.cfg a) (s.sp (stackSize s.cfg a)) n = some e := by
  unfold State.pushAll
  cases hall : s.admitAll (stackSize s.cfg a) (s.sp (stackSize s.cfg a)) n <;> simp [hall]

theorem pushAll_eq_ok {w : Nat} {s t : State} {a : Size} {n : Nat} {v : GpReg → BitVec w}
    (h : s.pushAll a n v = .ok t) : ∃ m top, t = { s with mem := m }.setSp (stackSize s.cfg a) top := by
  unfold State.pushAll at h
  cases hall : s.admitAll (stackSize s.cfg a) (s.sp (stackSize s.cfg a)) n with
  | some e => simp [hall] at h
  | none =>
    simp only [hall, Except.ok.injEq] at h
    exact ⟨_, _, h.symm.trans (congrArg (fun u : State => u.setSp _ _) (State.putAll_eq ..))⟩

theorem admitAll_congr {s s' : State} (hc : s.cfg = s'.cfg) (w : Size) (top : BitVec 32) (n : Nat) :
    s.admitAll w top n = s'.admitAll w top n := by
  simp only [State.admitAll, hc]

theorem pushLike_pushAll {w : Nat} (a : Size) (n : Nat) (v : State → GpReg → BitVec w) :
    PushLike fun s => s.pushAll a n (v s) := by
  refine ⟨fun s s' e hr hc h => ?_, fun s t h => ?_, fun s t h => ?_, fun s t h k hk => ?_⟩
  · rw [pushAll_eq_error] at h ⊢
    rwa [hc, sp_congr hr, admitAll_congr hc] at h
  · obtain ⟨m, top, rfl⟩ := pushAll_eq_ok h
    simp
  · obtain ⟨m, top, rfl⟩ := pushAll_eq_ok h
    simp
  · obtain ⟨m, top, rfl⟩ := pushAll_eq_ok h
    rw [getR32_setSp_of_ne _ _ _ hk]
    rfl

/-- A push that depends on the mode (R312, R317). -/
theorem pushLike_byMode {op op' : State → Except Fault State} (h : PushLike op) (h' : PushLike op') :
    PushLike fun s => match s.cfg.mode with | .s16 => op s | .s32 => op' s := by
  refine ⟨fun s s' e hr hc => ?_, fun s t => ?_, fun s t => ?_, fun s t => ?_⟩
  · rw [← hc]
    cases s.cfg.mode
    · exact h.faults s s' e hr hc
    · exact h'.faults s s' e hr hc
  all_goals cases s.cfg.mode
  · exact h.mm_eq s t
  · exact h'.mm_eq s t
  · exact h.ftw_eq s t
  · exact h'.ftw_eq s t
  · exact h.r32_eq s t
  · exact h'.r32_eq s t

/-! ## The shape of every meaning -/

/-- What the meaning of an instruction is built of, the same in every state. -/
inductive Shape (i : Instr) : Prop
  /-- An MMX instruction that writes an MMX register from a value it reads (R119). -/
  | mmx (d : MmReg) (f : State → BitVec 64 → BitVec 64) (value : State → Except Fault (BitVec 64))
      (hset : i.set = .mmx) (hne : i ≠ .emms) (hv : FaultsByAddress value)
      (h : ∀ s, exec i s = s.requireMmx (s.writeMm d (f s) (value s)))
  /-- A Cyrix instruction, each of which writes an MMX register from a value it reads (43_cyrix.md). -/
  | cyrix (d : MmReg) (f : State → BitVec 64 → BitVec 64) (value : State → Except Fault (BitVec 64))
      (hset : i.set = .cyrix) (hne : i ≠ .emms) (hv : FaultsByAddress value)
      (h : ∀ s, exec i s = s.requireCyrix (s.writeMm d (f s) (value s)))
  | emms (hi : i = .emms)
  | movdStore (dst : RmOp) (src : MmReg) (hi : i = .movdStore dst src)
  | movqStore (dst : RmOp) (src : MmReg) (hi : i = .movqStore dst src)
  | push (op : State → Except Fault State) (hset : i.set = .base) (hop : PushLike op)
      (h : ∀ s, exec i s = outcome (op s))

theorem shape_mmxShiftImm {i : Instr} {d : MmReg} {c : BitVec 8} (f : BitVec 64 → Nat → BitVec 64)
    (hset : i.set = .mmx) (hne : i ≠ .emms) (h : ∀ s, exec i s = mmxShiftImm f d c s) : Shape i :=
  .mmx d (fun s _ => f (s.getMm d) c.toNat) (fun _ => .ok 0) hset hne (faultsByAddress_ok _) h

/-- Every instruction of the opcode map has one of these shapes. -/
theorem exec_shape (i : Instr) : Shape i := by
  cases i
  case emms => exact .emms rfl
  case movdStore dst src => exact .movdStore dst src rfl
  case movqStore dst src => exact .movqStore dst src rfl
  case movdLoad d src =>
    exact .mmx d (fun _ => id) _ rfl nofun
      (faultsByAddress_map (faultsByAddress_src32 src) fun _ v => v.setWidth 64) fun _ => rfl
  case psrlwImm | psrawImm | psllwImm | psrldImm | psradImm | pslldImm | psrlqImm | psllqImm =>
    exact shape_mmxShiftImm _ rfl nofun fun _ => rfl
  case paveb | paddsiw | pmagw | psubsiw | pmulhrw | pmulhriw =>
    exact .cyrix _ _ _ rfl nofun (faultsByAddress_src64 _) fun _ => rfl
  case pdistib | pmvzb | pmvnzb | pmvlzb | pmvgezb | pmachriw =>
    exact .cyrix _ _ _ rfl nofun (faultsByAddress_loadOp _ 8) fun _ => rfl
  case pushEs | pushCs | pushSs | pushDs | pushFs | pushGs =>
    exact .push _ rfl (pushLike_pushSeg _ _ _) fun _ => rfl
  case pushReg16 a r => exact .push _ rfl (pushLike_push a 2 fun s => s.getR16 r) fun _ => rfl
  case pushReg32 a r => exact .push _ rfl (pushLike_push a 4 fun s => s.getR32 r) fun _ => rfl
  case pushImm16 a imm => exact .push _ rfl (pushLike_push a 2 fun _ => imm) fun _ => rfl
  case pushImm32 a imm => exact .push _ rfl (pushLike_push a 4 fun _ => imm) fun _ => rfl
  case pushImm8 o a imm =>
    exact .push _ rfl (pushLike_push a o.bytes fun _ => imm.signExtend o.bits) fun _ => rfl
  case pushfw a => exact .push _ rfl (pushLike_push a 2 State.flagsImage16) fun _ => rfl
  case pushfd a => exact .push _ rfl (pushLike_push a 4 State.flagsImage32) fun _ => rfl
  case pushf a =>
    refine .push _ rfl
      (pushLike_byMode (pushLike_push a 2 State.flagsImage16) (pushLike_push a 4 State.flagsImage32)) fun s => ?_
    simp only [exec, execPushf]
    cases s.cfg.mode <;> rfl
  case pushaw a => exact .push _ rfl (pushLike_pushAll a 2 State.getR16) fun _ => rfl
  case pushad a => exact .push _ rfl (pushLike_pushAll a 4 State.getR32) fun _ => rfl
  case pusha a =>
    refine .push _ rfl
      (pushLike_byMode (pushLike_pushAll a 2 State.getR16) (pushLike_pushAll a 4 State.getR32)) fun s => ?_
    simp only [exec, execPusha]
    cases s.cfg.mode <;> rfl
  case pushRm16 a src => exact .push _ rfl (pushLike_pushSrc16 a src) fun _ => rfl
  case pushRm32 a src => exact .push _ rfl (pushLike_pushSrc32 a src) fun _ => rfl
  all_goals exact .mmx _ _ _ rfl nofun (faultsByAddress_src64 _) fun _ => rfl

/-! ## What stops an instruction -/

theorem requireMmx_fault_congr {s s' : State} (hc : s.cfg = s'.cfg) {r r' : Except Fault State} {e : Fault}
    (hr : r = .error e → r' = .error e) (h : s.requireMmx r = .fault e) : s'.requireMmx r' = .fault e := by
  cases hm : s.cfg.hasMmx with
  | false =>
    rw [State.requireMmx_off _ _ hm] at h
    rw [State.requireMmx_off _ _ (hc ▸ hm), h]
  | true =>
    rw [State.requireMmx_on _ _ hm, outcome_eq_fault] at h
    rw [State.requireMmx_on _ _ (hc ▸ hm), hr h]
    rfl

theorem requireCyrix_fault_congr {s s' : State} (hc : s.cfg = s'.cfg) {r r' : Except Fault State} {e : Fault}
    (hr : r = .error e → r' = .error e) (h : s.requireCyrix r = .fault e) : s'.requireCyrix r' = .fault e := by
  by_cases hm : Config.cyrixOn s.cfg
  · rw [State.requireCyrix_on _ _ hm, outcome_eq_fault] at h
    rw [State.requireCyrix_on _ _ (hc ▸ hm), hr h]
    rfl
  · rw [State.requireCyrix_off _ _ hm] at h
    rw [State.requireCyrix_off _ _ (hc ▸ hm), h]

/-- Settles O27: each shape reads, and is admitted, at addresses that the general registers and the parameters give. -/
theorem faultsDoNotDependOnData : Obligations.FaultsDoNotDependOnData := by
  intro i s s' e hr hc h
  cases exec_shape i with
  | mmx d f value _ _ hv hexec =>
    rw [hexec] at h ⊢
    exact requireMmx_fault_congr hc (faultsByAddress_writeMm hv d f s s' e hr hc) h
  | cyrix d f value _ _ hv hexec =>
    rw [hexec] at h ⊢
    exact requireCyrix_fault_congr hc (faultsByAddress_writeMm hv d f s s' e hr hc) h
  | emms hi =>
    subst hi
    exact requireMmx_fault_congr hc (faultsByAddress_ok (fun s : State => { s with ftw := 0xFFFF }) s s' e hr hc) h
  | movdStore dst src hi =>
    subst hi
    exact requireMmx_fault_congr hc (faultsByAddress_map
      (faultsByAddress_dst32 (fun s => (s.getMm src).extractLsb' 0 32) dst) (fun _ => State.mmxDone) s s' e hr hc) h
  | movqStore dst src hi =>
    subst hi
    exact requireMmx_fault_congr hc (faultsByAddress_map
      (faultsByAddress_dst64 (fun s => s.getMm src) dst) (fun _ => State.mmxDone) s s' e hr hc) h
  | push op _ hop hexec =>
    rw [hexec, outcome_eq_fault] at h ⊢
    exact hop.faults s s' e hr hc h

/-- Settles O28: no shape of meaning has a refusal among its outcomes. -/
theorem instructionsAreNeverRefused : Obligations.InstructionsAreNeverRefused := by
  intro i s r
  cases exec_shape i with
  | mmx d f value _ _ _ hexec => rw [hexec]; exact State.requireMmx_ne_refused _ _ _
  | cyrix d f value _ _ _ hexec => rw [hexec]; exact State.requireCyrix_ne_refused _ _ _
  | emms hi => subst hi; exact State.requireMmx_ne_refused _ _ _
  | movdStore dst src hi => subst hi; exact State.requireMmx_ne_refused _ _ _
  | movqStore dst src hi => subst hi; exact State.requireMmx_ne_refused _ _ _
  | push op _ _ hexec => rw [hexec]; exact outcome_ne_refused _ _

/-! ## What a completed instruction changes -/

/-- The next states an instruction can give. -/
inductive Effect (i : Instr) (s : State) : State → Prop
  /-- One MMX register is written. -/
  | mm (d : MmReg) (v : BitVec 64) (hset : i.set ≠ .base) (hne : i ≠ .emms) : Effect i s (s.setMm d v).mmxDone
  | emms (hi : i = .emms) : Effect i s { s with ftw := 0xFFFF }
  /-- MOVD to a general register. -/
  | r32 (r : GpReg) (v : BitVec 32) (m : MmReg) (hi : i = .movdStore (.reg r) m) : Effect i s (s.setR32 r v).mmxDone
  /-- MOVD or MOVQ to memory. -/
  | stored {w : Nat} (x : SegReg) (off : BitVec 32) (n : Nat) (v : BitVec w)
      (hi : (∃ m k, i = .movdStore (.mem m) k) ∨ ∃ m k, i = .movqStore (.mem m) k) :
      Effect i s (s.put x off n v).mmxDone
  | pushed (t : State) (hset : i.set = .base) (hmm : t.mm = s.mm) (hftw : t.ftw = s.ftw)
      (hr32 : ∀ k, k ≠ 4 → t.getR32 k = s.getR32 k) : Effect i s t

theorem map_eq_ok {α β : Type} {r : Except Fault α} {f : α → β} {b : β} (h : r.map f = .ok b) :
    ∃ a, r = .ok a ∧ b = f a := by
  cases r with
  | error e => cases h
  | ok a => cases h; exact ⟨a, rfl, rfl⟩

theorem effect_movdStore {dst : RmOp} {src : MmReg} {s t : State} (h : exec (.movdStore dst src) s = .next t) :
    Effect (.movdStore dst src) s t := by
  obtain ⟨-, hok⟩ := (State.requireMmx_eq_next ..).1 h
  obtain ⟨u, hu, rfl⟩ := map_eq_ok hok
  cases dst with
  | reg r => cases hu; exact .r32 r _ src rfl
  | mem m =>
    obtain ⟨-, rfl⟩ := (State.store_eq_ok ..).1 hu
    exact .stored _ _ _ _ (.inl ⟨m, src, rfl⟩)

theorem effect_movqStore {dst : RmOp} {src : MmReg} {s t : State} (h : exec (.movqStore dst src) s = .next t) :
    Effect (.movqStore dst src) s t := by
  obtain ⟨-, hok⟩ := (State.requireMmx_eq_next ..).1 h
  obtain ⟨u, hu, rfl⟩ := map_eq_ok hok
  cases dst with
  | reg r => cases hu; exact .mm r _ nofun nofun
  | mem m =>
    obtain ⟨-, rfl⟩ := (State.store_eq_ok ..).1 hu
    exact .stored _ _ _ _ (.inr ⟨m, src, rfl⟩)

theorem exec_effect {i : Instr} {s t : State} (h : exec i s = .next t) : Effect i s t := by
  cases exec_shape i with
  | mmx d f value hset hne _ hexec =>
    rw [hexec, State.requireMmx_eq_next, State.writeMm_eq_ok] at h
    obtain ⟨-, v, -, rfl⟩ := h
    exact .mm d _ (by simp [hset]) hne
  | cyrix d f value hset hne _ hexec =>
    rw [hexec, State.requireCyrix_eq_next, State.writeMm_eq_ok] at h
    obtain ⟨-, v, -, rfl⟩ := h
    exact .mm d _ (by simp [hset]) hne
  | emms hi =>
    subst hi
    obtain ⟨-, hok⟩ := (State.requireMmx_eq_next ..).1 h
    cases hok
    exact .emms rfl
  | movdStore dst src hi => subst hi; exact effect_movdStore h
  | movqStore dst src hi => subst hi; exact effect_movqStore h
  | push op hset hop hexec =>
    rw [hexec, outcome_eq_next] at h
    exact .pushed t hset (hop.mm_eq s t h) (hop.ftw_eq s t h) (hop.r32_eq s t h)

/-- An MMX register that differs is the one an instruction of the MMX or Cyrix set wrote. -/
theorem effect_mm {i : Instr} {s t : State} (h : Effect i s t) :
    (∀ k, t.getMm k = s.getMm k) ∨ i.set ≠ .base ∧ ∃ d, ∀ k, k ≠ d → t.getMm k = s.getMm k := by
  cases h with
  | mm d v hset _ =>
    refine .inr ⟨hset, d, fun k hk => ?_⟩
    rw [State.getMm_mmxDone, State.getMm_setMm, if_neg hk.symm]
  | emms => exact .inl fun _ => rfl
  | r32 | stored => exact .inl fun k => by simp
  | pushed _ _ hmm => exact .inl fun k => by simp only [State.getMm, hmm]

theorem effect_r32 {i : Instr} {s t : State} (h : Effect i s t) {k : GpReg} (hk : t.getR32 k ≠ s.getR32 k) :
    (i.set = .base ∧ k = 4) ∨ ∃ m, i = .movdStore (.reg k) m := by
  cases h with
  | mm | stored => simp at hk
  | emms => exact absurd rfl hk
  | r32 r v m hi =>
    by_cases hrk : r = k
    · exact .inr ⟨m, hrk ▸ hi⟩
    · simp [hrk] at hk
  | pushed _ hset _ _ hr32 => exact .inl ⟨hset, by_contra fun h4 => hk (hr32 k h4)⟩

theorem effect_mem {i : Instr} {s t : State} (h : Effect i s t) {a : Nat} (ha : t.mem.read a ≠ s.mem.read a) :
    i.set = .base ∨ (∃ m k, i = .movdStore (.mem m) k) ∨ ∃ m k, i = .movqStore (.mem m) k := by
  cases h with
  | mm | r32 => simp at ha
  | emms => exact absurd rfl ha
  | stored _ _ _ _ hi => exact .inr hi
  | pushed _ hset => exact .inl hset

/-- Settles O29: by the effect, register file by register file and memory. -/
theorem registersWrittenOnlyAsListed : Obligations.RegistersWrittenOnlyAsListed := by
  intro i s t h
  have heffect := exec_effect h
  refine ⟨fun k k' hk hk' => ?_, fun k hk => ?_, fun k hk => effect_r32 heffect hk, fun a ha => effect_mem heffect ha⟩
  · rcases effect_mm heffect with hsame | ⟨-, d, hd⟩
    · exact absurd (hsame k) hk
    · exact (not_imp_comm.1 (hd k) hk).trans (not_imp_comm.1 (hd k') hk').symm
  · rcases effect_mm heffect with hsame | ⟨hset, -⟩
    · exact absurd (hsame k) hk
    · exact hset

/-- Settles O30: EMMS, the pushes and the rest are told apart by the effect. -/
theorem tagWordRule : Obligations.TagWordRule := by
  intro i s t h
  cases exec_effect h with
  | mm d v hset hne => exact ⟨fun hi => absurd hi hne, fun _ _ => State.mmxDone_ftw _, fun hb => absurd hb hset⟩
  | emms hi => exact ⟨fun _ => rfl, fun hne => absurd hi hne, fun hb => absurd hb (hi ▸ nofun)⟩
  | r32 r v m hi =>
    subst hi
    exact ⟨nofun, fun _ _ => State.mmxDone_ftw _, nofun⟩
  | stored x off n v hi =>
    have hmmx : i.set = .mmx ∧ i ≠ .emms := by
      rcases hi with ⟨m, k, rfl⟩ | ⟨m, k, rfl⟩ <;> exact ⟨rfl, nofun⟩
    obtain ⟨hset, hne⟩ := hmmx
    exact ⟨fun hi => absurd hi hne, fun _ _ => State.mmxDone_ftw _, fun hb => absurd (hset.symm.trans hb) nofun⟩
  | pushed _ hset _ hftw =>
    exact ⟨fun hi => absurd hset (hi ▸ nofun), fun _ hb => absurd hset hb, fun _ => hftw⟩

end Sys2Proof.Proofs.Meaning
end

section
/-!
PROOFS. The operations under the instructions: admission and the program's bytes (20_memory.md R62, R75), loads and
stores (R63 to R65), operands (30_encoding.md R113 to R118), and the stack slot (48_push.md R290, R291).
-/

namespace Sys2Proof.Proofs.Operations

open Sys2Proof Sys2Proof.Machine

/-! ## Admission -/

/-- The first program byte of an access (R331). -/
theorem programHit_eq_some {c : Config} {a : BitVec 32} {n j : Nat} (hj : j < n)
    (hhit : isProgramByte c (a + BitVec.ofNat 32 j) = true)
    (hbefore : ∀ i < j, isProgramByte c (a + BitVec.ofNat 32 i) = false) :
    programHit c a n = some (a + BitVec.ofNat 32 j) := by
  have hfirst : (List.range n).find? (isProgramByte c ∘ fun j => a + BitVec.ofNat 32 j) = some j := by
    rw [List.find?_range_eq_some]
    exact ⟨hhit, List.mem_range.2 hj, fun i hi => by simp [hbefore i hi]⟩
  rw [programHit, List.find?_map, hfirst]
  rfl

theorem programHit_eq_none {c : Config} {a : BitVec 32} {n : Nat}
    (h : ∀ j < n, isProgramByte c (a + BitVec.ofNat 32 j) = false) : programHit c a n = none := by
  rw [programHit, List.find?_eq_none]
  intro b hb
  obtain ⟨j, hj, rfl⟩ := List.mem_map.1 hb
  simp [h j (List.mem_range.1 hj)]

theorem admission_of_wrap {c : Config} {x : SegReg} {w : Size} {off : BitVec 32} {n : Nat}
    (h : 2 ^ w.bits < off.toNat + n) (k : AccessKind) : admission c x w off n k = some (.offsetWrap x off n) :=
  if_pos h

theorem admission_of_denied {c : Config} {x : SegReg} {w : Size} {off : BitVec 32} {n : Nat} {k : AccessKind}
    (h : off.toNat + n ≤ 2 ^ w.bits) (hacc : accessible c (lin c x off) n k = false) :
    admission c x w off n k = some (.memoryFault (lin c x off) n k) := by
  rw [admission, if_neg (by omega), hacc]
  rfl

theorem admission_of_read {c : Config} {x : SegReg} {w : Size} {off : BitVec 32} {n : Nat} {k : AccessKind}
    (h : off.toNat + n ≤ 2 ^ w.bits) (hacc : accessible c (lin c x off) n k = true) (hk : k ≠ .write) :
    admission c x w off n k = none := by
  rw [admission, if_neg (by omega), if_pos hacc, if_neg hk]

theorem admission_of_write {c : Config} {x : SegReg} {w : Size} {off : BitVec 32} {n : Nat}
    (h : off.toNat + n ≤ 2 ^ w.bits) (hacc : accessible c (lin c x off) n .write = true) :
    admission c x w off n .write = (programHit c (lin c x off) n).map .codeWrite := by
  rw [admission, if_neg (by omega), if_pos hacc, if_pos rfl]

/-- Settles O31: the causes in the order admission asks for them. -/
theorem admissionOrder : Obligations.AdmissionOrder := by
  intro c x w off n k
  refine ⟨fun hwrap => admission_of_wrap hwrap k, fun h => ⟨admission_of_denied h, fun hacc =>
    ⟨admission_of_read h hacc, ?_⟩⟩⟩
  rintro rfl
  rw [admission_of_write h hacc]
  refine ⟨fun j hj hhit hbefore => ?_, fun hnone => ?_⟩
  · rw [programHit_eq_some hj hhit hbefore]
    rfl
  · rw [programHit_eq_none hnone]
    rfl

/-! ## The program's bytes -/

/-- Without wrapping, the cyclic count from the first instruction is the order of the offsets (R75, log entry 8). -/
theorem codeOffset_sub_lt_iff {mode : Size} {first endPc p : BitVec 32} (hle : first.toNat ≤ endPc.toNat)
    (hend : endPc.toNat < 2 ^ mode.bits) (hp : p.toNat < 2 ^ mode.bits) :
    codeOffset mode (p - first) < codeOffset mode (endPc - first) ↔ first.toNat ≤ p.toNat ∧ p.toNat < endPc.toNat := by
  have hp32 := p.isLt
  simp only [codeOffset, BitVec.toNat_sub]
  cases mode <;> simp only [Size.bits] at hend hp ⊢ <;> omega

theorem eq_lin_cs_iff {c : Config} {a p : BitVec 32} : a = lin c .cs p ↔ p = a - c.segBase.cs := by
  constructor
  · rintro rfl
    rw [lin, SegMap.get, BitVec.add_comm, BitVec.add_sub_cancel]
  · rintro rfl
    rw [lin, SegMap.get, BitVec.add_comm, BitVec.sub_add_cancel]

/-- Settles O32: the one offset whose linear address the byte has is its distance from the base of CS. -/
theorem programBytes : Obligations.ProgramBytes := by
  intro c a
  refine ⟨fun hnone => by rw [isProgramByte, hnone], fun r hr hle hend => ?_⟩
  have hbyte : isProgramByte c a = true ↔ (a - c.segBase.cs).toNat < 2 ^ c.mode.bits ∧
      codeOffset c.mode (a - c.segBase.cs - r.first) < codeOffset c.mode (r.endPc - r.first) := by
    simp [isProgramByte, hr]
  rw [hbyte]
  constructor
  · rintro ⟨hp, hcount⟩
    obtain ⟨h1, h2⟩ := (codeOffset_sub_lt_iff hle hend hp).1 hcount
    exact ⟨_, h1, h2, eq_lin_cs_iff.2 rfl⟩
  · rintro ⟨p, h1, h2, ha⟩
    obtain rfl := eq_lin_cs_iff.1 ha
    have hp := lt_trans h2 hend
    exact ⟨hp, (codeOffset_sub_lt_iff hle hend hp).2 ⟨h1, h2⟩⟩

/-! ## Loads and stores -/

/-- Bytes of a part of a value that begins at byte `j`. -/
theorem byteOf_extractLsb' {w : Nat} (v : BitVec w) (j n k : Nat) (hk : k < n) :
    byteOf (v.extractLsb' (8 * j) (8 * n)) k = byteOf v (j + k) := by
  refine BitVec.eq_of_getLsbD_eq fun i hi => ?_
  have hin : 8 * k + i < 8 * n := by omega
  simp only [byteOf, BitVec.getLsbD_extractLsb', hi, hin, decide_true, Bool.true_and]
  congr 1
  omega

/-- A load inside a store gives the bytes of that part of the value (R65). -/
theorem readLE_writeLE {w : Nat} (m : Memory) (a : BitVec 32) (v : BitVec w) {n j l : Nat} (hn : n ≤ 2 ^ 32)
    (h : j + l ≤ n) : (m.writeLE a v n).readLE (a + BitVec.ofNat 32 j) l = v.extractLsb' (8 * j) (8 * l) := by
  refine eq_of_byteOf_eq _ _ fun k hk => ?_
  rw [Memory.byteOf_readLE _ _ _ _ hk, byteOf_extractLsb' v j l k hk, BitVec.add_assoc, ← BitVec.ofNat_add,
    Memory.read_writeLE_at m a v n (j + k) hn (by omega)]

/-- Settles O33: three parts of the stored quadword, and the bytes outside it. -/
theorem storeThenLoad : Obligations.StoreThenLoad := by
  intro m a v
  have hpart : ∀ {j l : Nat}, j + l ≤ 8 →
      (m.writeLE a v 8).readLE (a + BitVec.ofNat 32 j) l = v.extractLsb' (8 * j) (8 * l) :=
    fun h => readLE_writeLE m a v (by decide) h
  have hwhole := hpart (j := 0) (l := 8) (by omega)
  have hword := hpart (j := 0) (l := 2) (by omega)
  rw [show a + BitVec.ofNat 32 0 = a from BitVec.add_zero a] at hwhole hword
  exact ⟨hwhole.trans BitVec.extractLsb'_eq_self, hpart (j := 4) (l := 4) (by omega), hword,
    fun x hx => Memory.read_writeLE_of_ne m a v 8 x hx⟩

/-! ## Operands -/

/-- An admitted load gives a value with the bytes of memory (R62, R63). -/
theorem loadOp_of_admitted {s : State} {m : MemOp} {n : Nat}
    (h : admission s.cfg m.seg m.size (s.effAddr m) n .read = none) :
    ∃ v, s.loadOp m n = .ok v ∧
      ∀ k < n, byteOf v k = s.mem.read (lin s.cfg m.seg (s.effAddr m) + BitVec.ofNat 32 k).toNat :=
  ⟨_, (State.load_eq_ok ..).2 ⟨h, rfl⟩, fun _ hk => Memory.byteOf_readLE _ _ _ _ hk⟩

theorem loadOp_of_stopped {s : State} {m : MemOp} {n : Nat} {e : Fault}
    (h : admission s.cfg m.seg m.size (s.effAddr m) n .read = some e) : s.loadOp m n = .error e :=
  (State.load_eq_error ..).2 h

theorem toNat_getR16 (s : State) (r : GpReg) : (s.getR16 r).toNat = (s.getR32 r).toNat % 2 ^ 16 := by
  rw [getR16_eq, BitVec.toNat_setWidth]

/-- Settles O34: a register operand by definition, a memory operand by its load. -/
theorem sourceOperands : Obligations.SourceOperands := by
  intro s r m
  exact ⟨⟨rfl, rfl, s.getR16 r, rfl, toNat_getR16 s r⟩,
    fun _ => loadOp_of_stopped, loadOp_of_admitted, fun _ => loadOp_of_stopped, loadOp_of_admitted,
    fun _ => loadOp_of_stopped, loadOp_of_admitted⟩

/-- The offset of 16-bit addressing, by the number its register sum has (R115). -/
theorem toNat_effAddr16 {s : State} {base : Base16} {n : Nat} (h : (s.sum16 base).toNat = n % 2 ^ 16) (x : SegReg)
    (disp : BitVec 16) : (s.effAddr (.addr16 x base disp)).toNat = (n + disp.toNat) % 2 ^ 16 := by
  simp only [State.effAddr, BitVec.toNat_setWidth, BitVec.toNat_add, h]
  omega

theorem toNat_getR16_add (s : State) (j k : GpReg) :
    (s.getR16 j + s.getR16 k).toNat = ((s.getR32 j).toNat + (s.getR32 k).toNat) % 2 ^ 16 := by
  rw [BitVec.toNat_add, toNat_getR16, toNat_getR16, ← Nat.add_mod]

/-- The offset of 32-bit addressing, by the numbers its terms have (R113, R114). -/
theorem toNat_effAddr32 (s : State) (x : SegReg) (base : Option GpReg) (index : Option SibIndex) (disp : BitVec 32) :
    (s.effAddr (.addr32 x base index disp)).toNat =
      ((s.base32 base).toNat + (s.index32 index).toNat + disp.toNat) % 2 ^ 32 := by
  simp only [State.effAddr, BitVec.toNat_add]
  omega

theorem toNat_index32 (s : State) (i : SibIndex) :
    (s.index32 (some i)).toNat = (s.getR32 i.reg).toNat * 2 ^ i.scale.toNat % 2 ^ 32 := by
  simp only [State.index32, BitVec.toNat_mul, BitVec.toNat_ofNat, Nat.mul_mod_mod]

/-- Settles O35: the sums of 32-bit addressing, then those of 16-bit addressing. -/
theorem effectiveAddresses : Obligations.EffectiveAddresses := by
  intro s x b i d16 d32
  have hbase : ∀ r, (s.base32 (some r)).toNat = (s.getR32 r).toNat := fun _ => rfl
  have hnoBase : (s.base32 none).toNat = 0 := rfl
  have hnoIndex : (s.index32 none).toNat = 0 := rfl
  have hindex := toNat_index32 s i
  refine ⟨?_, ?_, ?_, ?_,
    toNat_effAddr16 (base := .bxSi) (toNat_getR16_add s 3 6) x d16,
    toNat_effAddr16 (base := .bxDi) (toNat_getR16_add s 3 7) x d16,
    toNat_effAddr16 (base := .bpSi) (toNat_getR16_add s 5 6) x d16,
    toNat_effAddr16 (base := .bpDi) (toNat_getR16_add s 5 7) x d16,
    toNat_effAddr16 (base := .si) (toNat_getR16 s 6) x d16, toNat_effAddr16 (base := .di) (toNat_getR16 s 7) x d16,
    toNat_effAddr16 (base := .bp) (toNat_getR16 s 5) x d16, toNat_effAddr16 (base := .bx) (toNat_getR16 s 3) x d16, ?_⟩
  · rw [toNat_effAddr32, hnoBase, hnoIndex, Nat.zero_add, Nat.mod_eq_of_lt d32.isLt]
  · rw [toNat_effAddr32, hbase, hnoIndex, Nat.add_zero]
  · rw [toNat_effAddr32, hnoBase, hindex, Nat.zero_add, Nat.mod_add_mod]
  · rw [toNat_effAddr32, hbase, hindex, Nat.add_right_comm, Nat.add_mod_mod, Nat.add_right_comm]
  · rw [toNat_effAddr16 (n := 0) rfl, Nat.zero_add, Nat.mod_eq_of_lt d16.isLt]

/-! ## The stack slot -/

/-- Settles O36: the slot is the lowered stack pointer, of the size that the parameter selects. -/
theorem stackSlot : Obligations.StackSlot := by
  intro s a n hn
  refine ⟨fun hfrom => by rw [stackSize, hfrom], fun hfrom => by rw [stackSize, hfrom], fun hsize => ?_,
    fun hsize => ?_⟩
  · have hsp : (s.sp .s16).toNat = (s.getR32 4).toNat % 2 ^ 16 := by
      rw [State.sp, BitVec.toNat_setWidth, toNat_getR16]
      omega
    rw [State.slot, hsize, toNat_lower _ _ _ (by omega), hsp, Size.bits]
    omega
  · rw [State.slot, hsize, toNat_lower _ _ _ (by omega)]
    rfl

end Sys2Proof.Proofs.Operations
end

section
/-!
PROOFS. The rules of the MMX and Cyrix families (40_emms_mov.md to 47_shift.md, 43_cyrix.md): what each scalar function
computes, as numbers, and so what each lane of the result is.
-/

namespace Sys2Proof.Proofs.Packed

open Sys2Proof Sys2Proof.Machine

/-! ## EMMS, MOVD, MOVQ -/

/-- Settles O37: with MMX, the meaning writes the tag word alone. -/
theorem emmsRule : Obligations.EmmsRule := by
  intro s
  refine ⟨fun hoff => State.requireMmx_off _ _ hoff, fun hon => ⟨{ s with ftw := 0xFFFF }, ?_, rfl, ?_, rfl⟩⟩
  · exact State.requireMmx_on _ _ hon
  · exact ⟨fun _ _ => rfl, fun _ _ => rfl, fun _ => rfl, rfl, rfl, fun _ _ => rfl, rfl⟩

/-- R153: MOVQ to an MMX register copies its source. -/
theorem mmxRule_movqLoad : MmxRule .movqLoad fun _ _ v r => r = v :=
  MmxRule.of_mmxBinary (f := fun _ _ v => v) (fun _ _ _ => rfl) fun _ _ _ => rfl

/-- Settles O38: MOVD reads a doubleword and writes it below a zero one, MOVQ is a two-operand instruction. -/
theorem movLoadRules : Obligations.MovLoadRules := by
  refine ⟨fun s d src => ⟨fun hoff => State.requireMmx_off _ _ hoff, fun hon e he => ?_, fun hon v hv => ?_⟩,
    mmxRule_movqLoad⟩
  · change s.requireMmx _ = _
    rw [State.requireMmx_on _ _ hon, he]
    rfl
  · refine completesInMm_of_writeMm (f := id) (v := v.setWidth 64) ?_ (laneD_setWidth v)
    change s.requireMmx _ = _
    rw [State.requireMmx_on _ _ hon, hv]
    rfl

/-- An instruction whose meaning is a store to memory and the tag word: the fault of the access, or the bytes. -/
theorem storeRule {i : Instr} {s : State} {m : MemOp} {n w : Nat} {v : BitVec w} (hn : n ≤ 2 ^ 32)
    (hon : s.cfg.hasMmx = true)
    (h : exec i s = s.requireMmx ((s.store m.seg m.size (s.effAddr m) n v).map State.mmxDone)) :
    (∀ e, admission s.cfg m.seg m.size (s.effAddr m) n .write = some e → exec i s = .fault e) ∧
    (admission s.cfg m.seg m.size (s.effAddr m) n .write = none →
      ∃ t, exec i s = .next t ∧ t.holds m.seg (s.effAddr m) n v ∧
        s.MmxFrame t none none (covers s.cfg m.seg (s.effAddr m) n)) := by
  rw [State.requireMmx_on _ _ hon] at h
  refine ⟨fun e he => ?_, fun ha => ⟨(s.put m.seg (s.effAddr m) n v).mmxDone, ?_, ?_, State.mmxFrame_put ..⟩⟩
  · rw [h, (State.store_eq_error ..).2 he]
    rfl
  · rw [h, (State.store_eq_ok ..).2 ⟨ha, rfl⟩]
    rfl
  · exact State.holds_congr (State.mmxDone_mem _) (State.mmxDone_cfg _) (State.holds_put _ _ _ _ _ hn)

/-- R152: MOVD to a general register. -/
theorem movdStore_register {s : State} (hon : s.cfg.hasMmx = true) (r : GpReg) (src : MmReg) :
    ∃ t, exec (.movdStore (.reg r) src) s = .next t ∧ t.getR32 r = laneD (s.getMm src) 0 ∧
      s.MmxFrame t none (some r) nowhere :=
  ⟨_, State.requireMmx_on _ _ hon, by rw [State.getR32_mmxDone, State.getR32_setR32, if_pos rfl]; rfl,
    State.mmxFrame_setR32 ..⟩

/-- R154: MOVQ to an MMX register. -/
theorem movqStore_register {s : State} (hon : s.cfg.hasMmx = true) (r src : MmReg) :
    CompletesInMm (.movqStore (.reg r) src) s r fun v => v = s.getMm src :=
  completesInMm_of_writeMm (f := id) (State.requireMmx_on _ _ hon) rfl

/-- Settles O39: the two register forms and the two memory forms. -/
theorem movStoreRules : Obligations.MovStoreRules := by
  intro s src r m
  refine ⟨fun hoff dst => ⟨State.requireMmx_off _ _ hoff, State.requireMmx_off _ _ hoff⟩, fun hon => ?_⟩
  obtain ⟨hfault4, hstore4⟩ := storeRule (i := .movdStore (.mem m) src) (n := 4) (v := laneD (s.getMm src) 0)
    (by decide) hon rfl
  obtain ⟨hfault8, hstore8⟩ := storeRule (i := .movqStore (.mem m) src) (n := 8) (v := s.getMm src) (by decide) hon rfl
  exact ⟨movdStore_register hon r src, movqStore_register hon r src, hfault4, hstore4, hfault8, hstore8⟩

/-! ## Pack and unpack -/

theorem toNat_satU8_natCast (n : Nat) : (satU8 n).toNat = min 255 n := by
  have h := toNat_satU8 n
  omega

/-- Settles O40: every element of the result is a narrowed element of one operand. -/
theorem packRules : Obligations.PackRules := by
  refine ⟨MmxRule.of_mmxBinary (f := fun _ => packDwords narrowS16) (fun _ _ _ => rfl) fun _ d v i hi => ?_,
    MmxRule.of_mmxBinary (f := fun _ => packWords narrowS8) (fun _ _ _ => rfl) fun _ d v i hi => ?_,
    MmxRule.of_mmxBinary (f := fun c => packWords (narrowU8 c.packuswbInput)) (fun _ _ _ => rfl)
      fun c d v i hi => ?_⟩
  · obtain ⟨hlow, hhigh⟩ := laneW_packDwords narrowS16 d v hi
    rw [hlow, hhigh]
    exact ⟨toInt_satS16 _, toInt_satS16 _⟩
  · obtain ⟨hlow, hhigh⟩ := laneB_packWords narrowS8 d v hi
    rw [hlow, hhigh]
    exact ⟨toInt_satS8 _, toInt_satS8 _⟩
  · obtain ⟨hlow, hhigh⟩ := laneB_packWords (narrowU8 c.packuswbInput) d v hi
    rw [hlow, hhigh]
    refine ⟨fun hc => ?_, fun hc => ?_⟩ <;> rw [hc]
    · exact ⟨toNat_satU8_natCast _, toNat_satU8_natCast _⟩
    · exact ⟨toNat_satU8 _, toNat_satU8 _⟩

/-- An unpack of bytes from lane `o` on. -/
theorem mmxRule_unpackB {mk : MmReg → RmOp → Instr} {o : Nat}
    (h : ∀ d src s, exec (mk d src) s = mmxBinary (unpackB o) d src s) :
    MmxRule mk fun _ d v r => ∀ i < 4, laneB r (2 * i) = laneB d (o + i) ∧ laneB r (2 * i + 1) = laneB v (o + i) :=
  MmxRule.of_mmxBinary (f := fun _ => unpackB o) h fun _ d v _ hi => laneB_unpackB o d v hi

/-- An unpack of words from lane `o` on. -/
theorem mmxRule_unpackW {mk : MmReg → RmOp → Instr} {o : Nat}
    (h : ∀ d src s, exec (mk d src) s = mmxBinary (unpackW o) d src s) :
    MmxRule mk fun _ d v r => ∀ i < 2, laneW r (2 * i) = laneW d (o + i) ∧ laneW r (2 * i + 1) = laneW v (o + i) :=
  MmxRule.of_mmxBinary (f := fun _ => unpackW o) h fun _ d v _ hi => laneW_unpackW o d v hi

/-- An unpack of doublewords from lane `o`. -/
theorem mmxRule_unpackD {mk : MmReg → RmOp → Instr} {o : Nat}
    (h : ∀ d src s, exec (mk d src) s = mmxBinary (unpackD o) d src s) :
    MmxRule mk fun _ d v r => laneD r 0 = laneD d o ∧ laneD r 1 = laneD v o :=
  MmxRule.of_mmxBinary (f := fun _ => unpackD o) h fun _ d v => laneD_unpackD o d v

/-- Settles O41: the high unpacks begin at the middle lane, the low ones at lane 0. -/
theorem unpackRules : Obligations.UnpackRules := by
  have hlowB := mmxRule_unpackB (mk := .punpcklbw) (o := 0) fun _ _ _ => rfl
  have hlowW := mmxRule_unpackW (mk := .punpcklwd) (o := 0) fun _ _ _ => rfl
  simp only [Nat.zero_add] at hlowB hlowW
  exact ⟨mmxRule_unpackB fun _ _ _ => rfl, mmxRule_unpackW fun _ _ _ => rfl, mmxRule_unpackD fun _ _ _ => rfl,
    hlowB, hlowW, mmxRule_unpackD fun _ _ _ => rfl⟩

/-! ## Addition and subtraction -/

/-- Settles O42: the lanes are added as bit vectors. -/
theorem wrappingAdditionRules : Obligations.WrappingAdditionRules :=
  ⟨MmxRule.of_mapB (fun _ _ _ => rfl) BitVec.toNat_add, MmxRule.of_mapW (fun _ _ _ => rfl) BitVec.toNat_add,
    MmxRule.of_mapD (fun _ _ _ => rfl) BitVec.toNat_add⟩

/-- A sum or difference clipped to the unsigned bytes, as a natural number. -/
theorem toNat_addSatU8 (a b : BitVec 8) : (addSatU8 a b).toNat = min 255 (a.toNat + b.toNat) := by
  have h := toNat_satU8 ((a.toNat : Int) + b.toNat)
  rw [addSatU8]
  omega

theorem toNat_addSatU16 (a b : BitVec 16) : (addSatU16 a b).toNat = min 65535 (a.toNat + b.toNat) := by
  have h := toNat_satU16 ((a.toNat : Int) + b.toNat)
  rw [addSatU16]
  omega

theorem toNat_subSatU8 (a b : BitVec 8) : (subSatU8 a b).toNat = a.toNat - b.toNat := by
  have h := toNat_satU8 ((a.toNat : Int) - b.toNat)
  have ha := a.isLt
  rw [subSatU8]
  omega

theorem toNat_subSatU16 (a b : BitVec 16) : (subSatU16 a b).toNat = a.toNat - b.toNat := by
  have h := toNat_satU16 ((a.toNat : Int) - b.toNat)
  have ha := a.isLt
  rw [subSatU16]
  omega

/-- Settles O43: saturation of the exact sum, signed and unsigned. -/
theorem saturatingAdditionRules : Obligations.SaturatingAdditionRules :=
  ⟨MmxRule.of_mapB (fun _ _ _ => rfl) fun _ _ => toInt_satS8 _,
    MmxRule.of_mapW (fun _ _ _ => rfl) fun _ _ => toInt_satS16 _,
    MmxRule.of_mapB (fun _ _ _ => rfl) toNat_addSatU8, MmxRule.of_mapW (fun _ _ _ => rfl) toNat_addSatU16⟩

/-- A difference of bit vectors is the difference modulo their width. -/
theorem toNat_sub_eq_emod {w : Nat} (a b : BitVec w) : ((a - b).toNat : Int) = ((a.toNat : Int) - b.toNat) % 2 ^ w := by
  have hb := b.isLt
  rw [BitVec.toNat_sub]
  push_cast [Nat.cast_sub hb.le]
  rw [show ((2 : Int) ^ w - b.toNat + a.toNat) = ((a.toNat : Int) - b.toNat) + 2 ^ w by ring, Int.add_emod_right]

/-- Settles O44: the lanes are subtracted as bit vectors. -/
theorem wrappingSubtractionRules : Obligations.WrappingSubtractionRules :=
  ⟨MmxRule.of_mapB (fun _ _ _ => rfl) toNat_sub_eq_emod, MmxRule.of_mapW (fun _ _ _ => rfl) toNat_sub_eq_emod,
    MmxRule.of_mapD (fun _ _ _ => rfl) toNat_sub_eq_emod⟩

/-- Settles O45: saturation of the exact difference, signed, or clipped at 0. -/
theorem saturatingSubtractionRules : Obligations.SaturatingSubtractionRules :=
  ⟨MmxRule.of_mapB (fun _ _ _ => rfl) fun _ _ => toInt_satS8 _,
    MmxRule.of_mapW (fun _ _ _ => rfl) fun _ _ => toInt_satS16 _,
    MmxRule.of_mapB (fun _ _ _ => rfl) toNat_subSatU8, MmxRule.of_mapW (fun _ _ _ => rfl) toNat_subSatU16⟩

/-! ## Logic and comparison -/

/-- Settles O46: bit `k` of each operation; PANDN's complement needs `k < 64`. -/
theorem logicalRules : Obligations.LogicalRules := by
  refine ⟨MmxRule.of_mmxBinary (f := fun _ d v => d &&& v) (fun _ _ _ => rfl) fun _ _ _ _ _ => BitVec.getLsbD_and,
    MmxRule.of_mmxBinary (f := fun _ d v => ~~~d &&& v) (fun _ _ _ => rfl) fun _ _ _ _ hk => ?_,
    MmxRule.of_mmxBinary (f := fun _ d v => d ||| v) (fun _ _ _ => rfl) fun _ _ _ _ _ => BitVec.getLsbD_or,
    MmxRule.of_mmxBinary (f := fun _ d v => d ^^^ v) (fun _ _ _ => rfl) fun _ _ _ _ _ => BitVec.getLsbD_xor⟩
  rw [BitVec.getLsbD_and, BitVec.getLsbD_not, decide_eq_true hk, Bool.true_and]

/-- Equal bit patterns are equal numbers (R241 to R243). -/
theorem cmpEq_eq {w : Nat} (a b : BitVec w) : cmpEq a b = if a.toNat = b.toNat then BitVec.allOnes w else 0 := by
  simp only [cmpEq, mask, decide_eq_true_eq, BitVec.toNat_inj]

theorem cmpGt_eq {w : Nat} (a b : BitVec w) : cmpGt a b = if a.toInt > b.toInt then BitVec.allOnes w else 0 := by
  simp only [cmpGt, mask, decide_eq_true_eq, gt_iff_lt]

/-- Settles O47: all ones of 8, 16 and 32 bits. -/
theorem comparisonRules : Obligations.ComparisonRules :=
  ⟨MmxRule.of_mapB (fun _ _ _ => rfl) cmpEq_eq, MmxRule.of_mapW (fun _ _ _ => rfl) cmpEq_eq,
    MmxRule.of_mapD (fun _ _ _ => rfl) cmpEq_eq, MmxRule.of_mapB (fun _ _ _ => rfl) cmpGt_eq,
    MmxRule.of_mapW (fun _ _ _ => rfl) cmpGt_eq, MmxRule.of_mapD (fun _ _ _ => rfl) cmpGt_eq⟩

/-! ## Multiplication -/

/-- The high half of a doubleword is its signed number divided by 2^16, rounding down. -/
theorem toInt_highWord (x : BitVec 32) : (x.extractLsb' 16 16).toInt = x.toInt / 2 ^ 16 := by
  have hx := x.isLt
  simp only [BitVec.toInt_eq_toNat_cond, BitVec.extractLsb'_toNat, Nat.shiftRight_eq_div_pow]
  omega

/-- The low half of a doubleword is its number modulo 2^16, read as signed or not. -/
theorem toNat_lowWord (x : BitVec 32) : ((x.extractLsb' 0 16).toNat : Int) = x.toInt % 2 ^ 16 := by
  have hx := x.isLt
  simp only [BitVec.toInt_eq_toNat_cond, BitVec.extractLsb'_toNat, Nat.shiftRight_eq_div_pow]
  omega

theorem toInt_mulHigh (a b : BitVec 16) : (mulHigh a b).toInt = (a.toInt * b.toInt) / 2 ^ 16 := by
  rw [mulHigh, toInt_highWord, toInt_mulS16]

theorem toNat_mulLow (a b : BitVec 16) : ((mulLow a b).toNat : Int) = (a.toInt * b.toInt) % 2 ^ 16 := by
  rw [mulLow, toNat_lowWord, toInt_mulS16]

/-- Settles O48: the sums of PMADDWD, and the two halves of the exact product. -/
theorem multiplicationRules : Obligations.MultiplicationRules :=
  ⟨MmxRule.of_mmxBinary (f := fun _ => mulAdd) (fun _ _ _ => rfl) fun _ d v _ hi => toNat_laneD_mulAdd d v hi,
    MmxRule.of_mapW (fun _ _ _ => rfl) toInt_mulHigh, MmxRule.of_mapW (fun _ _ _ => rfl) toNat_mulLow⟩

/-! ## Shifts -/

/-- A shift of the words by the whole source (R263, R282). -/
theorem mmxRule_shiftW {mk : MmReg → RmOp → Instr} {f g : BitVec 16 → Nat → BitVec 16}
    (h : ∀ d src s, exec (mk d src) s = mmxBinary (fun a c => shiftW f a c.toNat) d src s)
    (hf : ∀ x c, f x c = g x c) : MmxRule mk fun _ d v r => ∀ i < 4, laneW r i = g (laneW d i) v.toNat :=
  MmxRule.of_mmxBinary (f := fun _ a c => shiftW f a c.toNat) h fun _ _ _ _ hi => (laneW_shiftW _ _ _ hi).trans (hf ..)

/-- A shift of the doublewords by the whole source. -/
theorem mmxRule_shiftD {mk : MmReg → RmOp → Instr} {f g : BitVec 32 → Nat → BitVec 32}
    (h : ∀ d src s, exec (mk d src) s = mmxBinary (fun a c => shiftD f a c.toNat) d src s)
    (hf : ∀ x c, f x c = g x c) : MmxRule mk fun _ d v r => ∀ i < 2, laneD r i = g (laneD d i) v.toNat :=
  MmxRule.of_mmxBinary (f := fun _ a c => shiftD f a c.toNat) h fun _ _ _ _ hi => (laneD_shiftD _ _ _ hi).trans (hf ..)

/-- A shift of the quadword by the whole source. -/
theorem mmxRule_shiftQ {mk : MmReg → RmOp → Instr} {f g : BitVec 64 → Nat → BitVec 64}
    (h : ∀ d src s, exec (mk d src) s = mmxBinary (fun a c => f a c.toNat) d src s)
    (hf : ∀ x c, f x c = g x c) : MmxRule mk fun _ d v r => r = g d v.toNat :=
  MmxRule.of_mmxBinary (f := fun _ a c => f a c.toNat) h fun _ _ _ => hf ..

/-- Settles O49: the model's shifts are those of bit vectors, at every count. -/
theorem shiftByOperandRules : Obligations.ShiftByOperandRules :=
  ⟨mmxRule_shiftW (fun _ _ _ => rfl) shiftLeft_eq, mmxRule_shiftD (fun _ _ _ => rfl) shiftLeft_eq,
    mmxRule_shiftQ (fun _ _ _ => rfl) shiftLeft_eq, mmxRule_shiftW (fun _ _ _ => rfl) shiftRightArith_eq,
    mmxRule_shiftD (fun _ _ _ => rfl) shiftRightArith_eq, mmxRule_shiftW (fun _ _ _ => rfl) shiftRight_eq,
    mmxRule_shiftD (fun _ _ _ => rfl) shiftRight_eq, mmxRule_shiftQ (fun _ _ _ => rfl) shiftRight_eq⟩

/-- A shift of the words by an immediate count. -/
theorem shiftImmRule_shiftW {mk : MmReg → BitVec 8 → Instr} {f g : BitVec 16 → Nat → BitVec 16}
    (h : ∀ d c s, exec (mk d c) s = mmxShiftImm (shiftW f) d c s) (hf : ∀ x c, f x c = g x c) :
    ShiftImmRule mk fun d c r => ∀ i < 4, laneW r i = g (laneW d i) c :=
  ShiftImmRule.of_mmxShiftImm h fun _ _ _ hi => (laneW_shiftW _ _ _ hi).trans (hf ..)

/-- A shift of the doublewords by an immediate count. -/
theorem shiftImmRule_shiftD {mk : MmReg → BitVec 8 → Instr} {f g : BitVec 32 → Nat → BitVec 32}
    (h : ∀ d c s, exec (mk d c) s = mmxShiftImm (shiftD f) d c s) (hf : ∀ x c, f x c = g x c) :
    ShiftImmRule mk fun d c r => ∀ i < 2, laneD r i = g (laneD d i) c :=
  ShiftImmRule.of_mmxShiftImm h fun _ _ _ hi => (laneD_shiftD _ _ _ hi).trans (hf ..)

/-- Settles O50: the same shifts, with the count of the immediate. -/
theorem shiftByImmediateRules : Obligations.ShiftByImmediateRules :=
  ⟨shiftImmRule_shiftW (fun _ _ _ => rfl) shiftLeft_eq, shiftImmRule_shiftD (fun _ _ _ => rfl) shiftLeft_eq,
    ShiftImmRule.of_mmxShiftImm (fun _ _ _ => rfl) shiftLeft_eq,
    shiftImmRule_shiftW (fun _ _ _ => rfl) shiftRightArith_eq,
    shiftImmRule_shiftD (fun _ _ _ => rfl) shiftRightArith_eq,
    shiftImmRule_shiftW (fun _ _ _ => rfl) shiftRight_eq, shiftImmRule_shiftD (fun _ _ _ => rfl) shiftRight_eq,
    ShiftImmRule.of_mmxShiftImm (fun _ _ _ => rfl) shiftRight_eq⟩

/-! ## The Cyrix family -/

/-- R204: the average of two bytes is a byte. -/
theorem toNat_average_floor (a b : BitVec 8) : (average .floor a b).toNat = (a.toNat + b.toNat) / 2 := by
  have ha := a.isLt
  have hb := b.isLt
  rw [average, BitVec.toNat_ofNat]
  omega

theorem toNat_average_halfUp (a b : BitVec 8) : (average .halfUp a b).toNat = (a.toNat + b.toNat + 1) / 2 := by
  have ha := a.isLt
  have hb := b.isLt
  rw [average, BitVec.toNat_ofNat]
  omega

theorem cyrixRule_paveb : CyrixRule State.src64 id .paveb fun c => EachB fun _ a b r =>
    (c.pavebRound = .floor → r.toNat = (a.toNat + b.toNat) / 2) ∧
    (c.pavebRound = .halfUp → r.toNat = (a.toNat + b.toNat + 1) / 2) := by
  refine CyrixRule.of_writeMm (f := fun c _ => mapB (average c.pavebRound)) (fun _ _ _ => rfl) fun c _ d v i hi => ?_
  rw [laneB_mapB _ _ _ hi]
  exact ⟨fun hc => hc ▸ toNat_average_floor .., fun hc => hc ▸ toNat_average_halfUp ..⟩

/-- R207: the three cases of the two magnitudes. -/
theorem largerMagnitude_cases (tie : PmagwTie) (a b : BitVec 16) :
    (b.toInt.natAbs > a.toInt.natAbs → largerMagnitude tie a b = b) ∧
    (a.toInt.natAbs > b.toInt.natAbs → largerMagnitude tie a b = a) ∧
    (a.toInt.natAbs = b.toInt.natAbs →
      (tie = .keepDest → largerMagnitude tie a b = a) ∧ (tie = .takeSrc → largerMagnitude tie a b = b)) := by
  refine ⟨fun hb => if_pos hb, fun ha => ?_, fun htie => ⟨?_, ?_⟩⟩
  · rw [largerMagnitude.eq_def, if_neg (by omega), if_pos ha]
  · rintro rfl
    rw [largerMagnitude, if_neg (by omega), if_neg (by omega)]
  · rintro rfl
    rw [largerMagnitude, if_neg (by omega), if_neg (by omega)]

/-- Settles O51: averages, larger magnitudes, and rounded high products in doubleword arithmetic. -/
theorem cyrixFirstOperandRules : Obligations.CyrixFirstOperandRules :=
  ⟨cyrixRule_paveb,
    CyrixRule.of_mapW (f := fun c => largerMagnitude c.pmagwTie) (fun _ _ _ => rfl) fun _ _ => largerMagnitude_cases _,
    CyrixRule.of_mapW (f := fun _ => mulHighRound) (fun _ _ _ => rfl) fun _ _ => mulHighRound_eq⟩

/-- Settles O52: the lane functions of PADDSW, PMULHRW and PSUBSW. -/
theorem cyrixImpliedRegisterRules : Obligations.CyrixImpliedRegisterRules :=
  ⟨CyrixRule.of_mapW (f := fun _ => addSatS16) (fun _ _ _ => rfl) fun _ _ _ _ => toInt_satS16 _,
    CyrixRule.of_mapW (f := fun _ => mulHighRound) (fun _ _ _ => rfl) fun _ _ => mulHighRound_eq,
    CyrixRule.of_mapW (f := fun _ => subSatS16) (fun _ _ _ => rfl) fun _ _ _ _ => toInt_satS16 _⟩

/-- R205: the distance of two bytes is the larger minus the smaller. -/
theorem toNat_accumulateDistance (acc a b : BitVec 8) :
    (accumulateDistance acc a b).toNat = min 255 (acc.toNat + (max a.toNat b.toNat - min a.toNat b.toNat)) := by
  have h := toNat_satU8 ((acc.toNat : Int) + ((a.toNat : Int) - b.toNat).natAbs)
  rw [accumulateDistance]
  omega

/-- Settles O53: each lane of the result adds to the implied register's lane. -/
theorem cyrixAccumulationRules : Obligations.CyrixAccumulationRules := by
  refine ⟨CyrixRule.of_writeMm (f := fun _ acc a b => ofLanesB fun i =>
      accumulateDistance (laneB acc i) (laneB a i) (laneB b i)) (fun _ _ _ => rfl) fun _ acc a b i hi => ?_,
    CyrixRule.of_writeMm (f := fun _ acc a b => ofLanesW fun i =>
      laneW acc i + mulHighRound (laneW a i) (laneW b i)) (fun _ _ _ => rfl) fun _ acc a b i hi => ?_⟩
  · rw [laneB_ofLanesB _ hi]
    exact toNat_accumulateDistance ..
  · rw [laneW_ofLanesW _ hi]
    exact congrArg _ (mulHighRound_eq ..)

/-- A byte is negative as a signed number when its top bit is set (R14). -/
theorem toInt_neg_iff (c : BitVec 8) : c.toInt < 0 ↔ c.toNat ≥ 128 := by
  have hc := c.isLt
  rw [BitVec.toInt_eq_toNat_cond]
  omega

/-- Settles O54: the four conditions, as numbers. -/
theorem cyrixConditionalMoveRules : Obligations.CyrixConditionalMoveRules := by
  refine ⟨CyrixRule.of_select (fun _ _ _ => rfl) fun c a b => ?_,
    CyrixRule.of_select (fun _ _ _ => rfl) fun c a b => ?_,
    CyrixRule.of_select (fun _ _ _ => rfl) fun c a b => ?_, CyrixRule.of_select (fun _ _ _ => rfl) fun c a b => ?_⟩
  · simp [BitVec.toNat_eq]
  · simp [BitVec.toNat_eq]
  · simp [toInt_neg_iff]
  · have hneg := toInt_neg_iff c
    by_cases hc : c.toNat ≥ 128
    · simp [hc, hneg.2 hc]
    · simp [hc, not_lt.1 (mt hneg.1 hc)]

end Sys2Proof.Proofs.Packed
end

section
/-!
PROOFS. The rules of the PUSH family (48_push.md): each instruction's meaning is one push, or PUSHAx, of the value its
rule names.
-/

namespace Sys2Proof.Proofs.PushRules

open Sys2Proof Sys2Proof.Machine

/-- Settles O55: the value is read before the push (R296). -/
theorem pushRegisterRules : Obligations.PushRegisterRules := by
  intro s a r
  rw [← getR16_eq]
  exact ⟨PushRule.of_push rfl (by decide), PushRule.of_push rfl (by decide)⟩

theorem exec_pushRm16 (a : Size) (src : RmOp) (s : State) :
    exec (.pushRm16 a src) s = outcome (s.pushSrc16 a (s.src16 src)) := rfl

theorem exec_pushRm32 (a : Size) (src : RmOp) (s : State) :
    exec (.pushRm32 a src) s = outcome (s.pushSrc32 a (s.src32 src)) := rfl

/-- Settles O56: the operand's fault, or one push of its value. -/
theorem pushOperandRules : Obligations.PushOperandRules := by
  intro s a src
  refine ⟨fun e he => ?_, fun v hv => PushRule.of_push ?_ (by decide), fun e he => ?_,
    fun v hv => PushRule.of_push ?_ (by decide)⟩
  · rw [exec_pushRm16, he]; rfl
  · rw [exec_pushRm16, hv]; rfl
  · rw [exec_pushRm32, he]; rfl
  · rw [exec_pushRm32, hv]; rfl

/-- An instruction whose meaning pushes one segment register has both rules of R297. -/
theorem pushSegRules {mk : Size → Size → Instr} {x : SegReg}
    (h : ∀ o a s, exec (mk o a) s = outcome (s.pushSeg x o a)) (s : State) (a : Size) :
    PushRule (mk .s16 a) s a 2 (s.sreg.get x) 0 ∧
      PushRule (mk .s32 a) s a 4 (Config.freeUpperWord s.draws ++ s.sreg.get x) 1 :=
  ⟨PushRule.of_pushSeg (o := .s16) (h .s16 a s), PushRule.of_pushSeg (o := .s32) (h .s32 a s)⟩

/-- Settles O57: the six registers. -/
theorem pushSegmentRules : Obligations.PushSegmentRules := by
  intro s a p hp
  simp only [List.mem_cons, List.not_mem_nil, or_false] at hp
  rcases hp with rfl | rfl | rfl | rfl | rfl | rfl <;> exact pushSegRules (fun _ _ _ => rfl) s a

/-- Settles O58: the immediate, of the operand size. -/
theorem pushImmediateRules : Obligations.PushImmediateRules := by
  intro s a i8 i16 i32
  exact ⟨PushRule.of_push rfl (by decide), PushRule.of_push rfl (by decide), PushRule.of_push rfl (by decide),
    PushRule.of_push rfl (by decide)⟩

/-- A rule of PUSHAx carries over to an instruction of the same meaning. -/
theorem pushAllRule_congr {i j : Instr} {s : State} {a : Size} {n w : Nat} {v : GpReg → BitVec w}
    (h : exec i s = exec j s) (hj : PushAllRule j s a n v) : PushAllRule i s a n v := by
  rwa [PushAllRule, h]

/-- A rule of a push carries over to an instruction of the same meaning. -/
theorem pushRule_congr {i j : Instr} {s : State} {a : Size} {n w drawn : Nat} {v : BitVec w}
    (h : exec i s = exec j s) (hj : PushRule j s a n v drawn) : PushRule i s a n v drawn := by
  rwa [PushRule, CompletesPush, h]

/-- Settles O59: PUSHAW and PUSHAD, and PUSHA by its meaning in the mode (R312). -/
theorem pushAllRules : Obligations.PushAllRules := by
  intro s a
  have hword : PushAllRule (.pushaw a) s a 2 fun k => (s.getR32 k).setWidth 16 := by
    simp only [← getR16_eq]
    exact PushAllRule.of_pushAll (.inl rfl) rfl
  have hdword : PushAllRule (.pushad a) s a 4 s.getR32 := PushAllRule.of_pushAll (.inr rfl) rfl
  refine ⟨hword, hdword, fun hmode => pushAllRule_congr ?_ hword, fun hmode => pushAllRule_congr ?_ hdword⟩ <;>
    rw [Push.exec_pusha, hmode] <;> rfl

theorem flagsImage16_eq (s : State) : s.flagsImage16 = s.flags.setWidth 16 :=
  BitVec.eq_of_toNat_eq (by simp [State.flagsImage16])

/-- Settles O60: PUSHFW and PUSHFD, and PUSHF by its meaning in the mode (R317). -/
theorem pushFlagsRules : Obligations.PushFlagsRules := by
  intro s a
  have hword : PushRule (.pushfw a) s a 2 (s.flags.setWidth 16) 0 := by
    rw [← flagsImage16_eq]
    exact PushRule.of_push rfl (by decide)
  have hdword : PushRule (.pushfd a) s a 4 s.flags 0 := PushRule.of_push rfl (by decide)
  refine ⟨hword, hdword, fun hmode => pushRule_congr ?_ hword, fun hmode => pushRule_congr ?_ hdword⟩ <;>
    rw [Push.exec_pushf, hmode] <;> rfl

end Sys2Proof.Proofs.PushRules
end
